-- ==== Sys2Proof/Word.lean ====
section
/-! DEFINITION. The two word types of the block (00_scope.md R8): bytes, and 32-bit words (command words,
configuration words, statistics counters, the interrupt registers). Ring-buffer indices and counts are never
shifted, masked or read as words, and never exceed the capacity, so they are natural numbers (log 12). -/

namespace Sys2Proof

/-- A byte of a ring buffer, a FIFO or the line (00_scope.md R8). -/
abbrev Byte := BitVec 8

/-- A 32-bit word: a command word, a configuration word, a counter, an interrupt register. -/
abbrev Word := BitVec 32

end Sys2Proof
end

