-- ==== Sys2Proof/Config.lean ====
section
/-! DEFINITION. What is fixed for a whole run (the parameters of 00_scope.md R7), the configuration record of a
port (10_state.md R24), and the free values the spec calls draws (00_scope.md R11): opaque constants, so that no
proof can see which value they have. -/

namespace Sys2Proof

/-- Parity of a frame (30_encoding.md R109). Stored, read by no rule (10_state.md R24). -/
inductive Parity where
  | none
  | even
  | odd
  deriving DecidableEq, Repr

/-- Stop bits of a frame: 1, 1.5 or 2 (30_encoding.md R109). Stored, read by no rule (10_state.md R24). -/
inductive StopBits where
  | one
  | oneHalf
  | two
  deriving DecidableEq, Repr

/-- Flow control of one direction: none, RTS/CTS, XON/XOFF (30_encoding.md R109). -/
inductive FlowControl where
  | none
  | hardware
  | software
  deriving DecidableEq, Repr

/-- The configuration record of a port (10_state.md R24), with the spec's names. -/
structure PortCfg where
  baudRate          : Nat
  numDataBits       : Nat
  parity            : Parity
  stopBits          : StopBits
  rxBufSize         : Nat
  txBufSize         : Nat
  rxFlowControl     : FlowControl
  txFlowControl     : FlowControl
  rxLingerMicros    : Nat
  rxFifoFullThresh  : Nat
  rxFifoFcThresh    : Nat
  rxFifoAlarm       : Nat
  txFifoEmptyThresh : Nat
  deriving DecidableEq, Repr

/-- XON_LOW, "function of the configuration, ≤ rx_fifo_fc_thresh" (00_scope.md R7): its default, or a function
of the implementation's own (log 13). -/
inductive XonLowRule where
  | atFcThresh
  | ownFunction
  deriving DecidableEq, Repr

/-- The implementation parameters of 00_scope.md R7 that are data. NPORTS and NRB are the numbers of port records
and ring-buffer instances the state holds; BAUD_DIV_FN is `Config.baudDivFn`. -/
structure Params where
  rxFifoCap    : Nat
  txFifoCap    : Nat
  baudMin      : Nat
  baudMax      : Nat
  hwFcThresh   : Bool
  ovfResetFifo : Bool
  xonLow       : XonLowRule
  xonChar      : Byte
  xoffChar     : Byte
  deriving DecidableEq, Repr

/-- The ranges 00_scope.md R7 gives the parameters. -/
abbrev Params.wf (P : Params) : Prop :=
  1 ≤ P.rxFifoCap ∧ 1 ≤ P.txFifoCap ∧ P.baudMin ≤ P.baudMax ∧ P.baudMax < 2 ^ 32

namespace Config

/-- CAP_MAX, the largest ring-buffer capacity (00_scope.md R7). -/
def capMax : Nat := 65535

/-- LINGER_MAX, the largest rx_linger_micros (00_scope.md R7). -/
def lingerMax : Nat := 200

/-- The free value of the n-th draw a run takes that its trace does not state (00_scope.md R11, log 3). -/
opaque freeDraw : Nat → Nat

/-- CTS_IN of port p at reset, a draw (10_state.md R39, log 4). -/
opaque ctsAtReset : Nat → Bool

/-- BAUD_DIV_FN, the divisor for a baud rate: OPEN (00_scope.md R7, 92_eei_decisions.md D56, log 14). -/
opaque baudDivFn : Nat → Nat

/-- An implementation's own XON_LOW function, before it is bounded by rx_fifo_fc_thresh (log 13). -/
opaque xonLowFn : PortCfg → Nat

/-- NPORTS of the machine `State.reset` (95_test_vectors.md section 0; DESIGN CHOICE, log 2). -/
def resetPorts : Nat := 2

/-- NRB of the machine `State.reset` (95_test_vectors.md section 0; DESIGN CHOICE, log 2). -/
def resetInstances : Nat := 2

/-- The parameters of the machine `State.reset`: the values of 95_test_vectors.md section 0, the widest baud
range its premise allows, and the defaults of 00_scope.md R7 (DESIGN CHOICE, log 2). -/
def resetParams : Params :=
  { rxFifoCap := 8, txFifoCap := 4, baudMin := 1, baudMax := 4294967295, hwFcThresh := false,
    ovfResetFifo := false, xonLow := .atFcThresh, xonChar := 0x11#8, xoffChar := 0x13#8 }

end Config

end Sys2Proof
end

