-- ==== Sys2Proof/Syntax.lean ====
section
/-! DEFINITION. The syntax: one constructor per row of spec/opcode_table.json (30_encoding.md R105). A payload
length is not written beside its payload (30_encoding.md R113): it is the payload's length. -/

namespace Sys2Proof

/-- The six payload words of UART_CONFIGURE (30_encoding.md R108), still raw: reserved bits and codes are
validation errors, not decoding errors. -/
structure CfgWords where
  w0 : Word
  w1 : Word
  w2 : Word
  w3 : Word
  w4 : Word
  w5 : Word
  deriving DecidableEq, Repr

/-- The commands of the HOST and the event codes of the agents (30_encoding.md R105). `sel` is the SEL field:
the instance of an RB command, the port of a UART command or an event (R101). -/
inductive Instr where
  | rbInit            (sel : Nat) (cap : Nat)
  | rbDeinit          (sel : Nat)
  | rbClear           (sel : Nat)
  | rbAppend          (sel : Nat) (data : List Byte)
  | rbAppendOne       (sel : Nat) (b : Byte)
  | rbAt              (sel : Nat) (index : Nat)
  | rbGet             (sel : Nat) (max : Nat)
  | rbConsume         (sel : Nat) (len : Nat)
  | rbContigTailSpace (sel : Nat)
  | rbAdvanceTail     (sel : Nat) (data : List Byte)
  | uartConfigure     (sel : Nat) (c : CfgWords)
  | uartDeinit        (sel : Nat)
  | uartSetRxEnabled  (sel : Nat) (b : Bool)
  | uartWrite         (sel : Nat) (data : List Byte)
  | uartRead          (sel : Nat) (max : Nat)
  | uartFlush         (sel : Nat)
  | uartGetStats      (sel : Nat)
  | evIsr             (sel : Nat)
  | evDispatch        (sel : Nat)
  | evLineRx          (sel : Nat) (b : Byte)
  | evLineTxLoad      (sel : Nat)
  | evLineTxDone      (sel : Nat)
  | evCts             (sel : Nat) (level : Bool)
  | evRxTimeout       (sel : Nat)
  deriving DecidableEq, Repr

end Sys2Proof
end

