-- ==== Sys2Proof/WellFormed.lean ====
section
/-! DEFINITION. Which instructions have a command word: every operand fits the field that carries it
(30_encoding.md R100, R101, R103, R104). -/

namespace Sys2Proof

/-- SEL is a 6-bit unsigned number (30_encoding.md R101). -/
def selFits (sel : Nat) : Bool := decide (sel < 64)

/-- IMM is 16 bits, zero-extended to its operand (30_encoding.md R103). -/
def immFits (imm : Nat) : Bool := decide (imm < 65536)

/-- The operands fit their fields. The range of SEL against NRB and NPORTS, a capacity of 0 and the validity of a
configuration are not encodings' matter: they are faults and results (60_exceptions.md R263). -/
def Instr.wellFormed : Instr → Bool
  | .rbInit sel cap          => selFits sel && immFits cap
  | .rbDeinit sel            => selFits sel
  | .rbClear sel             => selFits sel
  | .rbAppend sel data       => selFits sel && immFits data.length
  | .rbAppendOne sel _       => selFits sel
  | .rbAt sel index          => selFits sel && immFits index
  | .rbGet sel max           => selFits sel && immFits max
  | .rbConsume sel len       => selFits sel && immFits len
  | .rbContigTailSpace sel   => selFits sel
  | .rbAdvanceTail sel data  => selFits sel && immFits data.length
  | .uartConfigure sel _     => selFits sel
  | .uartDeinit sel          => selFits sel
  | .uartSetRxEnabled sel _  => selFits sel
  | .uartWrite sel data      => selFits sel && immFits data.length
  | .uartRead sel max        => selFits sel && immFits max
  | .uartFlush sel           => selFits sel
  | .uartGetStats sel        => selFits sel
  | .evIsr sel               => selFits sel
  | .evDispatch sel          => selFits sel
  | .evLineRx sel _          => selFits sel
  | .evLineTxLoad sel        => selFits sel
  | .evLineTxDone sel        => selFits sel
  | .evCts sel _             => selFits sel
  | .evRxTimeout sel         => selFits sel

end Sys2Proof
end

