-- ==== Sys2Proof/Decode.lean ====
section
/-! DEFINITION. Decoding and encoding (30_encoding.md): the fields of a command word, the opcode map of R105 as a
table with the must-be-0 bits of R103 and the payloads of R104, the decoder (total, rejecting by name), and the
encoder written from the same table of fields. A 32-bit word is serialised little-endian (20_memory.md R74). -/

namespace Sys2Proof

/-! ## Fields of a word -/

/-- `w[hi:lo]` of 00_scope.md R9, as the number of its `len` bits from `lo` up. -/
def bitField (w : Word) (lo len : Nat) : Nat := (w.extractLsb' lo len).toNat

/-- OP, bits 31:26 (30_encoding.md R100). -/
def opField (w : Word) : Nat := bitField w 26 6

/-- SEL, bits 25:20 (30_encoding.md R100). -/
def selField (w : Word) : Nat := bitField w 20 6

/-- SUB, bits 19:16, reserved (30_encoding.md R100, R102). -/
def subField (w : Word) : Nat := bitField w 16 4

/-- IMM, bits 15:0 (30_encoding.md R100). -/
def immField (w : Word) : Nat := bitField w 0 16

/-- The word `OP << 26 | SEL << 20 | SUB << 16 | IMM` with SUB = 0 (30_encoding.md R100). -/
def commandWord (op sel imm : Nat) : Word :=
  BitVec.ofNat 6 op ++ BitVec.ofNat 6 sel ++ 0#4 ++ BitVec.ofNat 16 imm

/-! ## Words and bytes -/

/-- The four bytes of a word, byte 0 = bits 7:0 first (20_memory.md R74). -/
def wordBytes (w : Word) : List Byte :=
  [w.extractLsb' 0 8, w.extractLsb' 8 8, w.extractLsb' 16 8, w.extractLsb' 24 8]

/-- The word whose bytes, byte 0 first, are given (20_memory.md R74). -/
def wordOfBytes (b0 b1 b2 b3 : Byte) : Word := b3 ++ b2 ++ b1 ++ b0

/-- The configuration words as 24 payload bytes, W0 first. -/
def CfgWords.toBytes (c : CfgWords) : List Byte :=
  wordBytes c.w0 ++ wordBytes c.w1 ++ wordBytes c.w2 ++ wordBytes c.w3 ++ wordBytes c.w4 ++ wordBytes c.w5

/-- Word k of a payload of words; a byte the payload lacks cannot occur, since the length is checked first. -/
def payloadWord (payload : List Byte) (k : Nat) : Word :=
  wordOfBytes (payload.getD (4 * k) 0) (payload.getD (4 * k + 1) 0) (payload.getD (4 * k + 2) 0)
    (payload.getD (4 * k + 3) 0)

/-- The six words of a 24-byte configuration payload (30_encoding.md R108). -/
def CfgWords.ofBytes (payload : List Byte) : CfgWords :=
  { w0 := payloadWord payload 0, w1 := payloadWord payload 1, w2 := payloadWord payload 2,
    w3 := payloadWord payload 3, w4 := payloadWord payload 4, w5 := payloadWord payload 5 }

/-! ## The opcode table -/

/-- What follows a command word (30_encoding.md R104): nothing, IMM bytes, or six 32-bit words. -/
inductive PayloadRule where
  | none
  | immBytes
  | sixWords
  deriving DecidableEq, Repr

/-- The payload's length in bytes, known from OP and IMM alone (30_encoding.md R104). -/
def PayloadRule.length : PayloadRule → Nat → Nat
  | .none, _       => 0
  | .immBytes, imm => imm
  | .sixWords, _   => 24

/-- One row of the opcode map (30_encoding.md R105): its code, the table's mnemonic, the IMM bits that must be 0
(R103), its payload, and the instruction its SEL, IMM and payload stand for. -/
structure OpRow where
  op       : Nat
  mnemonic : String
  immZero  : Nat
  payload  : PayloadRule
  build    : Nat → Nat → List Byte → Instr

/-- The RB family, 0x01..0x0A (30_encoding.md R105). -/
def rbRows : List OpRow :=
  [ ⟨0x01, "RB_INIT", 0x0000, .none, fun sel imm _ => .rbInit sel imm⟩,
    ⟨0x02, "RB_DEINIT", 0xFFFF, .none, fun sel _ _ => .rbDeinit sel⟩,
    ⟨0x03, "RB_CLEAR", 0xFFFF, .none, fun sel _ _ => .rbClear sel⟩,
    ⟨0x04, "RB_APPEND", 0x0000, .immBytes, fun sel _ data => .rbAppend sel data⟩,
    ⟨0x05, "RB_APPEND_ONE", 0xFF00, .none, fun sel imm _ => .rbAppendOne sel (BitVec.ofNat 8 imm)⟩,
    ⟨0x06, "RB_AT", 0x0000, .none, fun sel imm _ => .rbAt sel imm⟩,
    ⟨0x07, "RB_GET", 0x0000, .none, fun sel imm _ => .rbGet sel imm⟩,
    ⟨0x08, "RB_CONSUME", 0x0000, .none, fun sel imm _ => .rbConsume sel imm⟩,
    ⟨0x09, "RB_CONTIG_TAIL_SPACE", 0xFFFF, .none, fun sel _ _ => .rbContigTailSpace sel⟩,
    ⟨0x0A, "RB_ADVANCE_TAIL", 0x0000, .immBytes, fun sel _ data => .rbAdvanceTail sel data⟩ ]

/-- The port family, 0x10..0x16 (30_encoding.md R105). -/
def uartRows : List OpRow :=
  [ ⟨0x10, "UART_CONFIGURE", 0xFFFF, .sixWords, fun sel _ p => .uartConfigure sel (CfgWords.ofBytes p)⟩,
    ⟨0x11, "UART_DEINIT", 0xFFFF, .none, fun sel _ _ => .uartDeinit sel⟩,
    ⟨0x12, "UART_SET_RX_ENABLED", 0xFFFE, .none, fun sel imm _ => .uartSetRxEnabled sel (imm.testBit 0)⟩,
    ⟨0x13, "UART_WRITE", 0x0000, .immBytes, fun sel _ data => .uartWrite sel data⟩,
    ⟨0x14, "UART_READ", 0x0000, .none, fun sel imm _ => .uartRead sel imm⟩,
    ⟨0x15, "UART_FLUSH", 0xFFFF, .none, fun sel _ _ => .uartFlush sel⟩,
    ⟨0x16, "UART_GET_STATS", 0xFFFF, .none, fun sel _ _ => .uartGetStats sel⟩ ]

/-- The agent events, 0x20..0x26 (30_encoding.md R105, R107). -/
def eventRows : List OpRow :=
  [ ⟨0x20, "EV_ISR", 0xFFFF, .none, fun sel _ _ => .evIsr sel⟩,
    ⟨0x21, "EV_DISPATCH", 0xFFFF, .none, fun sel _ _ => .evDispatch sel⟩,
    ⟨0x22, "EV_LINE_RX", 0xFF00, .none, fun sel imm _ => .evLineRx sel (BitVec.ofNat 8 imm)⟩,
    ⟨0x23, "EV_LINE_TX_LOAD", 0xFFFF, .none, fun sel _ _ => .evLineTxLoad sel⟩,
    ⟨0x24, "EV_LINE_TX_DONE", 0xFFFF, .none, fun sel _ _ => .evLineTxDone sel⟩,
    ⟨0x25, "EV_CTS", 0xFFFE, .none, fun sel imm _ => .evCts sel (imm.testBit 0)⟩,
    ⟨0x26, "EV_RX_TIMEOUT", 0xFFFF, .none, fun sel _ _ => .evRxTimeout sel⟩ ]

/-- The opcode map of 30_encoding.md R105. -/
def opTable : List OpRow := rbRows ++ uartRows ++ eventRows

/-- The row of a word's OP field; none for an illegal OP (30_encoding.md R105). -/
def rowOf (w : Word) : Option OpRow := opTable.find? (fun r => r.op == opField w)

/-! ## The decoder -/

/-- Why a command is rejected before it runs. -/
inductive Reject where
  /-- Fewer than the four bytes of a command word (a frame of bytes only; a HOST command always has its word). -/
  | noCommandWord
  /-- An illegal OP, SUB ≠ 0, a must-be-0 IMM bit set, or an event code from the HOST (30_encoding.md R106, R107). -/
  | illegalCommand
  /-- The payload's length is not the one R104 requires. -/
  | payloadLength
  deriving DecidableEq, Repr

/-- Decoding a word and its payload (30_encoding.md R112): look OP up, check SUB and the must-be-0 IMM bits, then
the payload's length. -/
def decodeFrame (w : Word) (payload : List Byte) : Except Reject Instr :=
  match rowOf w with
  | none => .error .illegalCommand
  | some r =>
    if subField w ≠ 0 ∨ immField w &&& r.immZero ≠ 0 then .error .illegalCommand
    else if payload.length ≠ r.payload.length (immField w) then .error .payloadLength
    else .ok (r.build (selField w) (immField w) payload)

/-- The first event code (30_encoding.md R105). -/
def firstEventOp : Nat := 0x20

/-- Whether a word's OP names a step of an agent other than the HOST (30_encoding.md R107, R112). -/
def isEventWord (w : Word) : Bool := decide (firstEventOp ≤ opField w)

/-- Decoding what the HOST issues: an event code is illegal there (30_encoding.md R107), before any other check. -/
def decodeHost (w : Word) (payload : List Byte) : Except Reject Instr :=
  if isEventWord w then .error .illegalCommand else decodeFrame w payload

/-- Decoding a trace entry of another agent: an event code, with no payload; none for a word that decoding rejects or
whose OP is no event's. -/
def decodeEvent (w : Word) : Option Instr :=
  if isEventWord w then (decodeFrame w []).toOption else none

/-- The decoder on bytes: a command word, then its payload (30_encoding.md R104, 20_memory.md R74). -/
def decode : List Byte → Except Reject Instr
  | b0 :: b1 :: b2 :: b3 :: payload => decodeFrame (wordOfBytes b0 b1 b2 b3) payload
  | _ => .error .noCommandWord

/-! ## The encoder -/

/-- The command word of an instruction (30_encoding.md R100, R103, R105). -/
def encodeWord : Instr → Word
  | .rbInit sel cap          => commandWord 0x01 sel cap
  | .rbDeinit sel            => commandWord 0x02 sel 0
  | .rbClear sel             => commandWord 0x03 sel 0
  | .rbAppend sel data       => commandWord 0x04 sel data.length
  | .rbAppendOne sel b       => commandWord 0x05 sel b.toNat
  | .rbAt sel index          => commandWord 0x06 sel index
  | .rbGet sel max           => commandWord 0x07 sel max
  | .rbConsume sel len       => commandWord 0x08 sel len
  | .rbContigTailSpace sel   => commandWord 0x09 sel 0
  | .rbAdvanceTail sel data  => commandWord 0x0A sel data.length
  | .uartConfigure sel _     => commandWord 0x10 sel 0
  | .uartDeinit sel          => commandWord 0x11 sel 0
  | .uartSetRxEnabled sel b  => commandWord 0x12 sel b.toNat
  | .uartWrite sel data      => commandWord 0x13 sel data.length
  | .uartRead sel max        => commandWord 0x14 sel max
  | .uartFlush sel           => commandWord 0x15 sel 0
  | .uartGetStats sel        => commandWord 0x16 sel 0
  | .evIsr sel               => commandWord 0x20 sel 0
  | .evDispatch sel          => commandWord 0x21 sel 0
  | .evLineRx sel b          => commandWord 0x22 sel b.toNat
  | .evLineTxLoad sel        => commandWord 0x23 sel 0
  | .evLineTxDone sel        => commandWord 0x24 sel 0
  | .evCts sel level         => commandWord 0x25 sel level.toNat
  | .evRxTimeout sel         => commandWord 0x26 sel 0

/-- The payload of an instruction (30_encoding.md R104, R108). -/
def encodePayload : Instr → List Byte
  | .rbAppend _ data         => data
  | .rbAdvanceTail _ data    => data
  | .uartWrite _ data        => data
  | .uartConfigure _ c       => c.toBytes
  | .rbInit _ _              => []
  | .rbDeinit _              => []
  | .rbClear _               => []
  | .rbAppendOne _ _         => []
  | .rbAt _ _                => []
  | .rbGet _ _               => []
  | .rbConsume _ _           => []
  | .rbContigTailSpace _     => []
  | .uartDeinit _            => []
  | .uartSetRxEnabled _ _    => []
  | .uartRead _ _            => []
  | .uartFlush _             => []
  | .uartGetStats _          => []
  | .evIsr _                 => []
  | .evDispatch _            => []
  | .evLineRx _ _            => []
  | .evLineTxLoad _          => []
  | .evLineTxDone _          => []
  | .evCts _ _               => []
  | .evRxTimeout _           => []

/-- The bytes of an instruction: its command word, then its payload. -/
def encode (i : Instr) : List Byte := wordBytes (encodeWord i) ++ encodePayload i

/-! ## Instructions given as one number (the opcode table's bit numbering) -/

/-- The command word of an instruction whose first `nbits` bits are `w`. -/
def tableWord (nbits w : Nat) : Word := BitVec.ofNat 32 (w % 2 ^ nbits)

/-- The payload of an instruction whose first `nbits` bits are `w`, every higher bit 0: as many bytes as the
command word requires. -/
def tablePayload (nbits w : Nat) : List Byte :=
  let word := tableWord nbits w
  let n := match rowOf word with
    | some r => r.payload.length (immField word)
    | none   => 0
  (List.range n).map fun k => BitVec.ofNat 8 ((w % 2 ^ nbits) >>> (32 + 8 * k))

/-- The instruction the decoder reads from an instruction whose bits are `w`. -/
def decodeTableWord (nbits w : Nat) : Option Instr :=
  (decode (wordBytes (tableWord nbits w) ++ tablePayload nbits w)).toOption

end Sys2Proof
end

