-- ==== Sys2Proof/Machine/State.lean ====
section
/-! DEFINITION. The state of the block (10_state.md R20), as plain data, and the state after reset
(70_reset_and_hazards.md R300). Registers a rule computes (INT_RAW, INT_CLR, RTS_OUT) are not stored: Flags.lean. -/

namespace Sys2Proof.Machine

/-- A ring buffer's backing store: (index, byte) pairs, indices strictly rising, no entry equal to what an
unlisted index reads as, which is 00 (41_ringbuffer.md R131, log 11). -/
abbrev Memory := List Host.Cell

/-- The registers of one ring-buffer instance (10_state.md R21). -/
structure RingBuffer where
  alloc    : Bool
  cap      : Nat
  store    : Memory
  used     : Nat
  avail    : Nat
  inFlight : Nat
  head     : Nat
  tail     : Nat
  resv     : Option Nat
  deriving DecidableEq, Repr

/-- An unallocated instance (10_state.md R21): alloc 0 and no reservation; the other registers hold no value a rule
may read, and the model holds zeros there (DESIGN CHOICE, logs 5 and 6). -/
def RingBuffer.unallocated : RingBuffer :=
  { alloc := false, cap := 0, store := [], used := 0, avail := 0, inFlight := 0, head := 0, tail := 0, resv := none }

/-- The lifecycle phase of a port (10_state.md R23). -/
inductive Phase where
  | uninit
  | configured
  | running
  deriving DecidableEq, Repr

/-- The dispatcher's phase (10_state.md R28): "stands where a program counter would". -/
inductive DPhase where
  | idle
  | rxTop
  | linger
  | rxFc
  | txTop
  | txConsume (n : Nat)
  | bottom
  deriving DecidableEq, Repr

/-- The eight statistics counters, 32-bit and wrapping (10_state.md R29). -/
structure Stats where
  ints          : Word
  rxInts        : Word
  rxBytes       : Word
  rxOverflows   : Word
  rxLingerConts : Word
  txInts        : Word
  txBytes       : Word
  txThrottles   : Word
  deriving DecidableEq, Repr

/-- All eight counters 0 (70_reset_and_hazards.md R300, 42_uart_host.md R173). -/
def Stats.zero : Stats :=
  { ints := 0, rxInts := 0, rxBytes := 0, rxOverflows := 0, rxLingerConts := 0, txInts := 0, txBytes := 0,
    txThrottles := 0 }

/-- The frame-format register (10_state.md R42). -/
structure Frame where
  numDataBits : Nat
  parity      : Parity
  stopBits    : StopBits
  deriving DecidableEq, Repr

/-- The stored registers of a port's UART (10_state.md R31 to R42). `intEna` holds INT_ENA's bits 3:0; bits 31:4
are hardwired 0 (R35, log 21). -/
structure Device where
  rxf       : List Byte
  txf       : List Byte
  txsh      : Option Byte
  intEna    : BitVec 4
  ovfLatch  : Bool
  ctsLatch  : Bool
  toutLatch : Bool
  rxCorrupt : Bool
  ctsIn     : Bool
  baudDiv   : Nat
  frame     : Frame
  deriving DecidableEq, Repr

/-- Everything of one port: its driver record `port[p]` (10_state.md R23 to R29), its entry `port_table[p]`
(`registered`, R30), its device `dev[p]` (R31 to R42) and the observation `wire_out[p]` (R50). -/
structure Port where
  phase           : Phase
  cfg             : PortCfg
  rxEnabled       : Bool
  xoffSent        : Bool
  dispatchPending : Bool
  dphase          : DPhase
  stats           : Stats
  rx              : RingBuffer
  tx              : RingBuffer
  registered      : Bool
  dev             : Device
  wireOut         : List Byte
  deriving DecidableEq, Repr

/-- The HOST's command state (10_state.md R46): WRITE holds the bytes not yet appended and the length to return. -/
inductive HostState where
  | idle
  | write (p : Nat) (rem : List Byte) (total : Nat)
  | flush (p : Nat)
  deriving DecidableEq, Repr

/-- The FAULT register (10_state.md R43). -/
structure FaultReg where
  valid : Bool
  code  : BitVec 8
  word  : Word
  deriving DecidableEq, Repr

/-- The REFUSED register (10_state.md R44). -/
structure RefusedReg where
  valid  : Bool
  reason : BitVec 8
  deriving DecidableEq, Repr

/-- Status of a result record (30_encoding.md R111). -/
inductive Status where
  | ok
  | errValidation
  | errAlloc
  deriving DecidableEq, Repr

/-- The `data` of a result record: bytes, or words (30_encoding.md R110). -/
inductive ResultData where
  | bytes (bs : List Byte)
  | words (ws : List Word)
  deriving DecidableEq, Repr

/-- The result record of a command that returns (30_encoding.md R110). -/
structure Result where
  status : Status
  detail : BitVec 8
  v0     : Word
  v1     : Word
  data   : ResultData
  deriving DecidableEq, Repr

/-- A command the HOST has still to issue: its word and its payload (30_encoding.md R100, R104). -/
structure Command where
  word    : Word
  payload : List Byte
  deriving DecidableEq, Repr

/-- One turn of the interleaving (00_scope.md R12, log 1): the HOST's next step (issue the next command, or go on
with the one in progress), or a step of another agent, named by its event word (30_encoding.md R107). -/
inductive Turn where
  | host
  | agent (word : Word)
  deriving DecidableEq, Repr

/-- The draws (00_scope.md R11): those a trace states beside its words (30_encoding.md R107), and, when none is
left, the free value at `count` (the MODEL's field, log 3). -/
structure Draws where
  stated : List Nat
  count  : Nat
  deriving DecidableEq, Repr

/-- The state of the block (10_state.md R20) and the model's own fields: the parameters, the draws, the results the
HOST received, the commands it has still to issue, and the turns of the agents (logs 1, 2, 3, 9). -/
structure State where
  params  : Params
  srb     : List RingBuffer
  ports   : List Port
  host    : HostState
  fault   : FaultReg
  refused : RefusedReg
  draws   : Draws
  results : List Result
  hostq   : List Command
  turns   : List Turn
  deriving DecidableEq, Repr

/-- Why the model stops: the block itself has stopped. -/
inductive Fault where
  /-- No agent has a step, because FAULT.valid = 1 (60_exceptions.md R261). Raised by every step and every meaning
  in such a state. Safe: the spec gives the stopped block no step. -/
  | stoppedByFault
  /-- No agent has a step, because REFUSED.valid = 1 (60_exceptions.md R262). Raised by every step and every meaning
  in such a state. Safe: the spec gives the stopped block no step. -/
  | stoppedByRefusal
  deriving DecidableEq, Repr

/-- What has no meaning in the model. -/
inductive Refusal where
  /-- An instruction without a meaning, rejected by its mnemonic. No arm of exec raises it. Safe. -/
  | notModelled (mnemonic : String)
  /-- The turn of an agent other than the HOST holds a word whose OP is below 0x20, which names no agent's step
  (30_encoding.md R107). Raised by step only, of a list of turns that is no trace (log 19). Safe. -/
  | notAnAgentEvent (word : Word)
  deriving DecidableEq, Repr

/-- A configuration record that holds no value a rule may read (10_state.md R24): zeros and codes 0
(DESIGN CHOICE, logs 5 and 6). -/
def noCfg : PortCfg :=
  { baudRate := 0, numDataBits := 0, parity := .none, stopBits := .one, rxBufSize := 0, txBufSize := 0,
    rxFlowControl := .none, txFlowControl := .none, rxLingerMicros := 0, rxFifoFullThresh := 0,
    rxFifoFcThresh := 0, rxFifoAlarm := 0, txFifoEmptyThresh := 0 }

/-- A port's device at reset (70_reset_and_hazards.md R300); BAUD_DIV and FRAME hold no value there, and the model
holds zeros (DESIGN CHOICE, log 5). -/
def Device.reset (cts : Bool) : Device :=
  { rxf := [], txf := [], txsh := none, intEna := 0, ovfLatch := false, ctsLatch := false, toutLatch := false,
    rxCorrupt := false, ctsIn := cts, baudDiv := 0,
    frame := { numDataBits := 0, parity := .none, stopBits := .one } }

/-- A port at reset (70_reset_and_hazards.md R300). -/
def Port.reset (cts : Bool) : Port :=
  { phase := .uninit, cfg := noCfg, rxEnabled := false, xoffSent := false, dispatchPending := false,
    dphase := .idle, stats := Stats.zero, rx := RingBuffer.unallocated, tx := RingBuffer.unallocated,
    registered := false, dev := Device.reset cts, wireOut := [] }

/-- The reset state (70_reset_and_hazards.md R300) of a block with the given parameters (00_scope.md R7: arguments
of the model) and the given draws of CTS_IN. -/
def State.resetWith (P : Params) (nports nrb : Nat) (cts : Nat → Bool) : State :=
  { params := P, srb := List.replicate nrb RingBuffer.unallocated,
    ports := (List.range nports).map fun p => Port.reset (cts p), host := .idle,
    fault := { valid := false, code := 0, word := 0 }, refused := { valid := false, reason := 0 },
    draws := { stated := [], count := 0 }, results := [], hostq := [], turns := [] }

/-- The machine right after reset (70_reset_and_hazards.md R300): CTS_IN is the free value Config.ctsAtReset; the
parameters are those of 95_test_vectors.md section 0 (DESIGN CHOICE, log 2). -/
def State.reset : State :=
  State.resetWith Config.resetParams Config.resetPorts Config.resetInstances Config.ctsAtReset

end Sys2Proof.Machine
end

