-- ==== Sys2Proof/Machine/Ops.lean ====
section
/-! DEFINITION. The named operations over memory, draws, registers and queues, the record of a result, and the two
abnormal events of the block, each as one shared operation: `raise` (60_exceptions.md R261) and `refuse` (R262). -/

namespace Sys2Proof.Machine

/-! ## The backing store (20_memory.md R71, 00_scope.md R10) -/

/-- The byte at an index of a store: an unlisted index reads 00 (41_ringbuffer.md R131). -/
def Memory.read : Memory → Nat → Byte
  | [], _ => 0
  | (b, v) :: m, a => if a = b then v else Memory.read m a

/-- A cell in front of a store, left out when it holds what an unlisted index reads as. -/
def Memory.cell (a : Nat) (v : Byte) (m : Memory) : Memory := if v = 0 then m else (a, v) :: m

/-- Writing one byte, keeping the canonical form. -/
def Memory.write : Memory → Nat → Byte → Memory
  | [], a, v => Memory.cell a v []
  | (b, u) :: m, a, v =>
    if a < b then Memory.cell a v ((b, u) :: m)
    else if a = b then Memory.cell a v m
    else (b, u) :: Memory.write m a v

/-- The canonical form: indices strictly rising, no entry equal to 00. -/
def Memory.wf : Memory → Bool
  | [] => true
  | [(_, v)] => v != 0
  | (a, v) :: (b, u) :: m => v != 0 && decide (a < b) && Memory.wf ((b, u) :: m)

/-- The loop `for k in 0..len-1: MemWrite(rb, (at + k) mod cap, 1, data[k])` (41_ringbuffer.md R134, R140;
20_memory.md R71: every index is reduced modulo cap). -/
def Memory.writeRun (cap : Nat) : Memory → Nat → List Byte → Memory
  | m, _, [] => m
  | m, at_, b :: bs => Memory.writeRun cap (Memory.write m (at_ % cap) b) (at_ + 1) bs

/-- `MemRead(rb, at, n)`: the n bytes at indices (at + k) mod cap (00_scope.md R10). -/
def Memory.readRun (cap : Nat) (m : Memory) (at_ n : Nat) : List Byte :=
  (List.range n).map fun k => Memory.read m ((at_ + k) % cap)

/-! ## Draws (00_scope.md R11) -/

/-- The value of the next draw: the one the trace states, else the free value (log 3). -/
def Draws.peek (d : Draws) : Nat :=
  match d.stated with
  | v :: _ => v
  | [] => Config.freeDraw d.count

/-- The draws after one is taken. -/
def Draws.pop (d : Draws) : Draws := { stated := d.stated.tail, count := d.count + 1 }

/-- `draw Bool`. -/
def Draws.bool (d : Draws) : Bool := d.peek.testBit 0

/-- `draw Byte`. -/
def Draws.byte (d : Draws) : Byte := BitVec.ofNat 8 d.peek

/-- A draw in 0..n (10_state.md R45: 0..RX_FIFO_CAP). -/
def Draws.upTo (d : Draws) (n : Nat) : Nat := d.peek % (n + 1)

/-! ## Register access -/

/-- The state with port p's record replaced. -/
def State.setPort (s : State) (p : Nat) (x : Port) : State := { s with ports := s.ports.set p x }

/-- The state with instance i's registers replaced. -/
def State.setRb (s : State) (i : Nat) (rb : RingBuffer) : State := { s with srb := s.srb.set i rb }

/-- The counter write `c <- c + n (mod 2^32)` (10_state.md R29). -/
def counterAdd (c : Word) (n : Nat) : Word := c + BitVec.ofNat 32 n

/-- The counters in the order of 10_state.md R29, as GET_STATS returns them. -/
def Stats.toList (t : Stats) : List Word :=
  [t.ints, t.rxInts, t.rxBytes, t.rxOverflows, t.rxLingerConts, t.txInts, t.txBytes, t.txThrottles]

/-! ## Result records (30_encoding.md R110, R111) -/

/-- The status code (30_encoding.md R111). -/
def Status.code : Status → BitVec 8
  | .ok => 0
  | .errValidation => 1
  | .errAlloc => 2

/-- `{status = OK}`, every field no rule names 0 or empty (30_encoding.md R110). -/
def Result.ok : Result := { status := .ok, detail := 0, v0 := 0, v1 := 0, data := .bytes [] }

/-- `return r`: the HOST receives the record (00_scope.md R11, log 9). -/
def State.ret (s : State) (r : Result) : State := { s with results := s.results ++ [r] }

/-! ## Faults and refusals (60_exceptions.md R260 to R262) -/

/-- The fault codes by name (60_exceptions.md R260). -/
inductive FaultCode where
  | illegalCommand
  | payloadLength
  | badInstance
  | badPort
  | notConfigured
  | rbNotAllocated
  | rbAlreadyAllocated
  | rbBadCapacity
  | rbOverrun
  | rbUnderrun
  | rbNotInFlight
  | rbIndex
  | rbNoReservation
  deriving DecidableEq, Repr

/-- The code recorded in FAULT.code (60_exceptions.md R260). -/
def FaultCode.code : FaultCode → BitVec 8
  | .illegalCommand => 0x01
  | .payloadLength => 0x02
  | .badInstance => 0x03
  | .badPort => 0x04
  | .notConfigured => 0x05
  | .rbNotAllocated => 0x06
  | .rbAlreadyAllocated => 0x07
  | .rbBadCapacity => 0x08
  | .rbOverrun => 0x09
  | .rbUnderrun => 0x0A
  | .rbNotInFlight => 0x0B
  | .rbIndex => 0x0C
  | .rbNoReservation => 0x0D

/-- REF_TX_SW_FC (60_exceptions.md R262). -/
def refTxSwFc : BitVec 8 := 0x80

/-- `raise Fault(code)`: no state changes but FAULT, which records the code and the word of the step that faulted
(60_exceptions.md R261, 10_state.md R43). -/
def State.raise (s : State) (c : FaultCode) (w : Word) : State :=
  { s with fault := { valid := true, code := c.code, word := w } }

/-- `refuse(reason)`: no state changes but REFUSED (60_exceptions.md R262). -/
def State.refuse (s : State) (reason : BitVec 8) : State :=
  { s with refused := { valid := true, reason := reason } }

/-- Every step of every agent runs only while FAULT.valid = 0 and REFUSED.valid = 0 (60_exceptions.md R261, R262);
`t` is the state the step gives. Nothing returns from a fault or a refusal: only reset clears the two registers
(70_reset_and_hazards.md R301), and the ISR saves nothing and has nothing to restore (60_exceptions.md R273, R274). -/
def unlessStopped (s : State) (t : State) : Host.Outcome State Fault Refusal :=
  if s.fault.valid then .fault .stoppedByFault
  else if s.refused.valid then .fault .stoppedByRefusal
  else .next t

/-! ## FIFO primitives of the capability interface (10_state.md R45) -/

/-- `rx_fifo_len(p)`: a draw in 0..RX_FIFO_CAP while the FIFO is corrupt. -/
def rxFifoLen (P : Params) (d : Draws) (v : Device) : Nat × Draws :=
  if v.rxCorrupt then (d.upTo P.rxFifoCap, d.pop) else (v.rxf.length, d)

/-- `tx_fifo_len(p)`. -/
def txFifoLen (v : Device) : Nat := v.txf.length

/-- `read_byte(p)`: pops the FIFO; while it is corrupt the byte is a draw. The call on an empty sound FIFO, which no
caller makes (10_state.md R45), gives a draw too (log 17). -/
def readByte (d : Draws) (v : Device) : Byte × Draws × Device :=
  match v.rxCorrupt, v.rxf with
  | false, b :: q => (b, d, { v with rxf := q })
  | _, q => (d.byte, d.pop, { v with rxf := q.tail })

/-- `write_byte(p, b)`; every caller checks that the TX FIFO has space. -/
def writeByte (v : Device) (b : Byte) : Device := { v with txf := v.txf ++ [b] }

/-- write_byte of each byte in turn (43_dispatch.md R205). -/
def writeBytes : Device → List Byte → Device
  | v, [] => v
  | v, b :: bs => writeBytes (writeByte v b) bs

/-- `set_baud_divisor(p, d)`. -/
def setBaudDivisor (v : Device) (d : Nat) : Device := { v with baudDiv := d }

/-- `reset_rx_fifo(p)`. -/
def resetRxFifo (v : Device) : Device := { v with rxf := [], rxCorrupt := false, toutLatch := false }

/-- What configure and deinit both do to the device (42_uart_host.md R173, R174, R177): both FIFOs and the shifter
empty, the latches and the corrupt mark cleared. -/
def emptyDevice (v : Device) : Device :=
  { v with rxf := [], txf := [], txsh := none, ovfLatch := false, ctsLatch := false, toutLatch := false,
           rxCorrupt := false }

end Sys2Proof.Machine
end

