-- ==== Sys2Proof/Machine/Flags.lean ====
section
/-! DEFINITION. Every flag and interrupt register the spec computes (10_state.md R34 to R42), the flow-control
outputs (44_line_flow.md R236), and when each agent is enabled (43_dispatch.md R200, 44_line_flow.md R230 to R235,
60_exceptions.md R269). -/

namespace Sys2Proof.Machine

/-! ## Bits of a word -/

/-- The word with bit i written. -/
def setBit (w : Word) (i : Nat) (b : Bool) : Word :=
  if b then w ||| (1#32 <<< i) else w &&& ~~~(1#32 <<< i)

/-- The 32-bit word whose bits 3:0 are given, bit 0 first; bits 31:4 are 0. -/
def wordOfBits (b0 b1 b2 b3 : Bool) : Word :=
  (BitVec.ofBool b3 ++ BitVec.ofBool b2 ++ BitVec.ofBool b1 ++ BitVec.ofBool b0).setWidth 32

/-- Bit numbers of the interrupt causes (10_state.md R34). -/
def rxData : Nat := 0
/-- TX_SPACE (10_state.md R34). -/
def txSpace : Nat := 1
/-- RX_OVF (10_state.md R34). -/
def rxOvf : Nat := 2
/-- CTS_CHG (10_state.md R34). -/
def ctsChg : Nat := 3

/-! ## INT_RAW, INT_ENA, INT_CLR -/

/-- The level RX_DATA, or the latched timeout (10_state.md R34). -/
def rxDataRaw (p : Port) : Bool :=
  (decide (p.dev.rxf.length > 0) && decide (p.dev.rxf.length ≥ p.cfg.rxFifoFullThresh)) || p.dev.toutLatch

/-- The level TX_SPACE (10_state.md R34). -/
def txSpaceRaw (p : Port) : Bool := decide (p.dev.txf.length ≤ p.cfg.txFifoEmptyThresh)

/-- `raw_interrupt_status(p)`: INT_RAW, computed at the moment it is read; 0 while the port is UNINIT
(10_state.md R34, R45). -/
def intRaw (p : Port) : Word :=
  if p.phase = .uninit then 0
  else wordOfBits (rxDataRaw p) (txSpaceRaw p) p.dev.ovfLatch p.dev.ctsLatch

/-- INT_ENA as it reads: bits 31:4 hardwired 0 (10_state.md R35). -/
def readIntEna (v : Device) : Word := v.intEna.setWidth 32

/-- `set_interrupt_enable(p, w)`: INT_ENA <- w[3:0] (10_state.md R35, R45). -/
def setInterruptEnable (v : Device) (w : Word) : Device := { v with intEna := w.extractLsb' 0 4 }

/-- INT_CLR is write-only: it reads 0 (10_state.md R36). -/
def readIntClr (_ : Device) : Word := 0

/-- `clear_interrupt(p, w)`: bits 0, 2, 3 of w clear tout_latch, ovf_latch, cts_latch; the other bits have no
effect (10_state.md R36). -/
def clearInterrupt (v : Device) (w : Word) : Device :=
  { v with toutLatch := v.toutLatch && !(w.getLsbD rxData), ovfLatch := v.ovfLatch && !(w.getLsbD rxOvf),
           ctsLatch := v.ctsLatch && !(w.getLsbD ctsChg) }

/-- The masked status the ISR reads: INT_RAW & INT_ENA (60_exceptions.md R267, R270). -/
def maskedStatus (p : Port) : Word := intRaw p &&& readIntEna p.dev

/-! ## Frame and flow control -/

/-- DMASK = 2^num_data_bits − 1 (10_state.md R42; read from FRAME, log 22). -/
def dmask (f : Frame) : Byte := BitVec.ofNat 8 (2 ^ f.numDataBits - 1)

/-- Transmission-complete: |TXF| = 0 and TXSH = empty (10_state.md R33, 44_line_flow.md R241). -/
def transmissionComplete (v : Device) : Bool := v.txf.isEmpty && v.txsh.isNone

/-- rts_hold (44_line_flow.md R236). -/
def rtsHold (P : Params) (p : Port) : Bool :=
  decide (p.phase ≠ .uninit) && decide (p.cfg.rxFlowControl = .hardware) &&
    (!p.rxEnabled || (P.hwFcThresh && decide (p.dev.rxf.length ≥ p.cfg.rxFifoFcThresh)))

/-- RTS_OUT, combinational; 1 = the far end is told not to send (10_state.md R40). -/
def rtsOut (P : Params) (p : Port) : Bool := rtsHold P p

/-- CTS blocks the shifter: hardware TX flow control and CTS_IN = 1 (44_line_flow.md R232, R238). -/
def ctsBlocks (p : Port) : Bool := decide (p.cfg.txFlowControl = .hardware) && p.dev.ctsIn

/-- XON_LOW of a configuration (00_scope.md R7): the default rx_fifo_fc_thresh, or a function of the
implementation's own, never above it (log 13). -/
def xonLow (P : Params) (c : PortCfg) : Nat :=
  match P.xonLow with
  | .atFcThresh => c.rxFifoFcThresh
  | .ownFunction => min (Config.xonLowFn c) c.rxFifoFcThresh

/-- The RX_DATA enable BOTTOM computes: RX enabled and the RX ring buffer has space (43_dispatch.md R207). -/
def canReceive (p : Port) : Bool := p.rxEnabled && decide (p.rx.avail > 0)

/-- The TX_SPACE enable BOTTOM computes: the TX ring buffer is non-empty (43_dispatch.md R207). -/
def txPending (p : Port) : Bool := decide (p.tx.used > 0)

/-! ## When an agent is enabled, the block running -/

/-- DISPATCH(p) (43_dispatch.md R200). -/
def dispatchEnabled (p : Port) : Bool := decide (p.phase ≠ .uninit)

/-- ISR(p) (60_exceptions.md R269); it finds its port through port_table (R273; log 18). -/
def isrEnabled (p : Port) : Bool :=
  decide (p.phase ≠ .uninit) && p.registered && decide (maskedStatus p ≠ 0)

/-- EV_LINE_RX and EV_CTS need only a port that is not UNINIT (44_line_flow.md R230, R231, R234). -/
def lineEnabled (p : Port) : Bool := decide (p.phase ≠ .uninit)

/-- EV_LINE_TX_LOAD (44_line_flow.md R232). -/
def txLoadEnabled (p : Port) : Bool :=
  lineEnabled p && !p.dev.txf.isEmpty && p.dev.txsh.isNone && !ctsBlocks p

/-- EV_LINE_TX_DONE (44_line_flow.md R233). -/
def txDoneEnabled (p : Port) : Bool := lineEnabled p && p.dev.txsh.isSome

/-- EV_RX_TIMEOUT (44_line_flow.md R235). -/
def rxTimeoutEnabled (p : Port) : Bool := lineEnabled p && !p.dev.rxf.isEmpty

/-- The hold of configure and deinit: the port is configured and its dispatcher is mid-run (42_uart_host.md R172,
R177). -/
def holdsForDispatcher (p : Port) : Bool := decide (p.phase ≠ .uninit) && decide (p.dphase ≠ .idle)

end Sys2Proof.Machine
end

