-- ==== Sys2Proof/Machine/Operands.lean ====
section
/-! DEFINITION. The operands: the selectors and the state checks every command runs first (41_ringbuffer.md R130,
42_uart_host.md R170, in the order of 60_exceptions.md R263), the agents' selection of their port, and the
configuration payload with its validation (30_encoding.md R108, R109, 42_uart_host.md R171). -/

namespace Sys2Proof.Machine

/-! ## Prologues -/

/-- The issue step of a HOST command: the block runs, and `host = IDLE` (10_state.md R46); while another command
occupies the HOST the command waits. `t` is the state the command's own step gives. -/
def issue (s : State) (t : State) : Host.Outcome State Fault Refusal :=
  unlessStopped s (if s.host = .idle then t else s)

/-- The selector of an RB command: SEL ≥ NRB faults F_BAD_INSTANCE (41_ringbuffer.md R130). -/
def onInstance (w : Word) (sel : Nat) (s : State) (k : RingBuffer → State) : State :=
  match s.srb[sel]? with
  | none => s.raise .badInstance w
  | some rb => k rb

/-- The prologue of every RB command but RB_INIT: the instance is allocated (41_ringbuffer.md R130). -/
def onAllocated (w : Word) (sel : Nat) (s : State) (k : RingBuffer → State) : State :=
  onInstance w sel s fun rb => if rb.alloc then k rb else s.raise .rbNotAllocated w

/-- The selector of a port command: SEL ≥ NPORTS faults F_BAD_PORT (42_uart_host.md R170, 30_encoding.md R101). -/
def onPort (w : Word) (sel : Nat) (s : State) (k : Port → State) : State :=
  match s.ports[sel]? with
  | none => s.raise .badPort w
  | some p => k p

/-- The prologue of every UART command but UART_CONFIGURE: the port is configured (42_uart_host.md R170). -/
def onConfigured (w : Word) (sel : Nat) (s : State) (k : Port → State) : State :=
  onPort w sel s fun p => if p.phase = .uninit then s.raise .notConfigured w else k p

/-- A step of an agent of port `sel`: when it is not enabled the agent does not step and nothing changes
(00_scope.md R11, 60_exceptions.md R282); a SEL that names no port faults F_BAD_PORT (30_encoding.md R101, log 8). -/
def agentStep (w : Word) (sel : Nat) (s : State) (enabled : Port → Bool) (k : Port → State) :
    Host.Outcome State Fault Refusal :=
  unlessStopped s (onPort w sel s fun p => if enabled p then k p else s)

/-! ## The configuration payload -/

/-- The parity of a code; none for the reserved code 3 (30_encoding.md R109). -/
def Parity.ofCode : Nat → Option Parity
  | 0 => some .none
  | 1 => some .even
  | 2 => some .odd
  | _ => none

/-- The stop bits of a code; none for the reserved code 3 (30_encoding.md R109). -/
def StopBits.ofCode : Nat → Option StopBits
  | 0 => some .one
  | 1 => some .oneHalf
  | 2 => some .two
  | _ => none

/-- The flow control of a code; none for the reserved code 3 (30_encoding.md R109). -/
def FlowControl.ofCode : Nat → Option FlowControl
  | 0 => some .none
  | 1 => some .hardware
  | 2 => some .software
  | _ => none

/-- Check 1 of 42_uart_host.md R171: a reserved bit is set. -/
def reservedBitSet (c : CfgWords) : Bool := decide (bitField c.w1 12 20 ≠ 0) || decide (bitField c.w3 16 16 ≠ 0)

/-- The record whose enumeration codes are decoded, its numbers taken from the payload words (30_encoding.md R108). -/
def cfgOfWords (c : CfgWords) (parity : Parity) (stop : StopBits) (rxfc txfc : FlowControl) : PortCfg :=
  { baudRate := bitField c.w0 0 32, numDataBits := bitField c.w1 0 4, parity := parity, stopBits := stop,
    rxBufSize := bitField c.w2 0 16, txBufSize := bitField c.w2 16 16, rxFlowControl := rxfc,
    txFlowControl := txfc, rxLingerMicros := bitField c.w3 0 16, rxFifoFullThresh := bitField c.w4 0 16,
    rxFifoFcThresh := bitField c.w4 16 16, rxFifoAlarm := bitField c.w5 0 16,
    txFifoEmptyThresh := bitField c.w5 16 16 }

/-- Checks 7 to 9 of 42_uart_host.md R171, on the decoded record. -/
def validateSizes (c : PortCfg) : Except Nat PortCfg :=
  if c.rxBufSize = 0 ∨ c.txBufSize = 0 then .error 7
  else if c.rxFlowControl ≠ .none ∧ c.rxFifoFcThresh < c.rxFifoFullThresh then .error 8
  else if c.rxLingerMicros > Config.lingerMax then .error 9
  else .ok c

/-- Validate (42_uart_host.md R171): the decoded configuration, or the detail code of the first failing check. -/
def validate (P : Params) (c : CfgWords) : Except Nat PortCfg :=
  if reservedBitSet c then .error 1
  else if bitField c.w0 0 32 < P.baudMin ∨ bitField c.w0 0 32 > P.baudMax then .error 2
  else if bitField c.w1 0 4 < 5 ∨ bitField c.w1 0 4 > 8 then .error 3
  else match Parity.ofCode (bitField c.w1 4 2) with
    | none => .error 4
    | some parity =>
      match StopBits.ofCode (bitField c.w1 6 2) with
      | none => .error 5
      | some stop =>
        match FlowControl.ofCode (bitField c.w1 8 2), FlowControl.ofCode (bitField c.w1 10 2) with
        | some rxfc, some txfc => validateSizes (cfgOfWords c parity stop rxfc txfc)
        | _, _ => .error 6

end Sys2Proof.Machine
end

