-- ==== Sys2Proof/Machine/RingBuffer.lean ====
section
/-! DEFINITION. The ring-buffer operations (41_ringbuffer.md R131 to R140), each once as a function on an instance,
which the UART driver core calls on a port's buffers, and the ten HOST commands that apply them to a standalone
instance. Every check precedes every write, so a violating operation changes nothing (R161). -/

namespace Sys2Proof.Machine

/-! ## The operations on an instance -/

/-- The registers a successful init sets (41_ringbuffer.md R131): an empty buffer over a zeroed store. -/
def rbFresh (cap : Nat) : RingBuffer :=
  { alloc := true, cap := cap, store := [], used := 0, avail := cap, inFlight := 0, head := 0, tail := 0,
    resv := none }

/-- RB.init (41_ringbuffer.md R131). The two checks fault; then the allocation outcome is a draw, which decides the
instance's registers and the status. -/
def rbInit (cap : Nat) (d : Draws) (rb : RingBuffer) : Except FaultCode (RingBuffer × Draws × Status) :=
  if rb.alloc then .error .rbAlreadyAllocated
  else if cap = 0 then .error .rbBadCapacity
  else .ok (if d.bool then rbFresh cap else rb, d.pop, if d.bool then .ok else .errAlloc)

/-- RB.deinit (41_ringbuffer.md R132): the other registers hold no value a rule may read (log 6). -/
def rbDeinit (_ : RingBuffer) : RingBuffer := RingBuffer.unallocated

/-- RB.clear (41_ringbuffer.md R133): the store is not touched. -/
def rbClear (rb : RingBuffer) : RingBuffer :=
  { rb with used := 0, inFlight := 0, avail := rb.cap, head := 0, tail := 0, resv := none }

/-- The write and the bookkeeping append and advance_tail share (41_ringbuffer.md R134, R140). -/
def rbCommit (data : List Byte) (resv : Option Nat) (rb : RingBuffer) : RingBuffer :=
  { rb with
    store := Memory.writeRun rb.cap rb.store rb.tail data
    tail := (rb.tail + data.length) % rb.cap
    used := rb.used + data.length
    avail := rb.avail - data.length
    resv := resv }

/-- RB.append (41_ringbuffer.md R134). -/
def rbAppend (data : List Byte) (rb : RingBuffer) : Except FaultCode RingBuffer :=
  if data.length > rb.avail then .error .rbOverrun
  else .ok (rbCommit data (if data.length > 0 then none else rb.resv) rb)

/-- RB.append_one (41_ringbuffer.md R135). -/
def rbAppendOne (b : Byte) (rb : RingBuffer) : Except FaultCode RingBuffer := rbAppend [b] rb

/-- RB.at (41_ringbuffer.md R136): the stored byte, a draw beyond `used`, a fault beyond the capacity. The draw is a
fresh one in each call, so two calls in a row beyond `used` may differ, where 20_memory.md R79 lists `at` as idempotent
without excepting them (DESIGN CHOICE, log 26). -/
def rbAt (index : Nat) (d : Draws) (rb : RingBuffer) : Except FaultCode (Byte × Draws) :=
  if index < rb.used then .ok (Memory.read rb.store ((rb.head + index) % rb.cap), d)
  else if index < rb.cap then .ok (d.byte, d.pop)
  else .error .rbIndex

/-- What get returns (41_ringbuffer.md R137): the span's length, its start index, its bytes. -/
structure Span where
  n     : Nat
  start : Nat
  bytes : List Byte
  deriving DecidableEq, Repr

/-- The index get's span starts at: right after the in-flight region (41_ringbuffer.md R137). -/
def rbGetStart (rb : RingBuffer) : Nat := (rb.head + rb.inFlight) % rb.cap

/-- The length of get's span: max, what is not in flight, the distance to the wrap point (41_ringbuffer.md R137). -/
def rbGetLen (max : Nat) (rb : RingBuffer) : Nat :=
  min max (min (rb.used - rb.inFlight) (rb.cap - rbGetStart rb))

/-- RB.get (41_ringbuffer.md R137). -/
def rbGet (max : Nat) (rb : RingBuffer) : RingBuffer × Span :=
  let n := rbGetLen max rb
  ({ rb with inFlight := rb.inFlight + n },
   { n := n, start := rbGetStart rb, bytes := Memory.readRun rb.cap rb.store (rbGetStart rb) n })

/-- The empty reset of consume (41_ringbuffer.md R138): head and tail return to 0, and a reservation is cancelled
exactly when tail moves. -/
def rbEmptyReset (rb : RingBuffer) : RingBuffer :=
  if rb.used = 0 then { rb with resv := if rb.tail ≠ 0 then none else rb.resv, head := 0, tail := 0 } else rb

/-- RB.consume (41_ringbuffer.md R138). -/
def rbConsume (len : Nat) (rb : RingBuffer) : Except FaultCode RingBuffer :=
  if len > rb.used then .error .rbUnderrun
  else if len > rb.inFlight then .error .rbNotInFlight
  else .ok (rbEmptyReset
    { rb with head := (rb.head + len) % rb.cap, used := rb.used - len, avail := rb.avail + len,
              inFlight := rb.inFlight - len })

/-- The contiguous free bytes from tail (41_ringbuffer.md R139). -/
def rbContigLen (rb : RingBuffer) : Nat :=
  if rb.used = rb.cap then 0 else if rb.tail ≥ rb.head then rb.cap - rb.tail else rb.head - rb.tail

/-- RB.contig_tail_space (41_ringbuffer.md R139): it records the reservation. -/
def rbContigTailSpace (rb : RingBuffer) : RingBuffer := { rb with resv := some (rbContigLen rb) }

/-- RB.advance_tail (41_ringbuffer.md R140). -/
def rbAdvanceTail (data : List Byte) (rb : RingBuffer) : Except FaultCode RingBuffer :=
  match rb.resv with
  | none => .error .rbNoReservation
  | some n => if data.length > n then .error .rbOverrun else .ok (rbCommit data none rb)

/-- The bytes an instance holds, oldest first: "logically stored" (10_state.md R21). -/
def rbContents (rb : RingBuffer) : List Byte := Memory.readRun rb.cap rb.store rb.head rb.used

/-! ## The commands on a standalone instance -/

/-- The outcome of an operation that may fault: the fault with the command word, or the instance's new registers
and the result. -/
def finishRb (w : Word) (sel : Nat) (s : State) (r : Except FaultCode (RingBuffer × Result)) : State :=
  match r with
  | .error c => s.raise c w
  | .ok (rb, res) => (s.setRb sel rb).ret res

/-- RB_INIT (41_ringbuffer.md R131): the one command that takes an unallocated instance. -/
def execRbInit (sel cap : Nat) (s : State) : Host.Outcome State Fault Refusal :=
  let w := encodeWord (.rbInit sel cap)
  issue s (onInstance w sel s fun rb =>
    match rbInit cap s.draws rb with
    | .error c => s.raise c w
    | .ok (rb', d, st) => ({ s with draws := d }.setRb sel rb').ret { Result.ok with status := st })

/-- RB_DEINIT (41_ringbuffer.md R132). -/
def execRbDeinit (sel : Nat) (s : State) : Host.Outcome State Fault Refusal :=
  let w := encodeWord (.rbDeinit sel)
  issue s (onAllocated w sel s fun rb => finishRb w sel s (.ok (rbDeinit rb, Result.ok)))

/-- RB_CLEAR (41_ringbuffer.md R133). -/
def execRbClear (sel : Nat) (s : State) : Host.Outcome State Fault Refusal :=
  let w := encodeWord (.rbClear sel)
  issue s (onAllocated w sel s fun rb => finishRb w sel s (.ok (rbClear rb, Result.ok)))

/-- RB_APPEND (41_ringbuffer.md R134). -/
def execRbAppend (sel : Nat) (data : List Byte) (s : State) : Host.Outcome State Fault Refusal :=
  let w := encodeWord (.rbAppend sel data)
  issue s (onAllocated w sel s fun rb => finishRb w sel s ((rbAppend data rb).map fun x => (x, Result.ok)))

/-- RB_APPEND_ONE (41_ringbuffer.md R135). -/
def execRbAppendOne (sel : Nat) (b : Byte) (s : State) : Host.Outcome State Fault Refusal :=
  let w := encodeWord (.rbAppendOne sel b)
  issue s (onAllocated w sel s fun rb => finishRb w sel s ((rbAppendOne b rb).map fun x => (x, Result.ok)))

/-- RB_AT (41_ringbuffer.md R136): v0 is the byte; no register changes (a draw, where one is taken, is spent). -/
def execRbAt (sel index : Nat) (s : State) : Host.Outcome State Fault Refusal :=
  let w := encodeWord (.rbAt sel index)
  issue s (onAllocated w sel s fun rb =>
    match rbAt index s.draws rb with
    | .error c => s.raise c w
    | .ok (b, d) => { s with draws := d }.ret { Result.ok with v0 := b.setWidth 32 })

/-- RB_GET (41_ringbuffer.md R137): v0 = n, v1 = the start index, data = the n bytes (30_encoding.md R110). -/
def execRbGet (sel max : Nat) (s : State) : Host.Outcome State Fault Refusal :=
  let w := encodeWord (.rbGet sel max)
  issue s (onAllocated w sel s fun rb =>
    let (rb', g) := rbGet max rb
    finishRb w sel s (.ok (rb',
      { Result.ok with v0 := BitVec.ofNat 32 g.n, v1 := BitVec.ofNat 32 g.start, data := .bytes g.bytes })))

/-- RB_CONSUME (41_ringbuffer.md R138). -/
def execRbConsume (sel len : Nat) (s : State) : Host.Outcome State Fault Refusal :=
  let w := encodeWord (.rbConsume sel len)
  issue s (onAllocated w sel s fun rb => finishRb w sel s ((rbConsume len rb).map fun x => (x, Result.ok)))

/-- RB_CONTIG_TAIL_SPACE (41_ringbuffer.md R139): v0 = n, v1 = the tail index. -/
def execRbContigTailSpace (sel : Nat) (s : State) : Host.Outcome State Fault Refusal :=
  let w := encodeWord (.rbContigTailSpace sel)
  issue s (onAllocated w sel s fun rb =>
    finishRb w sel s (.ok (rbContigTailSpace rb,
      { Result.ok with v0 := BitVec.ofNat 32 (rbContigLen rb), v1 := BitVec.ofNat 32 rb.tail })))

/-- RB_ADVANCE_TAIL (41_ringbuffer.md R140). -/
def execRbAdvanceTail (sel : Nat) (data : List Byte) (s : State) : Host.Outcome State Fault Refusal :=
  let w := encodeWord (.rbAdvanceTail sel data)
  issue s (onAllocated w sel s fun rb => finishRb w sel s ((rbAdvanceTail data rb).map fun x => (x, Result.ok)))

end Sys2Proof.Machine
end

