-- ==== Sys2Proof/Machine/Dispatcher.lean ====
section
/-! DEFINITION. The DISPATCH agent (43_dispatch.md): one micro-step per EV_DISPATCH, chosen by the phase register
dphase (R200 to R207). Each micro-step takes and gives the port and the draws. -/

namespace Sys2Proof.Machine

/-- IDLE: a run starts and takes the schedule request (43_dispatch.md R201). -/
def dispatchIdle (p : Port) : Port := { p with dispatchPending := false, dphase := .rxTop }

/-- RX_TOP moves one byte from the RX FIFO into the RX ring buffer (43_dispatch.md R202). -/
def dispatchRxMove (d : Draws) (p : Port) : Except FaultCode (Port × Draws) :=
  let (b, d, v) := readByte d p.dev
  match rbAppendOne b p.rx with
  | .error c => .error c
  | .ok rx => .ok ({ p with rx := rx, dev := v,
                            stats := { p.stats with rxBytes := counterAdd p.stats.rxBytes 1 } }, d)

/-- RX_TOP (43_dispatch.md R202): one byte, or LINGER, or on to RX_FC. -/
def dispatchRxTop (P : Params) (d : Draws) (p : Port) : Except FaultCode (Port × Draws) :=
  let (n, d) := rxFifoLen P d p.dev
  if canReceive p ∧ n > 0 then dispatchRxMove d p
  else if canReceive p ∧ p.cfg.rxLingerMicros > 0 then .ok ({ p with dphase := .linger }, d)
  else .ok ({ p with dphase := .rxFc }, d)

/-- A linger continuation (43_dispatch.md R203). -/
def dispatchLingerResume (p : Port) : Port :=
  { p with dphase := .rxTop, stats := { p.stats with rxLingerConts := counterAdd p.stats.rxLingerConts 1 } }

/-- LINGER (43_dispatch.md R203): the budget's expiry is a draw; the FIFO's length is read only if it has not
expired. -/
def dispatchLinger (P : Params) (d : Draws) (p : Port) : Port × Draws :=
  if d.bool then ({ p with dphase := .rxFc }, d.pop)
  else
    let (n, d) := rxFifoLen P d.pop p.dev
    if n > 0 then (dispatchLingerResume p, d) else (p, d)

/-- RX_FC would send XOFF (43_dispatch.md R204). -/
def sendsXoff (P : Params) (p : Port) : Bool :=
  decide (p.cfg.rxFlowControl = .software) && !p.xoffSent && decide (p.rx.used ≥ p.cfg.rxFifoFcThresh) &&
    decide (txFifoLen p.dev < P.txFifoCap)

/-- RX_FC would send XON (43_dispatch.md R204). -/
def sendsXon (P : Params) (p : Port) : Bool :=
  decide (p.cfg.rxFlowControl = .software) && p.xoffSent && decide (p.rx.used < xonLow P p.cfg) &&
    decide (txFifoLen p.dev < P.txFifoCap)

/-- RX_FC, the software flow-control check (43_dispatch.md R204): at most one control byte, straight into the TX
FIFO. -/
def dispatchRxFc (P : Params) (p : Port) : Port :=
  if sendsXoff P p then { p with dev := writeByte p.dev P.xoffChar, xoffSent := true, dphase := .txTop }
  else if sendsXon P p then { p with dev := writeByte p.dev P.xonChar, xoffSent := false, dphase := .txTop }
  else { p with dphase := .txTop }

/-- TX_TOP (43_dispatch.md R205): a contiguous span of the TX ring buffer into the TX FIFO's free space. -/
def dispatchTxTop (P : Params) (p : Port) : Port :=
  if p.tx.used > 0 ∧ P.txFifoCap - txFifoLen p.dev > 0 then
    let (tx, g) := rbGet (P.txFifoCap - txFifoLen p.dev) p.tx
    { p with tx := tx, dev := writeBytes p.dev g.bytes, dphase := .txConsume g.n }
  else { p with dphase := .bottom }

/-- TX_CONSUME(n) (43_dispatch.md R206). -/
def dispatchTxConsume (n : Nat) (p : Port) : Except FaultCode Port :=
  match rbConsume n p.tx with
  | .error c => .error c
  | .ok tx => .ok { p with tx := tx, stats := { p.stats with txBytes := counterAdd p.stats.txBytes n },
                           dphase := .txTop }

/-- BOTTOM (43_dispatch.md R207): the two data enables are recomputed; the informational ones keep their value. -/
def dispatchBottom (p : Port) : Port :=
  { p with dev := setInterruptEnable p.dev
             (setBit (setBit (readIntEna p.dev) rxData (canReceive p)) txSpace (txPending p)),
           dphase := .idle }

/-- The micro-step of the current dphase (43_dispatch.md R200). -/
def dispatchMicro (P : Params) (d : Draws) (p : Port) : Except FaultCode (Port × Draws) :=
  match p.dphase with
  | .idle => .ok (dispatchIdle p, d)
  | .rxTop => dispatchRxTop P d p
  | .linger => .ok (dispatchLinger P d p)
  | .rxFc => .ok (dispatchRxFc P p, d)
  | .txTop => .ok (dispatchTxTop P p, d)
  | .txConsume n => (dispatchTxConsume n p).map fun p' => (p', d)
  | .bottom => .ok (dispatchBottom p, d)

/-- EV_DISPATCH (43_dispatch.md R200). A fault of a driver-internal ring-buffer call, which no run reaches
(41_ringbuffer.md R167), would be recorded with the event's word. -/
def execEvDispatch (sel : Nat) (s : State) : Host.Outcome State Fault Refusal :=
  let w := encodeWord (.evDispatch sel)
  agentStep w sel s dispatchEnabled fun p =>
    match dispatchMicro s.params s.draws p with
    | .error c => s.raise c w
    | .ok (p', d) => { s with draws := d }.setPort sel p'

end Sys2Proof.Machine
end

