-- ==== Sys2Proof/Machine/Isr.lean ====
section
/-! DEFINITION. The interrupt top half (60_exceptions.md R266 to R275): one invocation is one atomic step, which
handles every pending enabled cause in the order RX_OVF, CTS_CHG, RX_DATA, TX_SPACE (R271). It saves nothing, has no
vector and nothing to restore (R273, R274). -/

namespace Sys2Proof.Machine

/-- RX_OVF: counted; on a part with the overflow quirk the RX FIFO is reset (60_exceptions.md R270). -/
def isrRxOvf (P : Params) (st : Word) (p : Port) : Port :=
  if st.getLsbD rxOvf then
    { p with stats := { p.stats with rxOverflows := counterAdd p.stats.rxOverflows 1 },
             dev := if P.ovfResetFifo then resetRxFifo p.dev else p.dev }
  else p

/-- CTS_CHG: a throttle is counted when CTS blocks with bytes pending in the TX ring buffer (60_exceptions.md R270). -/
def isrCtsChg (st : Word) (p : Port) : Port :=
  if st.getLsbD ctsChg ∧ ctsBlocks p ∧ txPending p then
    { p with stats := { p.stats with txThrottles := counterAdd p.stats.txThrottles 1 } }
  else p

/-- RX_DATA: counted and disarmed (60_exceptions.md R270). -/
def isrRxData (st : Word) (p : Port) : Port :=
  if st.getLsbD rxData then
    { p with stats := { p.stats with rxInts := counterAdd p.stats.rxInts 1 },
             dev := setInterruptEnable p.dev (setBit (readIntEna p.dev) rxData false) }
  else p

/-- TX_SPACE: counted and disarmed (60_exceptions.md R270). -/
def isrTxSpace (st : Word) (p : Port) : Port :=
  if st.getLsbD txSpace then
    { p with stats := { p.stats with txInts := counterAdd p.stats.txInts 1 },
             dev := setInterruptEnable p.dev (setBit (readIntEna p.dev) txSpace false) }
  else p

/-- A data cause schedules the dispatcher (60_exceptions.md R270). -/
def isrSchedule (st : Word) (p : Port) : Port :=
  { p with dispatchPending := p.dispatchPending || st.getLsbD rxData || st.getLsbD txSpace }

/-- The acknowledge (60_exceptions.md R268): the handled bits are written to INT_CLR. -/
def isrAck (st : Word) (p : Port) : Port := { p with dev := clearInterrupt p.dev st }

/-- The invocation is counted once (60_exceptions.md R270). -/
def isrCount (p : Port) : Port := { p with stats := { p.stats with ints := counterAdd p.stats.ints 1 } }

/-- One invocation of the top half (60_exceptions.md R270), on the masked status read at its start. -/
def isrRun (P : Params) (p : Port) : Port :=
  let st := maskedStatus p
  isrAck st (isrSchedule st (isrTxSpace st (isrRxData st (isrCtsChg st (isrRxOvf P st (isrCount p))))))

/-- EV_ISR (60_exceptions.md R270). -/
def execEvIsr (sel : Nat) (s : State) : Host.Outcome State Fault Refusal :=
  agentStep (encodeWord (.evIsr sel)) sel s isrEnabled fun p => s.setPort sel (isrRun s.params p)

end Sys2Proof.Machine
end

