-- ==== Sys2Proof/Machine/Line.lean ====
section
/-! DEFINITION. The LINE agent (44_line_flow.md R230 to R235): bytes arriving, the TX shifter, the CTS input, the
receive timeout. -/

namespace Sys2Proof.Machine

/-- A byte arrives, masked to the frame's data bits; at a full FIFO it is lost and latched, and on a part with the
overflow quirk the FIFO becomes corrupt (44_line_flow.md R231). -/
def lineRx (P : Params) (b : Byte) (v : Device) : Device :=
  if v.rxf.length < P.rxFifoCap then { v with rxf := v.rxf ++ [b &&& dmask v.frame] }
  else { v with ovfLatch := true, rxCorrupt := v.rxCorrupt || P.ovfResetFifo }

/-- EV_LINE_RX (44_line_flow.md R231). -/
def execEvLineRx (sel : Nat) (b : Byte) (s : State) : Host.Outcome State Fault Refusal :=
  agentStep (encodeWord (.evLineRx sel b)) sel s lineEnabled fun p =>
    s.setPort sel { p with dev := lineRx s.params b p.dev }

/-- The shifter takes the TX FIFO's head (44_line_flow.md R232). -/
def lineTxLoad (v : Device) : Device := { v with txsh := v.txf.head?, txf := v.txf.tail }

/-- EV_LINE_TX_LOAD (44_line_flow.md R232). -/
def execEvLineTxLoad (sel : Nat) (s : State) : Host.Outcome State Fault Refusal :=
  agentStep (encodeWord (.evLineTxLoad sel)) sel s txLoadEnabled fun p =>
    s.setPort sel { p with dev := lineTxLoad p.dev }

/-- The shifter's byte reaches the line, masked to the frame's data bits (44_line_flow.md R233). -/
def lineTxDone (p : Port) : Port :=
  { p with wireOut := p.wireOut ++ p.dev.txsh.toList.map (fun b => b &&& dmask p.dev.frame),
           dev := { p.dev with txsh := none } }

/-- EV_LINE_TX_DONE (44_line_flow.md R233). -/
def execEvLineTxDone (sel : Nat) (s : State) : Host.Outcome State Fault Refusal :=
  agentStep (encodeWord (.evLineTxDone sel)) sel s txDoneEnabled fun p => s.setPort sel (lineTxDone p)

/-- The far end moves CTS; every change is latched (44_line_flow.md R234). -/
def lineCts (level : Bool) (v : Device) : Device :=
  { v with ctsLatch := v.ctsLatch || (level != v.ctsIn), ctsIn := level }

/-- EV_CTS (44_line_flow.md R234). -/
def execEvCts (sel : Nat) (level : Bool) (s : State) : Host.Outcome State Fault Refusal :=
  agentStep (encodeWord (.evCts sel level)) sel s lineEnabled fun p =>
    s.setPort sel { p with dev := lineCts level p.dev }

/-- EV_RX_TIMEOUT (44_line_flow.md R235). -/
def execEvRxTimeout (sel : Nat) (s : State) : Host.Outcome State Fault Refusal :=
  agentStep (encodeWord (.evRxTimeout sel)) sel s rxTimeoutEnabled fun p =>
    s.setPort sel { p with dev := { p.dev with toutLatch := true } }

end Sys2Proof.Machine
end

