-- ==== Sys2Proof/Machine/UartHost.lean ====
section
/-! DEFINITION. The UART driver's host operations (42_uart_host.md): the seven port commands, and the later HOST
steps of WRITE and FLUSH, which have no word of their own (R179, R181). -/

namespace Sys2Proof.Machine

/-! ## Configuration (42_uart_host.md R172 to R176) -/

/-- The frame-format register a configuration programs (10_state.md R42). -/
def frameOf (c : PortCfg) : Frame := { numDataBits := c.numDataBits, parity := c.parity, stopBits := c.stopBits }

/-- The interrupt enables configure leaves: RX_OVF and CTS_CHG only (42_uart_host.md R173). -/
def informationalEnables : Word := 0b1100#32

/-- ConfigureApply (42_uart_host.md R173): both buffers freshly allocated to the configured sizes. CTS_IN is an
input and wire_out an observation: neither changes; nor does the dispatcher's phase. -/
def configureApply (c : PortCfg) (p : Port) : Port :=
  { p with
    cfg := c
    rx := rbFresh c.rxBufSize
    tx := rbFresh c.txBufSize
    dev := setInterruptEnable
      { setBaudDivisor (emptyDevice p.dev) (Config.baudDivFn c.baudRate) with frame := frameOf c }
      informationalEnables
    rxEnabled := false
    xoffSent := false
    dispatchPending := false
    stats := if p.phase = .uninit then Stats.zero else p.stats
    registered := true
    phase := .configured }

/-- What deinit and a failed allocation share (42_uart_host.md R174, R177): interrupts disabled, both buffers freed,
the table entry removed, the device emptied, the flags cleared, the port UNINIT. The statistics keep their values;
`cfg` holds no value a rule may read (log 6). -/
def portDown (p : Port) : Port :=
  { p with
    cfg := noCfg
    rx := rbDeinit p.rx
    tx := rbDeinit p.tx
    dev := setInterruptEnable (emptyDevice p.dev) 0
    rxEnabled := false
    xoffSent := false
    dispatchPending := false
    registered := false
    phase := .uninit }

/-- ConfigureAllocFailed (42_uart_host.md R174). -/
def configureAllocFailed (p : Port) : Port := portDown p

/-- The allocations of configure (42_uart_host.md R172): both buffers are freed before, so neither init faults;
the second draw is taken only if the first allocation succeeds. -/
def configureAlloc (d : Draws) : Bool × Draws :=
  if d.bool then (d.pop.bool, d.pop.pop) else (false, d.pop)

/-- The part of configure after validation and the refusal (42_uart_host.md R172). -/
def configureRun (sel : Nat) (c : PortCfg) (p : Port) (s : State) : State :=
  let (ok, d) := configureAlloc s.draws
  let s := { s with draws := d }
  if ok then (s.setPort sel (configureApply c p)).ret Result.ok
  else (s.setPort sel (configureAllocFailed p)).ret { Result.ok with status := .errAlloc }

/-- UART_CONFIGURE (42_uart_host.md R172). While it holds for the dispatcher nothing changes. -/
def execUartConfigure (sel : Nat) (c : CfgWords) (s : State) : Host.Outcome State Fault Refusal :=
  issue s (onPort (encodeWord (.uartConfigure sel c)) sel s fun p =>
    if holdsForDispatcher p then s
    else match validate s.params c with
      | .error detail => s.ret { Result.ok with status := .errValidation, detail := BitVec.ofNat 8 detail }
      | .ok cfg => if cfg.txFlowControl = .software then s.refuse refTxSwFc else configureRun sel cfg p s)

/-! ## Lifecycle and RX enable (42_uart_host.md R177, R178) -/

/-- UART_DEINIT (42_uart_host.md R177). While it holds for the dispatcher nothing changes. -/
def execUartDeinit (sel : Nat) (s : State) : Host.Outcome State Fault Refusal :=
  issue s (onConfigured (encodeWord (.uartDeinit sel)) sel s fun p =>
    if holdsForDispatcher p then s else (s.setPort sel (portDown p)).ret Result.ok)

/-- CONFIGURED becomes RUNNING (42_uart_host.md R178, R179, R183). -/
def Phase.started : Phase → Phase
  | .configured => .running
  | .running => .running
  | .uninit => .uninit

/-- UART_SET_RX_ENABLED (42_uart_host.md R178). -/
def execUartSetRxEnabled (sel : Nat) (b : Bool) (s : State) : Host.Outcome State Fault Refusal :=
  issue s (onConfigured (encodeWord (.uartSetRxEnabled sel b)) sel s fun p =>
    (s.setPort sel { p with rxEnabled := b, dispatchPending := true, phase := p.phase.started }).ret Result.ok)

/-! ## Write (42_uart_host.md R179) -/

/-- The length of a write step: what is left to write, bounded by the space (42_uart_host.md R179). -/
def writeStepLen (rem : List Byte) (p : Port) : Nat := min rem.length p.tx.avail

/-- WriteStep with `rem` left to write of `total` bytes: with no space the HOST holds (42_uart_host.md R179). -/
def writeStep (w : Word) (sel : Nat) (rem : List Byte) (total : Nat) (p : Port) (s : State) : State :=
  let k := writeStepLen rem p
  if k = 0 then s
  else match rbAppend (rem.take k) p.tx with
    | .error c => s.raise c w
    | .ok tx =>
      let s := s.setPort sel { p with tx := tx, dispatchPending := true, phase := p.phase.started }
      if k = rem.length then { s with host := .idle }.ret { Result.ok with v0 := BitVec.ofNat 32 total }
      else { s with host := .write sel (rem.drop k) total }

/-- UART_WRITE, the issue step (42_uart_host.md R179); the first write step is part of it. -/
def execUartWrite (sel : Nat) (data : List Byte) (s : State) : Host.Outcome State Fault Refusal :=
  let w := encodeWord (.uartWrite sel data)
  issue s (onConfigured w sel s fun p =>
    if data.length = 0 then s.ret Result.ok
    else writeStep w sel data data.length p { s with host := .write sel data data.length })

/-! ## Read (42_uart_host.md R180) -/

/-- The loop of read (42_uart_host.md R180): spans are taken with get and removed with consume until `max` bytes are
out or the buffer is empty. `fuel` bounds the spans; each takes at least one byte (log 16). -/
def readSpans : Nat → Nat → RingBuffer → List Byte → Except FaultCode (RingBuffer × List Byte)
  | 0, _, rb, out => .ok (rb, out)
  | fuel + 1, max, rb, out =>
    if out.length < max ∧ rb.used > 0 then
      match rbConsume (rbGet (max - out.length) rb).2.n (rbGet (max - out.length) rb).1 with
      | .error c => .error c
      | .ok rb' => readSpans fuel max rb' (out ++ (rbGet (max - out.length) rb).2.bytes)
    else .ok (rb, out)

/-- UART_READ (42_uart_host.md R180): it schedules the dispatcher when it removed a byte. -/
def execUartRead (sel max : Nat) (s : State) : Host.Outcome State Fault Refusal :=
  let w := encodeWord (.uartRead sel max)
  issue s (onConfigured w sel s fun p =>
    match readSpans p.rx.used max p.rx [] with
    | .error c => s.raise c w
    | .ok (rx, out) =>
      (s.setPort sel { p with rx := rx, dispatchPending := p.dispatchPending || decide (out.length > 0) }).ret
        { Result.ok with v0 := BitVec.ofNat 32 out.length, data := .bytes out })

/-! ## Flush and statistics (42_uart_host.md R181, R182) -/

/-- What flush waits for (42_uart_host.md R181). -/
def flushDone (p : Port) : Bool := decide (p.tx.used = 0) && transmissionComplete p.dev

/-- FlushStep (42_uart_host.md R181): it returns, or asks for another dispatch run and stays. -/
def flushStep (sel : Nat) (p : Port) (s : State) : State :=
  if flushDone p then { s with host := .idle }.ret Result.ok
  else s.setPort sel { p with dispatchPending := true }

/-- UART_FLUSH, the issue step (42_uart_host.md R181). -/
def execUartFlush (sel : Nat) (s : State) : Host.Outcome State Fault Refusal :=
  issue s (onConfigured (encodeWord (.uartFlush sel)) sel s fun p => flushStep sel p { s with host := .flush sel })

/-- UART_GET_STATS (42_uart_host.md R182). -/
def execUartGetStats (sel : Nat) (s : State) : Host.Outcome State Fault Refusal :=
  issue s (onConfigured (encodeWord (.uartGetStats sel)) sel s fun p =>
    s.ret { Result.ok with data := .words p.stats.toList })

/-! ## The later HOST steps of a command in progress -/

/-- The HOST's step while a command occupies it (10_state.md R46, 42_uart_host.md R179, R181). A port the state does
not have, which no run reaches, gives no step. -/
def hostContinue (s : State) : State :=
  match s.host with
  | .idle => s
  | .write sel rem total =>
    match s.ports[sel]? with
    | none => s
    | some p => writeStep (commandWord 0x13 sel total) sel rem total p s
  | .flush sel =>
    match s.ports[sel]? with
    | none => s
    | some p => flushStep sel p s

end Sys2Proof.Machine
end

