-- ==== Sys2Proof/Machine/Dispatch.lean ====
section
/-! DEFINITION. The meaning of every instruction, one arm per constructor. -/

namespace Sys2Proof.Machine

def exec (i : Instr) (s : State) : Host.Outcome State Fault Refusal :=
  match i with
  -- 41_ringbuffer.md
  | .rbInit sel cap => Sys2Proof.Machine.execRbInit sel cap s
  | .rbDeinit sel => Sys2Proof.Machine.execRbDeinit sel s
  | .rbClear sel => Sys2Proof.Machine.execRbClear sel s
  | .rbAppend sel data => Sys2Proof.Machine.execRbAppend sel data s
  | .rbAppendOne sel b => Sys2Proof.Machine.execRbAppendOne sel b s
  | .rbAt sel index => Sys2Proof.Machine.execRbAt sel index s
  | .rbGet sel max => Sys2Proof.Machine.execRbGet sel max s
  | .rbConsume sel len => Sys2Proof.Machine.execRbConsume sel len s
  | .rbContigTailSpace sel => Sys2Proof.Machine.execRbContigTailSpace sel s
  | .rbAdvanceTail sel data => Sys2Proof.Machine.execRbAdvanceTail sel data s
  -- 42_uart_host.md
  | .uartConfigure sel c => Sys2Proof.Machine.execUartConfigure sel c s
  | .uartDeinit sel => Sys2Proof.Machine.execUartDeinit sel s
  | .uartSetRxEnabled sel b => Sys2Proof.Machine.execUartSetRxEnabled sel b s
  | .uartWrite sel data => Sys2Proof.Machine.execUartWrite sel data s
  | .uartRead sel max => Sys2Proof.Machine.execUartRead sel max s
  | .uartFlush sel => Sys2Proof.Machine.execUartFlush sel s
  | .uartGetStats sel => Sys2Proof.Machine.execUartGetStats sel s
  -- 60_exceptions.md, 43_dispatch.md, 44_line_flow.md
  | .evIsr sel => Sys2Proof.Machine.execEvIsr sel s
  | .evDispatch sel => Sys2Proof.Machine.execEvDispatch sel s
  | .evLineRx sel b => Sys2Proof.Machine.execEvLineRx sel b s
  | .evLineTxLoad sel => Sys2Proof.Machine.execEvLineTxLoad sel s
  | .evLineTxDone sel => Sys2Proof.Machine.execEvLineTxDone sel s
  | .evCts sel level => Sys2Proof.Machine.execEvCts sel level s
  | .evRxTimeout sel => Sys2Proof.Machine.execEvRxTimeout sel s

end Sys2Proof.Machine
end

