-- ==== Sys2Proof/Machine/Fetch.lean ====
section
/-! DEFINITION. What the next turn is (00_scope.md R12, log 1): the HOST's next command, taken from `hostq` and
decoded (30_encoding.md R112), the HOST's step of a command in progress, or the event of another agent. Step.lean
runs what this file finds. -/

namespace Sys2Proof.Machine

/-- What a turn is. -/
inductive Fetched where
  /-- The turn is over with this state: nothing was due, the command waits, or its word faulted. -/
  | done (s : State)
  /-- This instruction runs in this state. -/
  | run (i : Instr) (s : State)
  /-- The HOST's step of the command in progress, in this state. -/
  | more (s : State)
  /-- The turn of another agent holds a word whose OP is no event's. -/
  | bad (word : Word)

/-- The state after the turn is taken from the list. -/
def State.popTurn (s : State) : State := { s with turns := s.turns.tail }

/-- The state after the HOST's next command is taken from its list. -/
def State.popCommand (s : State) : State := { s with hostq := s.hostq.tail }

/-- The fault a rejected HOST command raises (60_exceptions.md R260, R263). A HOST command always has its word. -/
def Reject.fault : Reject → FaultCode
  | .noCommandWord => .payloadLength
  | .illegalCommand => .illegalCommand
  | .payloadLength => .payloadLength

/-- The port whose dispatcher a command holds for: configure and deinit only (42_uart_host.md R172, R177). -/
def heldPort : Instr → Option Nat
  | .uartConfigure sel _ => some sel
  | .uartDeinit sel => some sel
  | .rbInit _ _ | .rbDeinit _ | .rbClear _ | .rbAppend _ _ | .rbAppendOne _ _ | .rbAt _ _ | .rbGet _ _
  | .rbConsume _ _ | .rbContigTailSpace _ | .rbAdvanceTail _ _ | .uartSetRxEnabled _ _ | .uartWrite _ _
  | .uartRead _ _ | .uartFlush _ | .uartGetStats _ | .evIsr _ | .evDispatch _ | .evLineRx _ _ | .evLineTxLoad _
  | .evLineTxDone _ | .evCts _ _ | .evRxTimeout _ => none

/-- Whether a command's issue step holds now (42_uart_host.md R172, R177): it then stays the HOST's next command
(log 20). -/
def commandHolds (i : Instr) (s : State) : Bool :=
  match heldPort i with
  | none => false
  | some sel => (s.ports[sel]?).any holdsForDispatcher

/-- The HOST's turn while it is IDLE (10_state.md R46). -/
def fetchCommand (s : State) : Fetched :=
  match s.hostq with
  | [] => .done s
  | c :: _ =>
    match decodeHost c.word c.payload with
    | .error r => .done (s.popCommand.raise (Reject.fault r) c.word)
    | .ok i => if commandHolds i s then .done s else .run i s.popCommand

/-- The next turn; with no turn left nothing is due (log 1). A word with an event's OP that decoding rejects faults
F_ILLEGAL_COMMAND (30_encoding.md R102, R103, R112; log 19). -/
def fetch (s : State) : Fetched :=
  match s.turns with
  | [] => .done s
  | .host :: _ => if s.host = .idle then fetchCommand s.popTurn else .more s.popTurn
  | .agent w :: _ =>
    match decodeEvent w with
    | some i => .run i s.popTurn
    | none => if isEventWord w then .done (s.popTurn.raise .illegalCommand w) else .bad w

end Sys2Proof.Machine
end

