-- ==== Sys2Proof/Machine/Step.lean ====
section
/-! DEFINITION. One step of the block: the next turn of the interleaving, atomic as a whole (20_memory.md R77), and
how the host stores the one word the next step runs. -/

namespace Sys2Proof.Machine

/-- One step (00_scope.md R12). A stopped block has none (60_exceptions.md R261, R262). -/
def step (s : State) : Host.Outcome State Fault Refusal :=
  if s.fault.valid then .fault .stoppedByFault
  else if s.refused.valid then .fault .stoppedByRefusal
  else match fetch s with
    | .done s' => .next s'
    | .run i s' => exec i s'
    | .more s' => .next (hostContinue s')
    | .bad w => .refused (.notAnAgentEvent w)

/-- `s` with the instruction whose bits are `w` as the very next turn: an event word as its agent's turn, any other
word as the HOST's next command, the HOST being IDLE (log 1). -/
def State.withFetchWord (s : State) (nbits w : Nat) : State :=
  if isEventWord (tableWord nbits w) then { s with turns := .agent (tableWord nbits w) :: s.turns }
  else { s with host := .idle,
                hostq := { word := tableWord nbits w, payload := tablePayload nbits w } :: s.hostq,
                turns := .host :: s.turns }

end Sys2Proof.Machine
end

