-- ==== Sys2Proof/Machine/Trace.lean ====
section
/-! DEFINITION. The trace macros of 30_encoding.md R114, the assembler spelling of R113, and how a list of
instructions becomes the commands and turns of a run (R107), and what the outside world gives a run while it goes on
(00_scope.md R11, R12). Nothing of the machine reads this file (log 24). -/

namespace Sys2Proof.Machine

/-! ## Pseudo-operations (30_encoding.md R114) -/

/-- `rb.fill iN, b0 .. bk`. -/
def rbFill (i : Nat) (bs : List Byte) : List Instr := bs.map fun b => .rbAppendOne i b

/-- `ev.send pN`: one byte to the wire. -/
def evSend (p : Nat) : List Instr := [.evLineTxLoad p, .evLineTxDone p]

/-- `uart.puts pN, "text"`: each character as one byte, the low 8 bits of its code point. The spec says only
"[bytes of text]", so for a character above 0x7F that byte is the model's choice (DESIGN CHOICE, log 24). -/
def uartPuts (p : Nat) (text : String) : Instr := .uartWrite p (text.toList.map fun c => BitVec.ofNat 8 c.toNat)

/-- The rest of a dispatch run, at most `fuel` micro-steps of it. -/
def finishRun : Nat → Nat → State → Host.Outcome State Fault Refusal
  | 0, _, s => .next s
  | fuel + 1, p, s =>
    if (s.ports[p]?).any fun x => decide (x.dphase ≠ .idle) then
      match execEvDispatch p s with
      | .next s' => finishRun fuel p s'
      | .fault r => .fault r
      | .refused r => .refused r
    else .next s

/-- `ev.dispatch_run pN`: ev.dispatch repeated until dphase returns to IDLE; the number of words depends on the
state, and `fuel` bounds it. -/
def dispatchRun (fuel p : Nat) (s : State) : Host.Outcome State Fault Refusal :=
  match execEvDispatch p s with
  | .next s' => finishRun fuel p s'
  | .fault r => .fault r
  | .refused r => .refused r

/-! ## A trace as the machine's input (log 1) -/

/-- The turn of an instruction. -/
def turnOf (i : Instr) : Turn := if isEventWord (encodeWord i) then .agent (encodeWord i) else .host

/-- The HOST commands of a trace, in order. -/
def commandsOf (is : List Instr) : List Command :=
  (is.filter fun i => !isEventWord (encodeWord i)).map fun i => { word := encodeWord i, payload := encodePayload i }

/-- The state with a trace of instructions as what its agents do next. -/
def State.withTrace (s : State) (is : List Instr) : State :=
  { s with hostq := commandsOf is, turns := is.map turnOf }

/-- What the outside world gives before a step: agents that move next, commands for the HOST to issue, and values
for the draws to come (00_scope.md R11, R12; log 1). -/
structure Input where
  turns    : List Turn
  commands : List Command
  draws    : List Nat
  deriving DecidableEq, Repr

/-- The state with an input behind what it already holds. -/
def State.given (s : State) (x : Input) : State :=
  { s with turns := s.turns ++ x.turns, hostq := s.hostq ++ x.commands,
           draws := { s.draws with stated := s.draws.stated ++ x.draws } }

/-! ## The assembler's spelling (30_encoding.md R113) -/

/-- n in hex with at least two digits. -/
def hex2 (n : Nat) : String :=
  let d := String.ofList (Nat.toDigits 16 n)
  if d.length < 2 then "0" ++ d else d

/-- A payload in brackets. -/
def asmBytes (bs : List Byte) : String := "[" ++ " ".intercalate (bs.map fun b => hex2 b.toNat) ++ "]"

/-- The name of an enumeration code; a reserved code is written as its number. -/
def asmCode (names : List String) (code : Nat) : String := names.getD code (toString code)

/-- The configuration fields in braces (the two brace characters by their codes). -/
def asmCfg (c : CfgWords) : String :=
  let fc := ["none", "hw", "sw"]
  let field := fun (name : String) (v : Nat) => name ++ "=" ++ toString v
  String.singleton (Char.ofNat 123) ++
  ", ".intercalate
    [ field "baud" (bitField c.w0 0 32), field "bits" (bitField c.w1 0 4),
      "parity=" ++ asmCode ["none", "even", "odd"] (bitField c.w1 4 2),
      "stop=" ++ asmCode ["1", "1.5", "2"] (bitField c.w1 6 2),
      "rxfc=" ++ asmCode fc (bitField c.w1 8 2), "txfc=" ++ asmCode fc (bitField c.w1 10 2),
      field "rxbuf" (bitField c.w2 0 16), field "txbuf" (bitField c.w2 16 16),
      field "linger" (bitField c.w3 0 16), field "full" (bitField c.w4 0 16), field "fc" (bitField c.w4 16 16),
      field "alarm" (bitField c.w5 0 16), field "txempty" (bitField c.w5 16 16) ] ++
  String.singleton (Char.ofNat 125)

/-- The line of an instruction. -/
def asm : Instr → String
  | .rbInit i cap => "rb.init i" ++ toString i ++ ", " ++ toString cap
  | .rbDeinit i => "rb.deinit i" ++ toString i
  | .rbClear i => "rb.clear i" ++ toString i
  | .rbAppend i data => "rb.append i" ++ toString i ++ ", " ++ asmBytes data
  | .rbAppendOne i b => "rb.append_one i" ++ toString i ++ ", 0x" ++ hex2 b.toNat
  | .rbAt i index => "rb.at i" ++ toString i ++ ", " ++ toString index
  | .rbGet i max => "rb.get i" ++ toString i ++ ", " ++ toString max
  | .rbConsume i len => "rb.consume i" ++ toString i ++ ", " ++ toString len
  | .rbContigTailSpace i => "rb.contig i" ++ toString i
  | .rbAdvanceTail i data => "rb.advance i" ++ toString i ++ ", " ++ asmBytes data
  | .uartConfigure p c => "uart.configure p" ++ toString p ++ ", " ++ asmCfg c
  | .uartDeinit p => "uart.deinit p" ++ toString p
  | .uartSetRxEnabled p b => "uart.rx_enable p" ++ toString p ++ ", " ++ toString b.toNat
  | .uartWrite p data => "uart.write p" ++ toString p ++ ", " ++ asmBytes data
  | .uartRead p max => "uart.read p" ++ toString p ++ ", " ++ toString max
  | .uartFlush p => "uart.flush p" ++ toString p
  | .uartGetStats p => "uart.stats p" ++ toString p
  | .evIsr p => "ev.isr p" ++ toString p
  | .evDispatch p => "ev.dispatch p" ++ toString p
  | .evLineRx p b => "ev.rx p" ++ toString p ++ ", 0x" ++ hex2 b.toNat
  | .evLineTxLoad p => "ev.txload p" ++ toString p
  | .evLineTxDone p => "ev.txdone p" ++ toString p
  | .evCts p level => "ev.cts p" ++ toString p ++ ", " ++ toString level.toNat
  | .evRxTimeout p => "ev.rxtout p" ++ toString p

end Sys2Proof.Machine
end

