-- ==== Sys2Proof/Safety.lean ====
section
/-! DEFINITION. What counts as a sound state (the invariants of 10_state.md R22, R30, 41_ringbuffer.md R160 to R164,
43_dispatch.md R209), as a stopped and as a final state (60_exceptions.md R261, 70_reset_and_hazards.md R317), and what
a claim about endless runs may assume: fairness (43_dispatch.md R200, R203, 60_exceptions.md R269) and the far end's
behaviour (44_line_flow.md R242). -/

namespace Sys2Proof.Machine

/-! ## Sound states -/

/-- The registers of an allocated instance (41_ringbuffer.md R160 to R164; 20_memory.md R71 for the store). -/
abbrev RingBuffer.live (rb : RingBuffer) : Prop :=
  rb.alloc = true ∧ 1 ≤ rb.cap ∧ rb.cap ≤ Config.capMax ∧ rb.used + rb.avail = rb.cap ∧ rb.inFlight ≤ rb.used ∧
  rb.head < rb.cap ∧ rb.tail < rb.cap ∧ (rb.head + rb.used) % rb.cap = rb.tail ∧
  (rb.used = 0 → rb.head = 0 ∧ rb.tail = 0) ∧
  rb.resv.getD 0 ≤ rb.avail ∧ rb.tail + rb.resv.getD 0 ≤ rb.cap ∧
  Memory.wf rb.store = true ∧ ∀ c ∈ rb.store, c.1 < rb.cap

/-- An instance is unallocated, or its registers are those of an allocated one (10_state.md R21, R22). -/
abbrev RingBuffer.sound (rb : RingBuffer) : Prop := rb = RingBuffer.unallocated ∨ rb.live

/-- A configuration a successful configure stores (10_state.md R24, 42_uart_host.md R171, R176). -/
abbrev cfgValid (P : Params) (c : PortCfg) : Prop :=
  P.baudMin ≤ c.baudRate ∧ c.baudRate ≤ P.baudMax ∧ 5 ≤ c.numDataBits ∧ c.numDataBits ≤ 8 ∧
  1 ≤ c.rxBufSize ∧ c.rxBufSize ≤ Config.capMax ∧ 1 ≤ c.txBufSize ∧ c.txBufSize ≤ Config.capMax ∧
  (c.rxFlowControl ≠ .none → c.rxFifoFullThresh ≤ c.rxFifoFcThresh) ∧ c.txFlowControl ≠ .software ∧
  c.rxLingerMicros ≤ Config.lingerMax

/-- `port[p].tx.in_flight` by the dispatcher's phase (43_dispatch.md R209). -/
def DPhase.txInFlight : DPhase → Nat
  | .txConsume n => n
  | _ => 0

/-- TX_CONSUME's operand is at least 1 (10_state.md R28). -/
def DPhase.legal : DPhase → Bool
  | .txConsume n => decide (1 ≤ n)
  | _ => true

/-- What an UNINIT port holds (70_reset_and_hazards.md R300, 42_uart_host.md R174, R177). -/
abbrev Port.down (p : Port) : Prop :=
  p.cfg = noCfg ∧ p.rx = RingBuffer.unallocated ∧ p.tx = RingBuffer.unallocated ∧ p.dphase = .idle ∧
  p.rxEnabled = false ∧ p.xoffSent = false ∧ p.dispatchPending = false ∧ p.dev.intEna = 0 ∧
  p.dev.rxf = [] ∧ p.dev.txf = [] ∧ p.dev.txsh = none ∧ p.dev.ovfLatch = false ∧ p.dev.ctsLatch = false ∧
  p.dev.toutLatch = false ∧ p.dev.rxCorrupt = false

/-- The buffers of a configured port: allocated to the configured sizes, no reservation, and in flight exactly what
the dispatcher took and has not consumed (42_uart_host.md R173, 43_dispatch.md R209). -/
abbrev Port.buffersUp (p : Port) : Prop :=
  p.rx.live ∧ p.tx.live ∧ p.rx.cap = p.cfg.rxBufSize ∧ p.tx.cap = p.cfg.txBufSize ∧
  p.rx.resv = none ∧ p.tx.resv = none ∧ p.rx.inFlight = 0 ∧ p.tx.inFlight = p.dphase.txInFlight ∧
  p.dphase.legal = true

/-- The device of a configured port: FIFOs within their capacity, the configured frame, received bytes within its
data bits, the informational interrupts enabled (10_state.md R31, R32, R35, R38, R42, 44_line_flow.md R231). -/
abbrev Port.deviceUp (P : Params) (p : Port) : Prop :=
  p.dev.rxf.length ≤ P.rxFifoCap ∧ p.dev.txf.length ≤ P.txFifoCap ∧
  p.dev.frame = frameOf p.cfg ∧ (∀ b ∈ p.dev.rxf, b &&& dmask p.dev.frame = b) ∧
  p.dev.intEna.getLsbD rxOvf = true ∧ p.dev.intEna.getLsbD ctsChg = true ∧
  (p.dev.rxCorrupt = true → P.ovfResetFifo = true)

/-- What a configured port holds. -/
abbrev Port.up (P : Params) (p : Port) : Prop :=
  cfgValid P p.cfg ∧ p.buffersUp ∧ p.deviceUp P ∧ (p.xoffSent = true → p.cfg.rxFlowControl = .software)

/-- A sound port: its table entry is set exactly when it is configured (10_state.md R30), and it is down or up. -/
abbrev Port.sound (P : Params) (p : Port) : Prop :=
  (p.phase = .uninit ∧ p.registered = false ∧ p.down) ∨ (p.phase ≠ .uninit ∧ p.registered = true ∧ p.up P)

/-- Port p exists and is configured. -/
def State.portUp (s : State) (p : Nat) : Bool := (s.ports[p]?).any fun x => decide (x.phase ≠ .uninit)

/-- The HOST's command in progress is on a configured port, and a write has bytes left (10_state.md R46). -/
def State.hostSound (s : State) : Bool :=
  match s.host with
  | .idle => true
  | .write p rem total =>
    s.portUp p && decide (0 < rem.length) && decide (rem.length ≤ total) && decide (total < 65536)
  | .flush p => s.portUp p

/-- FAULT records only the codes 0x01..0x0D (60_exceptions.md R260), REFUSED only its one reason (R262), and not
both: either stops the block. -/
abbrev State.stopSound (s : State) : Prop :=
  (s.fault.valid = true → 1 ≤ s.fault.code.toNat ∧ s.fault.code.toNat ≤ 13) ∧
  (s.refused.valid = true → s.refused.reason = refTxSwFc) ∧
  ¬(s.fault.valid = true ∧ s.refused.valid = true)

/-- The invariant of the block (10_state.md R22, R30; 41_ringbuffer.md R160 to R164; 43_dispatch.md R209). -/
abbrev State.sound (s : State) : Prop :=
  s.params.wf ∧ 1 ≤ s.ports.length ∧ s.ports.length ≤ 64 ∧ s.srb.length ≤ 64 ∧
  (∀ rb ∈ s.srb, rb.sound) ∧ (∀ p ∈ s.ports, p.sound s.params) ∧ s.hostSound = true ∧ s.stopSound

/-! ## Running, stopped and final states -/

/-- The block runs: neither FAULT nor REFUSED is set. -/
abbrev State.running (s : State) : Prop := s.fault.valid = false ∧ s.refused.valid = false

/-- A final state (70_reset_and_hazards.md R317). -/
abbrev State.final (s : State) : Prop :=
  s.running ∧ s.host = .idle ∧
  ∀ p ∈ s.ports, p.dphase = .idle ∧ p.dispatchPending = false ∧ isrEnabled p = false

/-! ## Runs, fairness, far-end premises -/

/-- An endless run: before each step the outside world may give more turns, commands and draws, so an interleaving
need not end (00_scope.md R12, log 15), and each state then steps to the next. Input 0 may hold a whole trace and the
others nothing: then the run is that trace and idle steps. A run that faults or is refused ends, and is no Run. -/
structure Run where
  state : Nat → State
  input : Nat → Input
  steps : ∀ n, step ((state n).given (input n)) = .next (state (n + 1))

/-- Step n of a run is the agent step of this instruction. -/
def Run.takes (r : Run) (n : Nat) (i : Instr) : Prop :=
  ∃ w, ((r.state n).given (r.input n)).turns.head? = some (.agent w) ∧ decodeEvent w = some i

/-- Property q of port p in the n-th state; false where there is no such port. -/
def Run.holds (r : Run) (p n : Nat) (q : Port → Bool) : Bool := ((r.state n).ports[p]?).any q

/-- DISPATCH(p) is weakly fair while it is requested or mid-run: a requested run eventually starts, and a started run
eventually takes its next micro-step (43_dispatch.md R200). -/
def DispatchFair (r : Run) (p : Nat) : Prop :=
  ∀ n, (∀ m, n ≤ m → r.holds p m (fun x =>
      dispatchEnabled x && (x.dispatchPending || decide (x.dphase ≠ .idle))) = true) →
    ∃ m, n ≤ m ∧ r.takes m (.evDispatch p)

/-- ISR(p) is weakly fair: while it stays enabled it is eventually taken (60_exceptions.md R269). -/
def IsrFair (r : Run) (p : Nat) : Prop :=
  ∀ n, (∀ m, n ≤ m → r.holds p m isrEnabled = true) → ∃ m, n ≤ m ∧ r.takes m (.evIsr p)

/-- The linger budget expires: no run stays in LINGER through endlessly many of its micro-steps, so the draw
`expired` is eventually true while the run stays there (43_dispatch.md R203). -/
def LingerExpires (r : Run) (p : Nat) : Prop :=
  ¬ ∃ n, (∀ m, n ≤ m → r.holds p m (fun x => decide (x.dphase = .linger)) = true) ∧
    ∀ m, n ≤ m → ∃ k, m ≤ k ∧ r.takes k (.evDispatch p)

/-- The fairness the spec gives every run (43_dispatch.md R200, R203, 60_exceptions.md R269): DISPATCH, ISR and the
linger budget of every port. The HOST and the LINE agents have none (44_line_flow.md R230). -/
def Run.fair (r : Run) : Prop := ∀ p, DispatchFair r p ∧ IsrFair r p ∧ LingerExpires r p

/-- The premise FarEndHonoursRTS(p) (44_line_flow.md R242). -/
def FarEndHonoursRTS (r : Run) (p : Nat) : Prop :=
  ∀ n b, r.takes n (.evLineRx p b) → r.holds p n (rtsOut (r.state n).params) = false

/-- How many bytes followed the XOFF the far end has last seen and no XON has lifted; none if it is not held. -/
def sinceXoff (P : Params) : Option Nat → List Byte → Option Nat
  | c, [] => c
  | c, b :: bs =>
    sinceXoff P (if b = P.xonChar then none
      else match c with
        | some k => some (k + 1)
        | none => if b = P.xoffChar then some 0 else none) bs

/-- Whether k bytes have followed such an XOFF on the line. -/
def xoffHolds (P : Params) (k : Nat) (wire : List Byte) : Bool :=
  (sinceXoff P none wire).any fun n => decide (k ≤ n)

/-- The premise FarEndHonoursXOFF(p, k) (44_line_flow.md R242). -/
def FarEndHonoursXOFF (r : Run) (p k : Nat) : Prop :=
  ∀ n b, r.takes n (.evLineRx p b) → r.holds p n (fun x => xoffHolds (r.state n).params k x.wireOut) = false

end Sys2Proof.Machine
end

