-- ==== Sys2Proof/Certificates/Slice0/Obligations.lean ====
section
/-! DEFINITION. The statements about the model. The words they use stand first (namespace Sys2Proof.Claims), written
from the spec's tables; the statements follow. A statement that rests on a choice of the model's own names the log
entry. Draws are free values: a statement about them holds for every value (log 3). -/

namespace Sys2Proof.Claims

open Sys2Proof.Machine

/-! ## Words -/

/-- The HOST may issue a command: the block runs and `host = IDLE`. -/
abbrev ready (s : State) : Prop := s.running ∧ s.host = .idle

/-- The state a fault leaves (60_exceptions.md R261). -/
def faulted (s : State) (code : BitVec 8) (w : Word) : State :=
  { s with fault := { valid := true, code := code, word := w } }

/-- The result `{status = OK}` with the given values; every other field 0 or empty (30_encoding.md R110). -/
def okResult (v0 v1 : Word) (bs : List Byte) : Result :=
  { status := .ok, detail := 0, v0 := v0, v1 := v1, data := .bytes bs }

/-- A result of another status and detail. -/
def errResult (st : Status) (detail : BitVec 8) : Result :=
  { status := st, detail := detail, v0 := 0, v1 := 0, data := .bytes [] }

/-- The state with port `sel`'s record replaced. -/
abbrev withPort (s : State) (sel : Nat) (p : Port) : State := { s with ports := s.ports.set sel p }

/-- The state with instance `sel`'s registers replaced. -/
abbrev withRb (s : State) (sel : Nat) (rb : RingBuffer) : State := { s with srb := s.srb.set sel rb }

/-- The HOST received one more result. -/
def returned (s : State) (r : Result) : State := { s with results := s.results ++ [r] }

/-- The codes of the HOST's commands (30_encoding.md R105). -/
def hostOps : List Nat :=
  [0x01, 0x02, 0x03, 0x04, 0x05, 0x06, 0x07, 0x08, 0x09, 0x0A, 0x10, 0x11, 0x12, 0x13, 0x14, 0x15, 0x16]

/-- The IMM bits a HOST command requires to be 0 (30_encoding.md R103). -/
def mustBeZero (op : Nat) : Nat :=
  if op ∈ [0x02, 0x03, 0x09, 0x10, 0x11, 0x15, 0x16] then 0xFFFF
  else if op = 0x05 then 0xFF00
  else if op = 0x12 then 0xFFFE
  else 0

/-- A word that is illegal from the HOST: OP, SUB, or a must-be-0 IMM bit (30_encoding.md R106, R107). -/
def illegalFromHost (w : Word) : Prop :=
  opField w ∉ hostOps ∨ subField w ≠ 0 ∨ immField w &&& mustBeZero (opField w) ≠ 0

/-- The payload a HOST command requires, in bytes (30_encoding.md R104; six 32-bit words are 24 bytes). -/
def requiredPayload (w : Word) : Nat :=
  if opField w ∈ [0x04, 0x0A, 0x13] then immField w else if opField w = 0x10 then 24 else 0

/-- The instance an RB command selects. -/
def rbSelector : Instr → Option Nat
  | .rbInit sel _ | .rbDeinit sel | .rbClear sel | .rbAppend sel _ | .rbAppendOne sel _ | .rbAt sel _
  | .rbGet sel _ | .rbConsume sel _ | .rbContigTailSpace sel | .rbAdvanceTail sel _ => some sel
  | _ => none

/-- The port a UART command selects. -/
def uartSelector : Instr → Option Nat
  | .uartConfigure sel _ | .uartDeinit sel | .uartSetRxEnabled sel _ | .uartWrite sel _ | .uartRead sel _
  | .uartFlush sel | .uartGetStats sel => some sel
  | _ => none

/-- The port of an agent's event. -/
def eventSelector : Instr → Option Nat
  | .evIsr sel | .evDispatch sel | .evLineRx sel _ | .evLineTxLoad sel | .evLineTxDone sel | .evCts sel _
  | .evRxTimeout sel => some sel
  | _ => none

/-- The prologue of an RB command other than RB_INIT (41_ringbuffer.md R130): the instance exists, and is allocated. -/
def RbPrologue (f : Nat → Instr) : Prop :=
  ∀ (s : State) (sel : Nat), ready s →
    (s.srb.length ≤ sel → exec (f sel) s = .next (faulted s 0x03 (encodeWord (f sel)))) ∧
    (∀ rb, s.srb[sel]? = some rb → rb.alloc = false →
      exec (f sel) s = .next (faulted s 0x06 (encodeWord (f sel))))

/-- The prologue of a UART command other than UART_CONFIGURE (42_uart_host.md R170): the port exists, and is
configured. -/
def UartPrologue (f : Nat → Instr) : Prop :=
  ∀ (s : State) (sel : Nat), ready s →
    (s.ports.length ≤ sel → exec (f sel) s = .next (faulted s 0x04 (encodeWord (f sel)))) ∧
    (∀ p, s.ports[sel]? = some p → p.phase = .uninit →
      exec (f sel) s = .next (faulted s 0x05 (encodeWord (f sel))))

/-- The word with these fields, SUB = 0 (30_encoding.md R100). -/
def wordOf (op sel imm : Nat) : Word := BitVec.ofNat 32 (op * 2 ^ 26 + sel * 2 ^ 20 + imm)

/-- `rb'` is `rb` with `data` committed at its tail (41_ringbuffer.md R134, R140): the bookkeeping, each byte at its
index modulo the capacity, and every other index as before. -/
def Committed (rb rb' : RingBuffer) (data : List Byte) (resv : Option Nat) : Prop :=
  rb' = { rb with store := rb'.store, tail := (rb.tail + data.length) % rb.cap, used := rb.used + data.length,
                  avail := rb.avail - data.length, resv := resv } ∧
  (∀ k b, data[k]? = some b → Memory.read rb'.store ((rb.tail + k) % rb.cap) = b) ∧
  (∀ a, (∀ k, k < data.length → a ≠ (rb.tail + k) % rb.cap) →
    Memory.read rb'.store a = Memory.read rb.store a)

/-- The reservation after an append of `data` (41_ringbuffer.md R134). -/
def resvAfterAppend (rb : RingBuffer) (data : List Byte) : Option Nat := if data.length > 0 then none else rb.resv

/-- What removing `n` bytes from the head leaves (41_ringbuffer.md R138): everything else as before, but that an
emptied buffer has head = tail = 0. -/
def Removed (rb rb' : RingBuffer) (n : Nat) : Prop :=
  rb'.alloc = rb.alloc ∧ rb'.cap = rb.cap ∧ rb'.store = rb.store ∧ rb'.used = rb.used - n ∧
  rb'.avail = rb.avail + n ∧
  (rb.used - n = 0 → rb'.head = 0 ∧ rb'.tail = 0) ∧
  (rb.used - n ≠ 0 → rb'.head = (rb.head + n) % rb.cap ∧ rb'.tail = rb.tail)

/-- The nine checks of 42_uart_host.md R171, each with its detail code. -/
def checks (P : Params) (c : CfgWords) : List (Nat × Bool) :=
  [ (1, decide (bitField c.w1 12 20 ≠ 0 ∨ bitField c.w3 16 16 ≠ 0)),
    (2, decide (c.w0.toNat < P.baudMin ∨ c.w0.toNat > P.baudMax)),
    (3, decide (bitField c.w1 0 4 ∉ [5, 6, 7, 8])),
    (4, decide (bitField c.w1 4 2 = 3)),
    (5, decide (bitField c.w1 6 2 = 3)),
    (6, decide (bitField c.w1 8 2 = 3 ∨ bitField c.w1 10 2 = 3)),
    (7, decide (bitField c.w2 0 16 = 0 ∨ bitField c.w2 16 16 = 0)),
    (8, decide (bitField c.w1 8 2 ≠ 0 ∧ bitField c.w4 16 16 < bitField c.w4 0 16)),
    (9, decide (bitField c.w3 0 16 > 200)) ]

/-- The detail codes of the checks that fail, in the order of the checks. -/
def failing (P : Params) (c : CfgWords) : List Nat := ((checks P c).filter fun x => x.2).map fun x => x.1

/-- The codes of 30_encoding.md R109. -/
def parityCode : Parity → Nat
  | .none => 0 | .even => 1 | .odd => 2
/-- The codes of 30_encoding.md R109. -/
def stopCode : StopBits → Nat
  | .one => 0 | .oneHalf => 1 | .two => 2
/-- The codes of 30_encoding.md R109. -/
def flowCode : FlowControl → Nat
  | .none => 0 | .hardware => 1 | .software => 2

/-- `cfg` is the record the payload words hold (30_encoding.md R108, R109). -/
def Holds (c : CfgWords) (cfg : PortCfg) : Prop :=
  cfg.baudRate = c.w0.toNat ∧ cfg.numDataBits = bitField c.w1 0 4 ∧ parityCode cfg.parity = bitField c.w1 4 2 ∧
  stopCode cfg.stopBits = bitField c.w1 6 2 ∧ flowCode cfg.rxFlowControl = bitField c.w1 8 2 ∧
  flowCode cfg.txFlowControl = bitField c.w1 10 2 ∧ cfg.rxBufSize = bitField c.w2 0 16 ∧
  cfg.txBufSize = bitField c.w2 16 16 ∧ cfg.rxLingerMicros = bitField c.w3 0 16 ∧
  cfg.rxFifoFullThresh = bitField c.w4 0 16 ∧ cfg.rxFifoFcThresh = bitField c.w4 16 16 ∧
  cfg.rxFifoAlarm = bitField c.w5 0 16 ∧ cfg.txFifoEmptyThresh = bitField c.w5 16 16

/-- Configure and deinit need not wait: the port is UNINIT or its dispatcher is IDLE (42_uart_host.md R172, R177). -/
abbrev noHold (p : Port) : Prop := p.phase = .uninit ∨ p.dphase = .idle

/-- A freshly initialised buffer of a capacity (41_ringbuffer.md R131). -/
def Fresh (rb : RingBuffer) (cap : Nat) : Prop :=
  rb = { alloc := true, cap := cap, store := rb.store, used := 0, avail := cap, inFlight := 0, head := 0, tail := 0,
         resv := none } ∧ ∀ i, Memory.read rb.store i = 0

/-- A device whose FIFOs, shifter, latches and corrupt mark are cleared and whose INT_ENA is `e`
(42_uart_host.md R173, R174, R177). -/
def cleared (v : Device) (e : BitVec 4) : Device :=
  { v with rxf := [], txf := [], txsh := none, intEna := e, ovfLatch := false, ctsLatch := false,
           toutLatch := false, rxCorrupt := false }

/-- `p'` is `p` shut down (42_uart_host.md R174, R177): both buffers unallocated, cfg of no value, the rest as
listed there, and nothing else changed. -/
def ShutDown (p p' : Port) : Prop :=
  p' = { p with cfg := p'.cfg, rx := p'.rx, tx := p'.tx, dev := cleared p.dev 0, rxEnabled := false,
                xoffSent := false, dispatchPending := false, registered := false, phase := .uninit } ∧
  p'.rx.alloc = false ∧ p'.rx.resv = none ∧ p'.tx.alloc = false ∧ p'.tx.resv = none

/-- `t` is what a write step of the port leaves of `s` (42_uart_host.md R179): `k` bytes of `rem` are appended, the
dispatcher is scheduled, a CONFIGURED port runs, and the HOST returns `total` or keeps the rest. -/
def WriteStepGives (s t : State) (sel : Nat) (p : Port) (rem : List Byte) (total k : Nat) : Prop :=
  ∃ tx', Committed p.tx tx' (rem.take k) none ∧
    t = { s with
      ports := s.ports.set sel { p with tx := tx', dispatchPending := true, phase := .running }
      host := if k = rem.length then .idle else .write sel (rem.drop k) total
      results := if k = rem.length then s.results ++ [okResult (BitVec.ofNat 32 total) 0 []] else s.results }

/-- One operation on an instance, for sequences of them (41_ringbuffer.md R165). -/
inductive RbOp where
  | append (data : List Byte)
  | appendOne (b : Byte)
  | get (max : Nat)
  | consume (len : Nat)
  | contigTailSpace
  | advanceTail (data : List Byte)
  deriving DecidableEq, Repr

/-- An instance and the bytes put in and taken out so far, in order. -/
structure RbTrace where
  rb  : RingBuffer
  put : List Byte
  got : List Byte

/-- One operation; a fault ends the sequence. -/
def RbTrace.op (t : RbTrace) : RbOp → Except FaultCode RbTrace
  | .append data => (rbAppend data t.rb).map fun rb => { t with rb := rb, put := t.put ++ data }
  | .appendOne b => (rbAppendOne b t.rb).map fun rb => { t with rb := rb, put := t.put ++ [b] }
  | .get max => .ok { t with rb := (rbGet max t.rb).1 }
  | .consume len => (rbConsume len t.rb).map fun rb =>
      { t with rb := rb, got := t.got ++ (rbContents t.rb).take len }
  | .contigTailSpace => .ok { t with rb := rbContigTailSpace t.rb }
  | .advanceTail data => (rbAdvanceTail data t.rb).map fun rb => { t with rb := rb, put := t.put ++ data }

/-- A sequence of operations. -/
def RbTrace.ops (t : RbTrace) : List RbOp → Except FaultCode RbTrace
  | [] => .ok t
  | o :: os => match t.op o with
    | .ok t' => RbTrace.ops t' os
    | .error c => .error c

/-- The bytes of a port on their way out that the line has or will take before the ring buffer's: on the wire, in the
shifter, in the TX FIFO; those not yet on the wire as the wire will show them. -/
def txAhead (p : Port) : List Byte :=
  p.wireOut ++ (p.dev.txsh.toList ++ p.dev.txf).map fun b => b &&& dmask p.dev.frame

/-- The bytes of the TX ring buffer the dispatcher has not copied yet, as the wire will show them. -/
def txBehind (p : Port) : List Byte :=
  ((rbContents p.tx).drop p.tx.inFlight).map fun b => b &&& dmask p.dev.frame

/-- The bytes of a port on their way in: in the RX ring buffer, then in the RX FIFO. -/
def rxStream (p : Port) : List Byte := rbContents p.rx ++ p.dev.rxf

/-- The turn of a step is the DISPATCH(q) step. -/
def turnIsDispatch (s : State) (q : Nat) : Prop :=
  ∃ w, s.turns.head? = some (.agent w) ∧ decodeEvent w = some (.evDispatch q)

/-- The turn of a step is the ISR(q) step. -/
def turnIsIsr (s : State) (q : Nat) : Prop :=
  ∃ w, s.turns.head? = some (.agent w) ∧ decodeEvent w = some (.evIsr q)

/-- The turn of a step is the HOST's, issuing a command on port q. -/
def turnIssues (s : State) (q : Nat) (i : Instr) : Prop :=
  s.turns.head? = some .host ∧ s.host = .idle ∧
  (∃ c, s.hostq.head? = some c ∧ decodeHost c.word c.payload = .ok i) ∧ uartSelector i = some q

end Sys2Proof.Claims

open Sys2Proof Sys2Proof.Machine Sys2Proof.Claims

/-! ## Encoding -/

/-- Every well-formed instruction, encoded and decoded, comes back (30_encoding.md R100, R103, R104, R105, R112; the
bytes of a word as log 10 reads 20_memory.md R74). -/
def Obligations.EncodeThenDecode : Prop :=
  ∀ i : Instr, i.wellFormed = true → decode (encode i) = .ok i

/-- Bytes that decode are the encoding of the instruction they decode to: each command has one frame (its bytes as
log 10 reads 20_memory.md R74). -/
def Obligations.DecodeThenEncode : Prop :=
  ∀ (bs : List Byte) (i : Instr), decode bs = .ok i → i.wellFormed = true ∧ encode i = bs

/-- The opcode map (30_encoding.md R105): the word of each operation, its fields written in place, decodes to that
operation with SEL and IMM as its operands, and an OP outside the map is illegal. That UART_CONFIGURE's six payload
words are 24 bytes, each word's least significant byte first, is the model's reading of 20_memory.md R74 (log 10). -/
def Obligations.OpcodeMapDecodes : Prop :=
  (∀ sel, sel < 64 →
    (∀ n, n < 65536 →
      decodeFrame (wordOf 0x01 sel n) [] = .ok (.rbInit sel n) ∧
      decodeFrame (wordOf 0x06 sel n) [] = .ok (.rbAt sel n) ∧
      decodeFrame (wordOf 0x07 sel n) [] = .ok (.rbGet sel n) ∧
      decodeFrame (wordOf 0x08 sel n) [] = .ok (.rbConsume sel n) ∧
      decodeFrame (wordOf 0x14 sel n) [] = .ok (.uartRead sel n)) ∧
    (∀ data : List Byte, data.length < 65536 →
      decodeFrame (wordOf 0x04 sel data.length) data = .ok (.rbAppend sel data) ∧
      decodeFrame (wordOf 0x0A sel data.length) data = .ok (.rbAdvanceTail sel data) ∧
      decodeFrame (wordOf 0x13 sel data.length) data = .ok (.uartWrite sel data)) ∧
    (∀ b : Byte,
      decodeFrame (wordOf 0x05 sel b.toNat) [] = .ok (.rbAppendOne sel b) ∧
      decodeFrame (wordOf 0x22 sel b.toNat) [] = .ok (.evLineRx sel b)) ∧
    (∀ b : Bool,
      decodeFrame (wordOf 0x12 sel b.toNat) [] = .ok (.uartSetRxEnabled sel b) ∧
      decodeFrame (wordOf 0x25 sel b.toNat) [] = .ok (.evCts sel b)) ∧
    (∀ c : CfgWords, decodeFrame (wordOf 0x10 sel 0)
      (wordBytes c.w0 ++ wordBytes c.w1 ++ wordBytes c.w2 ++ wordBytes c.w3 ++ wordBytes c.w4 ++ wordBytes c.w5)
      = .ok (.uartConfigure sel c)) ∧
    decodeFrame (wordOf 0x02 sel 0) [] = .ok (.rbDeinit sel) ∧
    decodeFrame (wordOf 0x03 sel 0) [] = .ok (.rbClear sel) ∧
    decodeFrame (wordOf 0x09 sel 0) [] = .ok (.rbContigTailSpace sel) ∧
    decodeFrame (wordOf 0x11 sel 0) [] = .ok (.uartDeinit sel) ∧
    decodeFrame (wordOf 0x15 sel 0) [] = .ok (.uartFlush sel) ∧
    decodeFrame (wordOf 0x16 sel 0) [] = .ok (.uartGetStats sel) ∧
    decodeFrame (wordOf 0x20 sel 0) [] = .ok (.evIsr sel) ∧
    decodeFrame (wordOf 0x21 sel 0) [] = .ok (.evDispatch sel) ∧
    decodeFrame (wordOf 0x23 sel 0) [] = .ok (.evLineTxLoad sel) ∧
    decodeFrame (wordOf 0x24 sel 0) [] = .ok (.evLineTxDone sel) ∧
    decodeFrame (wordOf 0x26 sel 0) [] = .ok (.evRxTimeout sel)) ∧
  ∀ (w : Word) (payload : List Byte), opField w ∉ hostOps → opField w ∉ [0x20, 0x21, 0x22, 0x23, 0x24, 0x25, 0x26] →
    decodeFrame w payload = .error .illegalCommand

/-- Words written out from 30_encoding.md R100 and R105, and the instructions they stand for. The bytes of a word
stand least significant first, the model's reading of 20_memory.md R74 (log 10). -/
def Obligations.SampleWordsDecode : Prop :=
  decode [0x08, 0x00, 0x00, 0x04] = .ok (.rbInit 0 8) ∧
  decode [0x02, 0x00, 0x00, 0x28, 0xAA, 0xBB] = .ok (.rbAdvanceTail 0 [0xAA, 0xBB]) ∧
  decode [0x01, 0x00, 0x10, 0x48] = .ok (.uartSetRxEnabled 1 true) ∧
  decode [0x31, 0x00, 0x10, 0x88] = .ok (.evLineRx 1 0x31) ∧
  decode [0x00, 0x00, 0x00, 0x80] = .ok (.evIsr 0) ∧
  decode [0x00, 0x00, 0x00, 0x00] = .error .illegalCommand

/-- A word that is illegal from the HOST faults F_ILLEGAL_COMMAND before any other check: whatever its payload, its
selector and the state of what it selects (30_encoding.md R102, R106). That the command and the turn are then spent
is the model's choice (logs 1 and 7). -/
def Obligations.HostIllegalWordFaults : Prop :=
  ∀ (s : State) (c : Command) (q : List Command) (ts : List Turn),
    ready s → s.hostq = c :: q → s.turns = .host :: ts → illegalFromHost c.word →
    step s = .next (faulted { s with hostq := q, turns := ts } 0x01 c.word)

/-- A legal command whose payload length differs from the required one faults F_PAYLOAD_LENGTH
(30_encoding.md R104). That UART_CONFIGURE's six words are 24 bytes is the model's reading (log 10), and that the
command and the turn are then spent is its choice (logs 1 and 7). -/
def Obligations.HostPayloadLengthFaults : Prop :=
  ∀ (s : State) (c : Command) (q : List Command) (ts : List Turn),
    ready s → s.hostq = c :: q → s.turns = .host :: ts → ¬ illegalFromHost c.word →
    c.payload.length ≠ requiredPayload c.word →
    step s = .next (faulted { s with hostq := q, turns := ts } 0x02 c.word)

/-! ## The step -/

/-- A step runs the instruction its turn decodes to: the HOST's next command when the HOST is IDLE, moved past that
command and that turn (the turns are the model's choice, log 1), unless the command holds for a dispatcher, when only
the turn passes and the command stays the next one (the model's reading of a hold, log 20). -/
def Obligations.StepRunsHostCommand : Prop :=
  ∀ (s : State) (c : Command) (q : List Command) (ts : List Turn) (i : Instr),
    ready s → s.hostq = c :: q → s.turns = .host :: ts → decodeHost c.word c.payload = .ok i →
    (commandHolds i s = false → step s = exec i { s with hostq := q, turns := ts }) ∧
    (commandHolds i s = true → step s = .next { s with turns := ts })

/-- A step runs the event of the agent whose turn it is, whatever the HOST is doing, moved past that turn. A word with
an event's OP that decoding rejects faults F_ILLEGAL_COMMAND, and a word of any other OP is no agent's (the model's
reading, log 19). -/
def Obligations.StepRunsAgentEvent : Prop :=
  ∀ (s : State) (w : Word) (ts : List Turn), s.running → s.turns = .agent w :: ts →
    (∀ i, decodeEvent w = some i → step s = exec i { s with turns := ts }) ∧
    (0x20 ≤ opField w → decodeEvent w = none → step s = .next (faulted { s with turns := ts } 0x01 w)) ∧
    (opField w < 0x20 → step s = .refused (.notAnAgentEvent w))

/-- The HOST's turn during a WRITE or FLUSH goes on with it, and takes no command (10_state.md R46, 42_uart_host.md
R184); with no turn, or with no command to issue, nothing happens (the model's choice, log 1). -/
def Obligations.StepContinuesOrIdles : Prop :=
  ∀ (s : State) (ts : List Turn), s.running →
    (s.turns = .host :: ts → s.host ≠ .idle → step s = .next (hostContinue { s with turns := ts })) ∧
    (s.turns = .host :: ts → s.host = .idle → s.hostq = [] → step s = .next { s with turns := ts }) ∧
    (s.turns = [] → step s = .next s)

/-- After a fault or a refusal no agent has a step: neither an instruction nor a turn runs (60_exceptions.md R261,
R262; that both then answer a fault of the model's is its own form, log 7). -/
def Obligations.StoppedBlockHasNoStep : Prop :=
  ∀ s : State,
    (s.fault.valid = true → step s = .fault .stoppedByFault ∧ ∀ i, exec i s = .fault .stoppedByFault) ∧
    (s.fault.valid = false → s.refused.valid = true →
      step s = .fault .stoppedByRefusal ∧ ∀ i, exec i s = .fault .stoppedByRefusal)

/-- A selector out of range faults F_BAD_INSTANCE for an RB command and F_BAD_PORT for a port command and for an event
(30_encoding.md R101; the event's case rests on log 8). -/
def Obligations.SelectorOutOfRangeFaults : Prop :=
  ∀ (s : State) (i : Instr) (sel : Nat), s.running →
    (rbSelector i = some sel → s.host = .idle → s.srb.length ≤ sel →
      exec i s = .next (faulted s 0x03 (encodeWord i))) ∧
    (uartSelector i = some sel → s.host = .idle → s.ports.length ≤ sel →
      exec i s = .next (faulted s 0x04 (encodeWord i))) ∧
    (eventSelector i = some sel → s.ports.length ≤ sel → exec i s = .next (faulted s 0x04 (encodeWord i)))

/-! ## Ring-buffer commands -/

/-- RB_INIT (41_ringbuffer.md R131): its two faults, the allocation failure, and the empty buffer over zeros. -/
def Obligations.RbInitResult : Prop :=
  (∀ (s : State) (sel cap : Nat), ready s → s.srb.length ≤ sel →
    exec (.rbInit sel cap) s = .next (faulted s 0x03 (encodeWord (.rbInit sel cap)))) ∧
  ∀ (s : State) (sel cap : Nat) (rb : RingBuffer), ready s → s.srb[sel]? = some rb →
    (rb.alloc = true → exec (.rbInit sel cap) s = .next (faulted s 0x07 (encodeWord (.rbInit sel cap)))) ∧
    (rb.alloc = false → cap = 0 →
      exec (.rbInit sel cap) s = .next (faulted s 0x08 (encodeWord (.rbInit sel cap)))) ∧
    (rb.alloc = false → cap ≠ 0 → s.draws.bool = false →
      exec (.rbInit sel cap) s = .next (returned { s with draws := s.draws.pop } (errResult .errAlloc 0))) ∧
    (rb.alloc = false → cap ≠ 0 → s.draws.bool = true → ∃ rb', Fresh rb' cap ∧
      exec (.rbInit sel cap) s
        = .next (returned (withRb { s with draws := s.draws.pop } sel rb') (okResult 0 0 [])))

/-- RB_DEINIT (41_ringbuffer.md R132): the instance is unallocated and holds no reservation; its other registers hold
no value a rule may read, and nothing else changes. -/
def Obligations.RbDeinitResult : Prop :=
  RbPrologue (fun sel => .rbDeinit sel) ∧
  ∀ (s : State) (sel : Nat) (rb : RingBuffer), ready s → s.srb[sel]? = some rb → rb.alloc = true →
    ∃ rb', rb'.alloc = false ∧ rb'.resv = none ∧
      exec (.rbDeinit sel) s = .next (returned (withRb s sel rb') (okResult 0 0 []))

/-- RB_CLEAR (41_ringbuffer.md R133): the buffer is emptied and its store is not touched. -/
def Obligations.RbClearResult : Prop :=
  RbPrologue (fun sel => .rbClear sel) ∧
  ∀ (s : State) (sel : Nat) (rb : RingBuffer), ready s → s.srb[sel]? = some rb → rb.alloc = true →
    exec (.rbClear sel) s = .next (returned (withRb s sel
      { rb with used := 0, inFlight := 0, avail := rb.cap, head := 0, tail := 0, resv := none }) (okResult 0 0 []))

/-- RB_APPEND (41_ringbuffer.md R134): F_RB_OVERRUN when the bytes do not fit, else they are committed at the tail,
and every other index of the store reads as before. -/
def Obligations.RbAppendResult : Prop :=
  (∀ data, RbPrologue fun sel => .rbAppend sel data) ∧
  ∀ (s : State) (sel : Nat) (data : List Byte) (rb : RingBuffer), ready s → s.srb[sel]? = some rb → rb.live →
    (rb.avail < data.length →
      exec (.rbAppend sel data) s = .next (faulted s 0x09 (encodeWord (.rbAppend sel data)))) ∧
    (data.length ≤ rb.avail → ∃ rb', Committed rb rb' data (resvAfterAppend rb data) ∧
      exec (.rbAppend sel data) s = .next (returned (withRb s sel rb') (okResult 0 0 [])))

/-- RB_APPEND_ONE (41_ringbuffer.md R135): append of the one byte, F_RB_OVERRUN when avail = 0. -/
def Obligations.RbAppendOneResult : Prop :=
  (∀ b, RbPrologue fun sel => .rbAppendOne sel b) ∧
  ∀ (s : State) (sel : Nat) (b : Byte) (rb : RingBuffer), ready s → s.srb[sel]? = some rb → rb.live →
    (rb.avail = 0 → exec (.rbAppendOne sel b) s = .next (faulted s 0x09 (encodeWord (.rbAppendOne sel b)))) ∧
    (1 ≤ rb.avail → ∃ rb', Committed rb rb' [b] none ∧
      exec (.rbAppendOne sel b) s = .next (returned (withRb s sel rb') (okResult 0 0 [])))

/-- RB_AT (41_ringbuffer.md R136): the stored byte below `used`, a draw below the capacity, F_RB_INDEX beyond; no
register changes. That each RB_AT beyond `used` takes a fresh draw, which is then spent, is the model's choice beside
20_memory.md R79 (log 26). -/
def Obligations.RbAtResult : Prop :=
  (∀ index, RbPrologue fun sel => .rbAt sel index) ∧
  ∀ (s : State) (sel index : Nat) (rb : RingBuffer), ready s → s.srb[sel]? = some rb → rb.alloc = true →
    (index < rb.used → exec (.rbAt sel index) s = .next (returned s
      (okResult ((Memory.read rb.store ((rb.head + index) % rb.cap)).setWidth 32) 0 []))) ∧
    (rb.used ≤ index → index < rb.cap → exec (.rbAt sel index) s
      = .next (returned { s with draws := s.draws.pop } (okResult (s.draws.byte.setWidth 32) 0 []))) ∧
    (rb.used ≤ index → rb.cap ≤ index →
      exec (.rbAt sel index) s = .next (faulted s 0x0C (encodeWord (.rbAt sel index))))

/-- RB_GET (41_ringbuffer.md R137): the span starts right after the in-flight region, stops at max, at the last byte
not in flight and at the wrap point, and becomes in flight; nothing else changes. -/
def Obligations.RbGetResult : Prop :=
  (∀ max, RbPrologue fun sel => .rbGet sel max) ∧
  ∀ (s : State) (sel max : Nat) (rb : RingBuffer), ready s → s.srb[sel]? = some rb → rb.alloc = true →
    ∀ start n, start = (rb.head + rb.inFlight) % rb.cap →
    n = min max (min (rb.used - rb.inFlight) (rb.cap - start)) →
    exec (.rbGet sel max) s = .next (returned
      (withRb s sel { rb with inFlight := rb.inFlight + n })
      (okResult (BitVec.ofNat 32 n) (BitVec.ofNat 32 start)
        ((List.range n).map fun k => Memory.read rb.store (start + k))))

/-- RB_CONSUME (41_ringbuffer.md R138): its two faults in their order; else the bytes leave from the head, and an
emptied buffer has head = tail = 0, its reservation cancelled exactly when tail moved. -/
def Obligations.RbConsumeResult : Prop :=
  (∀ len, RbPrologue fun sel => .rbConsume sel len) ∧
  ∀ (s : State) (sel len : Nat) (rb : RingBuffer), ready s → s.srb[sel]? = some rb → rb.alloc = true →
    (rb.used < len →
      exec (.rbConsume sel len) s = .next (faulted s 0x0A (encodeWord (.rbConsume sel len)))) ∧
    (len ≤ rb.used → rb.inFlight < len →
      exec (.rbConsume sel len) s = .next (faulted s 0x0B (encodeWord (.rbConsume sel len)))) ∧
    (len ≤ rb.used → len ≤ rb.inFlight → ∃ rb', Removed rb rb' len ∧ rb'.inFlight = rb.inFlight - len ∧
      rb'.resv = (if rb.used = len ∧ rb.tail ≠ 0 then none else rb.resv) ∧
      exec (.rbConsume sel len) s = .next (returned (withRb s sel rb') (okResult 0 0 [])))

/-- RB_CONTIG_TAIL_SPACE (41_ringbuffer.md R139): the contiguous free bytes from tail, recorded as the reservation;
nothing else changes. -/
def Obligations.RbContigTailSpaceResult : Prop :=
  RbPrologue (fun sel => .rbContigTailSpace sel) ∧
  ∀ (s : State) (sel n : Nat) (rb : RingBuffer), ready s → s.srb[sel]? = some rb → rb.alloc = true →
    (rb.used = rb.cap → n = 0) → (rb.used ≠ rb.cap → rb.head ≤ rb.tail → n = rb.cap - rb.tail) →
    (rb.used ≠ rb.cap → rb.tail < rb.head → n = rb.head - rb.tail) →
    exec (.rbContigTailSpace sel) s = .next (returned (withRb s sel { rb with resv := some n })
      (okResult (BitVec.ofNat 32 n) (BitVec.ofNat 32 rb.tail) []))

/-- RB_ADVANCE_TAIL (41_ringbuffer.md R140): F_RB_NO_RESERVATION, then F_RB_OVERRUN, else the bytes are committed at
the tail and the reservation is spent. -/
def Obligations.RbAdvanceTailResult : Prop :=
  (∀ data, RbPrologue fun sel => .rbAdvanceTail sel data) ∧
  ∀ (s : State) (sel : Nat) (data : List Byte) (rb : RingBuffer), ready s → s.srb[sel]? = some rb → rb.live →
    (rb.resv = none →
      exec (.rbAdvanceTail sel data) s = .next (faulted s 0x0D (encodeWord (.rbAdvanceTail sel data)))) ∧
    (∀ n, rb.resv = some n → n < data.length →
      exec (.rbAdvanceTail sel data) s = .next (faulted s 0x09 (encodeWord (.rbAdvanceTail sel data)))) ∧
    (∀ n, rb.resv = some n → data.length ≤ n → ∃ rb', Committed rb rb' data none ∧
      exec (.rbAdvanceTail sel data) s = .next (returned (withRb s sel rb') (okResult 0 0 [])))

/-- Order and integrity (41_ringbuffer.md R165): over any sequence of operations without a fault, the bytes consumed
and then those held are the bytes held at first and then those put in, in order, nothing lost or duplicated, across
any number of wraps; and a span get returns is the bytes at offsets in_flight.. from head. -/
def Obligations.RbOrderAndIntegrity : Prop :=
  (∀ (rb : RingBuffer) (os : List RbOp) (t : RbTrace), rb.live →
    RbTrace.ops { rb := rb, put := [], got := [] } os = .ok t →
    t.got ++ rbContents t.rb = rbContents rb ++ t.put ∧ t.rb.live) ∧
  (∀ (rb : RingBuffer) (max : Nat), rb.live →
    (rbGet max rb).2.bytes = ((rbContents rb).drop rb.inFlight).take (rbGet max rb).2.n)

/-! ## Port commands -/

/-- Validate answers the detail of the first failing check of the table of 42_uart_host.md R171, and otherwise the
record the payload words hold. -/
def Obligations.ValidateFirstFailingCheck : Prop :=
  ∀ (P : Params) (c : CfgWords), match validate P c with
    | .error d => (failing P c).head? = some d
    | .ok cfg => failing P c = [] ∧ Holds c cfg

/-- UART_CONFIGURE that validation rejects changes nothing and returns the detail; one that passes it with TX software
flow control is refused, and nothing but REFUSED changes (42_uart_host.md R172, R175, R176). -/
def Obligations.ConfigureRejects : Prop :=
  ∀ (s : State) (sel : Nat) (c : CfgWords) (p : Port), ready s → s.ports[sel]? = some p → noHold p →
    (∀ d, validate s.params c = .error d →
      exec (.uartConfigure sel c) s = .next (returned s (errResult .errValidation (BitVec.ofNat 8 d)))) ∧
    (∀ cfg, validate s.params c = .ok cfg → cfg.txFlowControl = .software →
      exec (.uartConfigure sel c) s = .next { s with refused := { valid := true, reason := 0x80 } })

/-- UART_CONFIGURE whose two allocations succeed applies every field of the configuration (42_uart_host.md R173).
BAUD_DIV is the free value BAUD_DIV_FN gives (log 14). -/
def Obligations.ConfigureApplies : Prop :=
  ∀ (s : State) (sel : Nat) (c : CfgWords) (cfg : PortCfg) (p : Port), ready s → s.ports[sel]? = some p → noHold p →
    validate s.params c = .ok cfg → cfg.txFlowControl ≠ .software → s.draws.bool = true →
    s.draws.pop.bool = true →
    ∃ rx tx, Fresh rx cfg.rxBufSize ∧ Fresh tx cfg.txBufSize ∧
      exec (.uartConfigure sel c) s = .next (returned { s with
        draws := s.draws.pop.pop
        ports := s.ports.set sel { p with
          cfg := cfg, rx := rx, tx := tx, registered := true, phase := .configured
          rxEnabled := false, xoffSent := false, dispatchPending := false
          stats := if p.phase = .uninit then
              { ints := 0, rxInts := 0, rxBytes := 0, rxOverflows := 0, rxLingerConts := 0, txInts := 0,
                txBytes := 0, txThrottles := 0 }
            else p.stats
          dev := { cleared p.dev 0b1100#4 with
            baudDiv := Config.baudDivFn cfg.baudRate
            frame := { numDataBits := cfg.numDataBits, parity := cfg.parity, stopBits := cfg.stopBits } } } }
        (okResult 0 0 []))

/-- UART_CONFIGURE whose first or second allocation fails leaves the port UNINIT and returns ERR_ALLOC, and every later
command on the port but configure faults F_NOT_CONFIGURED (42_uart_host.md R174). -/
def Obligations.ConfigureAllocationFails : Prop :=
  ∀ (s : State) (sel : Nat) (c : CfgWords) (cfg : PortCfg) (p : Port), ready s → s.ports[sel]? = some p → noHold p →
    validate s.params c = .ok cfg → cfg.txFlowControl ≠ .software →
    ∃ p', ShutDown p p' ∧
      (∀ t i, ready t → t.ports[sel]? = some p' → uartSelector i = some sel → (∀ k, i ≠ .uartConfigure sel k) →
        exec i t = .next (faulted t 0x05 (encodeWord i))) ∧
      (s.draws.bool = false → exec (.uartConfigure sel c) s = .next (returned
        (withPort { s with draws := s.draws.pop } sel p') (errResult .errAlloc 0))) ∧
      (s.draws.bool = true → s.draws.pop.bool = false → exec (.uartConfigure sel c) s = .next (returned
        (withPort { s with draws := s.draws.pop.pop } sel p') (errResult .errAlloc 0)))

/-- Configure and deinit of a port whose dispatcher is mid-run wait: nothing changes, and the command stays the
HOST's next one (42_uart_host.md R172, R177, R184; log 20). -/
def Obligations.ConfigureAndDeinitWait : Prop :=
  ∀ (s : State) (sel : Nat) (c : CfgWords) (p : Port), ready s → s.ports[sel]? = some p →
    p.phase ≠ .uninit → p.dphase ≠ .idle →
    exec (.uartConfigure sel c) s = .next s ∧ exec (.uartDeinit sel) s = .next s ∧
    ∀ (i : Instr) (k : Command) (q : List Command) (ts : List Turn),
      i = .uartConfigure sel c ∨ i = .uartDeinit sel → s.hostq = k :: q → s.turns = .host :: ts →
      decodeHost k.word k.payload = .ok i → step s = .next { s with turns := ts }

/-- UART_DEINIT (42_uart_host.md R177): mid-run it holds, which leaves the state unchanged (the model's reading of a
hold, log 20); else the port is shut down; the statistics, the line's record and every other port keep what they
hold. -/
def Obligations.UartDeinitResult : Prop :=
  UartPrologue (fun sel => .uartDeinit sel) ∧
  ∀ (s : State) (sel : Nat) (p : Port), ready s → s.ports[sel]? = some p → p.phase ≠ .uninit →
    (p.dphase ≠ .idle → exec (.uartDeinit sel) s = .next s) ∧
    (p.dphase = .idle → ∃ p', ShutDown p p' ∧
      exec (.uartDeinit sel) s = .next (returned (withPort s sel p') (okResult 0 0 [])))

/-- UART_SET_RX_ENABLED (42_uart_host.md R178): the flag, the schedule request and the phase; INT_ENA, the buffers and
the FIFOs keep what they hold. -/
def Obligations.UartSetRxEnabledResult : Prop :=
  (∀ b, UartPrologue fun sel => .uartSetRxEnabled sel b) ∧
  ∀ (s : State) (sel : Nat) (b : Bool) (p : Port), ready s → s.ports[sel]? = some p → p.phase ≠ .uninit →
    exec (.uartSetRxEnabled sel b) s = .next (returned (withPort s sel
      { p with rxEnabled := b, dispatchPending := true, phase := .running }) (okResult 0 0 []))

/-- UART_WRITE (42_uart_host.md R179): nothing to write returns at once; with no space the HOST waits; else as many
bytes as fit are appended, in the issue step and in each later HOST step, until all are and the length is returned. -/
def Obligations.UartWriteResult : Prop :=
  (∀ data, UartPrologue fun sel => .uartWrite sel data) ∧
  ∀ (s : State) (sel : Nat) (data : List Byte) (p : Port), s.running → s.ports[sel]? = some p →
    p.phase ≠ .uninit → p.tx.live →
    (s.host = .idle → data = [] → exec (.uartWrite sel data) s = .next (returned s (okResult 0 0 []))) ∧
    (s.host = .idle → data ≠ [] → p.tx.avail = 0 →
      exec (.uartWrite sel data) s = .next { s with host := .write sel data data.length }) ∧
    (s.host = .idle → data ≠ [] → p.tx.avail ≠ 0 → ∃ t,
      WriteStepGives s t sel p data data.length (min data.length p.tx.avail) ∧
      exec (.uartWrite sel data) s = .next t) ∧
    (∀ total, s.host = .write sel data total → data ≠ [] → p.tx.avail = 0 → hostContinue s = s) ∧
    (∀ total, s.host = .write sel data total → data ≠ [] → p.tx.avail ≠ 0 →
      WriteStepGives s (hostContinue s) sel p data total (min data.length p.tx.avail))

/-- UART_READ (42_uart_host.md R180): the oldest bytes of the RX ring buffer, up to max, across the wrap point, leave
it; the dispatcher is scheduled when at least one did; nothing else changes. -/
def Obligations.UartReadResult : Prop :=
  (∀ max, UartPrologue fun sel => .uartRead sel max) ∧
  ∀ (s : State) (sel max : Nat) (p : Port), ready s → s.ports[sel]? = some p → p.phase ≠ .uninit →
    p.rx.live → p.rx.resv = none → p.rx.inFlight = 0 →
    ∃ rx, Removed p.rx rx (min max p.rx.used) ∧ rx.inFlight = 0 ∧ rx.resv = none ∧
      exec (.uartRead sel max) s = .next (returned
        (withPort s sel { p with rx := rx, dispatchPending := p.dispatchPending || decide (0 < min max p.rx.used) })
        (okResult (BitVec.ofNat 32 (min max p.rx.used)) 0 ((rbContents p.rx).take max)))

/-- UART_FLUSH (42_uart_host.md R181): it returns when the TX ring buffer, the TX FIFO and the shifter are empty, and
until then each of its steps schedules the dispatcher and changes nothing else. -/
def Obligations.UartFlushResult : Prop :=
  UartPrologue (fun sel => .uartFlush sel) ∧
  ∀ (s : State) (sel : Nat) (p : Port), s.running → s.ports[sel]? = some p → p.phase ≠ .uninit →
    (s.host = .idle → p.tx.used = 0 → p.dev.txf = [] → p.dev.txsh = none →
      exec (.uartFlush sel) s = .next (returned s (okResult 0 0 []))) ∧
    (s.host = .flush sel → p.tx.used = 0 → p.dev.txf = [] → p.dev.txsh = none →
      hostContinue s = returned { s with host := .idle } (okResult 0 0 [])) ∧
    ((p.tx.used ≠ 0 ∨ p.dev.txf ≠ [] ∨ p.dev.txsh ≠ none) →
      (s.host = .idle → exec (.uartFlush sel) s
        = .next { s with host := .flush sel, ports := s.ports.set sel { p with dispatchPending := true } }) ∧
      (s.host = .flush sel → hostContinue s
        = (withPort s sel { p with dispatchPending := true })))

/-- UART_GET_STATS (42_uart_host.md R182): the eight counters in order; no state of the driver changes. -/
def Obligations.UartGetStatsResult : Prop :=
  UartPrologue (fun sel => .uartGetStats sel) ∧
  ∀ (s : State) (sel : Nat) (p : Port), ready s → s.ports[sel]? = some p → p.phase ≠ .uninit →
    exec (.uartGetStats sel) s = .next (returned s
      { status := .ok, detail := 0, v0 := 0, v1 := 0,
        data := .words [p.stats.ints, p.stats.rxInts, p.stats.rxBytes, p.stats.rxOverflows,
          p.stats.rxLingerConts, p.stats.txInts, p.stats.txBytes, p.stats.txThrottles] })

/-! ## The interrupt top half and the dispatcher -/

/-- An agent whose step is not enabled does not step: any event of an UNINIT port, and EV_ISR with no cause pending and
enabled (43_dispatch.md R200, 44_line_flow.md R230, 60_exceptions.md R269, R282; log 25). -/
def Obligations.DisabledAgentDoesNotStep : Prop :=
  ∀ (s : State) (sel : Nat) (p : Port), s.running → s.ports[sel]? = some p →
    (∀ i, eventSelector i = some sel → p.phase = .uninit → exec i s = .next s) ∧
    (intRaw p &&& readIntEna p.dev = 0 → exec (.evIsr sel) s = .next s)

/-- EV_ISR (60_exceptions.md R270): r, t, o, c are the causes RX_DATA, TX_SPACE, RX_OVF, CTS_CHG pending and enabled at
its start. Each is counted once and the invocation once; a data cause is disarmed and schedules the dispatcher; the
handled latches are cleared; on a part with the overflow quirk RX_OVF resets the RX FIFO; nothing else changes. -/
def Obligations.IsrHandlesPendingCauses : Prop :=
  ∀ (s : State) (sel : Nat) (p : Port) (r t o c z : Bool), s.running → s.ports[sel]? = some p →
    p.phase ≠ .uninit → p.registered = true →
    r = (rxDataRaw p && p.dev.intEna.getLsbD 0) → t = (txSpaceRaw p && p.dev.intEna.getLsbD 1) →
    o = (p.dev.ovfLatch && p.dev.intEna.getLsbD 2) → c = (p.dev.ctsLatch && p.dev.intEna.getLsbD 3) →
    z = (o && s.params.ovfResetFifo) → (r || t || o || c) = true →
    exec (.evIsr sel) s = .next (withPort s sel { p with
      dispatchPending := p.dispatchPending || r || t
      stats := { p.stats with
        ints := p.stats.ints + 1
        rxInts := p.stats.rxInts + (if r then 1 else 0)
        rxOverflows := p.stats.rxOverflows + (if o then 1 else 0)
        txInts := p.stats.txInts + (if t then 1 else 0)
        txThrottles := p.stats.txThrottles +
          (if c ∧ p.cfg.txFlowControl = .hardware ∧ p.dev.ctsIn = true ∧ 0 < p.tx.used then 1 else 0) }
      dev := { p.dev with
        rxf := if z then [] else p.dev.rxf
        rxCorrupt := p.dev.rxCorrupt && !z
        intEna := p.dev.intEna &&& (if r then 0b1110#4 else 0b1111#4) &&& (if t then 0b1101#4 else 0b1111#4)
        toutLatch := p.dev.toutLatch && !r && !z
        ovfLatch := p.dev.ovfLatch && !o
        ctsLatch := p.dev.ctsLatch && !c } })

/-- A dispatch run starts (43_dispatch.md R201): the request is taken, and nothing else changes. -/
def Obligations.DispatchIdleStartsRun : Prop :=
  ∀ (s : State) (sel : Nat) (p : Port), s.running → s.ports[sel]? = some p → p.phase ≠ .uninit → p.dphase = .idle →
    exec (.evDispatch sel) s
      = .next (withPort s sel { p with dispatchPending := false, dphase := .rxTop })

/-- RX_TOP (43_dispatch.md R202): n is the FIFO length it reads, a draw while the FIFO is corrupt, and d the draws
left. With RX enabled, space in the ring buffer and n > 0 it moves one byte and counts it; else it lingers or goes on
to RX_FC; nothing else changes. -/
def Obligations.DispatchRxTop : Prop :=
  ∀ (s : State) (sel : Nat) (p : Port) (n : Nat) (d : Draws), s.running → s.ports[sel]? = some p →
    p.phase ≠ .uninit → p.dphase = .rxTop → p.rx.live →
    n = (if p.dev.rxCorrupt then s.draws.upTo s.params.rxFifoCap else p.dev.rxf.length) →
    d = (if p.dev.rxCorrupt then s.draws.pop else s.draws) →
    (p.rxEnabled = true → 0 < p.rx.avail → 0 < n →
      ∃ rx b d', Committed p.rx rx [b] none ∧
        (p.dev.rxCorrupt = false → p.dev.rxf.head? = some b ∧ d' = d) ∧
        (p.dev.rxCorrupt = true → b = d.byte ∧ d' = d.pop) ∧
        exec (.evDispatch sel) s = .next (withPort { s with draws := d' } sel { p with
          rx := rx, dev := { p.dev with rxf := p.dev.rxf.tail },
          stats := { p.stats with rxBytes := p.stats.rxBytes + 1 } })) ∧
    (p.rxEnabled = true → 0 < p.rx.avail → n = 0 → 0 < p.cfg.rxLingerMicros →
      exec (.evDispatch sel) s
        = .next (withPort { s with draws := d } sel { p with dphase := .linger })) ∧
    ((p.rxEnabled = false ∨ p.rx.avail = 0 ∨ (n = 0 ∧ p.cfg.rxLingerMicros = 0)) →
      exec (.evDispatch sel) s
        = .next (withPort { s with draws := d } sel { p with dphase := .rxFc }))

/-- LINGER (43_dispatch.md R203): a draw decides whether the budget has run out; else, n being the FIFO length it then
reads and d the draws left, a byte resumes RX_TOP and is counted as a continuation, and no byte keeps it polling. -/
def Obligations.DispatchLinger : Prop :=
  ∀ (s : State) (sel : Nat) (p : Port) (n : Nat) (d : Draws), s.running → s.ports[sel]? = some p →
    p.phase ≠ .uninit → p.dphase = .linger →
    n = (if p.dev.rxCorrupt then s.draws.pop.upTo s.params.rxFifoCap else p.dev.rxf.length) →
    d = (if p.dev.rxCorrupt then s.draws.pop.pop else s.draws.pop) →
    (s.draws.bool = true → exec (.evDispatch sel) s
      = .next (withPort { s with draws := s.draws.pop } sel { p with dphase := .rxFc })) ∧
    (s.draws.bool = false → 0 < n → exec (.evDispatch sel) s
      = .next (withPort { s with draws := d } sel { p with
          dphase := .rxTop, stats := { p.stats with rxLingerConts := p.stats.rxLingerConts + 1 } })) ∧
    (s.draws.bool = false → n = 0 → exec (.evDispatch sel) s = .next { s with draws := d })

/-- RX_FC (43_dispatch.md R204): in software mode at most one control byte, XOFF or XON, goes to the TX FIFO's tail;
then TX_TOP; nothing else changes. -/
def Obligations.DispatchRxFc : Prop :=
  ∀ (s : State) (sel : Nat) (p : Port) (space : Bool), s.running → s.ports[sel]? = some p → p.phase ≠ .uninit →
    p.dphase = .rxFc → space = decide (p.dev.txf.length < s.params.txFifoCap) →
    (p.cfg.rxFlowControl = .software → p.xoffSent = false → p.cfg.rxFifoFcThresh ≤ p.rx.used → space = true →
      exec (.evDispatch sel) s = .next (withPort s sel { p with
        dev := { p.dev with txf := p.dev.txf ++ [s.params.xoffChar] }, xoffSent := true, dphase := .txTop })) ∧
    (p.cfg.rxFlowControl = .software → p.xoffSent = true → p.rx.used < xonLow s.params p.cfg → space = true →
      exec (.evDispatch sel) s = .next (withPort s sel { p with
        dev := { p.dev with txf := p.dev.txf ++ [s.params.xonChar] }, xoffSent := false, dphase := .txTop })) ∧
    ((p.cfg.rxFlowControl ≠ .software ∨ space = false ∨
        (p.xoffSent = false ∧ p.rx.used < p.cfg.rxFifoFcThresh) ∨
        (p.xoffSent = true ∧ xonLow s.params p.cfg ≤ p.rx.used)) →
      exec (.evDispatch sel) s = .next (withPort s sel { p with dphase := .txTop }))

/-- TX_TOP (43_dispatch.md R205): the span get gives, at most the TX FIFO's free space, is copied into the TX FIFO and
becomes in flight; with nothing to send or no space, BOTTOM; nothing else changes. -/
def Obligations.DispatchTxTop : Prop :=
  ∀ (s : State) (sel : Nat) (p : Port) (start n : Nat), s.running → s.ports[sel]? = some p → p.phase ≠ .uninit →
    p.dphase = .txTop → start = (p.tx.head + p.tx.inFlight) % p.tx.cap →
    n = min (s.params.txFifoCap - p.dev.txf.length) (min (p.tx.used - p.tx.inFlight) (p.tx.cap - start)) →
    (0 < p.tx.used → p.dev.txf.length < s.params.txFifoCap →
      exec (.evDispatch sel) s = .next (withPort s sel { p with
        tx := { p.tx with inFlight := p.tx.inFlight + n }
        dev := { p.dev with txf := p.dev.txf ++ (List.range n).map fun k => Memory.read p.tx.store (start + k) }
        dphase := .txConsume n })) ∧
    ((p.tx.used = 0 ∨ s.params.txFifoCap ≤ p.dev.txf.length) →
      exec (.evDispatch sel) s = .next (withPort s sel { p with dphase := .bottom }))

/-- TX_CONSUME(n) (43_dispatch.md R206): the n bytes leave the TX ring buffer and are counted; then TX_TOP; nothing
else changes. -/
def Obligations.DispatchTxConsume : Prop :=
  ∀ (s : State) (sel n : Nat) (p : Port), s.running → s.ports[sel]? = some p → p.phase ≠ .uninit →
    p.dphase = .txConsume n → p.tx.live → p.tx.inFlight = n → p.tx.resv = none →
    ∃ tx, Removed p.tx tx n ∧ tx.inFlight = 0 ∧ tx.resv = none ∧
      exec (.evDispatch sel) s = .next (withPort s sel { p with
        tx := tx, stats := { p.stats with txBytes := p.stats.txBytes + BitVec.ofNat 32 n }, dphase := .txTop })

/-- BOTTOM (43_dispatch.md R207, R210): the two data enables are recomputed, the informational ones keep their value,
and the run ends; nothing else changes. -/
def Obligations.DispatchBottomRearms : Prop :=
  ∀ (s : State) (sel : Nat) (p : Port), s.running → s.ports[sel]? = some p → p.phase ≠ .uninit →
    p.dphase = .bottom → ∃ e : BitVec 4,
      e.getLsbD 0 = (p.rxEnabled && decide (0 < p.rx.avail)) ∧ e.getLsbD 1 = decide (0 < p.tx.used) ∧
      e.getLsbD 2 = p.dev.intEna.getLsbD 2 ∧ e.getLsbD 3 = p.dev.intEna.getLsbD 3 ∧
      exec (.evDispatch sel) s = .next (withPort s sel { p with dev := { p.dev with intEna := e }, dphase := .idle })

/-! ## The line side and flow control -/

/-- EV_LINE_RX (44_line_flow.md R231): the byte, masked to the frame's data bits, enters the RX FIFO, or is lost at a
full one, which latches RX_OVF and, on a part with the overflow quirk, marks the FIFO corrupt. -/
def Obligations.LineRxResult : Prop :=
  ∀ (s : State) (sel : Nat) (b : Byte) (p : Port), s.running → s.ports[sel]? = some p → p.phase ≠ .uninit →
    (p.dev.rxf.length < s.params.rxFifoCap → exec (.evLineRx sel b) s = .next (withPort s sel
      { p with dev := { p.dev with
          rxf := p.dev.rxf ++ [b &&& BitVec.ofNat 8 (2 ^ p.dev.frame.numDataBits - 1)] } })) ∧
    (s.params.rxFifoCap ≤ p.dev.rxf.length → exec (.evLineRx sel b) s = .next (withPort s sel
      { p with dev := { p.dev with
          ovfLatch := true, rxCorrupt := p.dev.rxCorrupt || s.params.ovfResetFifo } }))

/-- EV_LINE_TX_LOAD (44_line_flow.md R232): the shifter takes the TX FIFO's head, when there is one, the shifter is
empty and CTS does not block; else the line does not step, which leaves the state unchanged (the model's reading of a
step that is not enabled, log 25). -/
def Obligations.LineTxLoadResult : Prop :=
  ∀ (s : State) (sel : Nat) (p : Port), s.running → s.ports[sel]? = some p → p.phase ≠ .uninit →
    (∀ b q, p.dev.txf = b :: q → p.dev.txsh = none → ¬(p.cfg.txFlowControl = .hardware ∧ p.dev.ctsIn = true) →
      exec (.evLineTxLoad sel) s
        = .next (withPort s sel { p with dev := { p.dev with txf := q, txsh := some b } })) ∧
    ((p.dev.txf = [] ∨ p.dev.txsh ≠ none ∨ (p.cfg.txFlowControl = .hardware ∧ p.dev.ctsIn = true)) →
      exec (.evLineTxLoad sel) s = .next s)

/-- EV_LINE_TX_DONE (44_line_flow.md R233): the shifter's byte reaches the line, masked; CTS does not stop it;
with an empty shifter the line does not step, which leaves the state unchanged (the model's reading of a step that is
not enabled, log 25). -/
def Obligations.LineTxDoneResult : Prop :=
  ∀ (s : State) (sel : Nat) (p : Port), s.running → s.ports[sel]? = some p → p.phase ≠ .uninit →
    (∀ b, p.dev.txsh = some b → exec (.evLineTxDone sel) s = .next (withPort s sel
      { p with wireOut := p.wireOut ++ [b &&& BitVec.ofNat 8 (2 ^ p.dev.frame.numDataBits - 1)],
               dev := { p.dev with txsh := none } })) ∧
    (p.dev.txsh = none → exec (.evLineTxDone sel) s = .next s)

/-- EV_CTS (44_line_flow.md R234): the input takes the level, and a change is latched. -/
def Obligations.LineCtsResult : Prop :=
  ∀ (s : State) (sel : Nat) (level : Bool) (p : Port), s.running → s.ports[sel]? = some p → p.phase ≠ .uninit →
    (level ≠ p.dev.ctsIn → exec (.evCts sel level) s = .next (withPort s sel
      { p with dev := { p.dev with ctsIn := level, ctsLatch := true } })) ∧
    (level = p.dev.ctsIn → exec (.evCts sel level) s = .next s)

/-- EV_RX_TIMEOUT (44_line_flow.md R235): with bytes waiting it latches the timeout, and INT_RAW[0] then reads 1;
with none the line does not step, which leaves the state unchanged (the model's reading of a step that is not enabled,
log 25). -/
def Obligations.LineRxTimeoutResult : Prop :=
  ∀ (s : State) (sel : Nat) (p p' : Port), s.running → s.ports[sel]? = some p → p.phase ≠ .uninit →
    p' = { p with dev := { p.dev with toutLatch := true } } →
    (p.dev.rxf ≠ [] → exec (.evRxTimeout sel) s = .next (withPort s sel p') ∧ (intRaw p').getLsbD 0 = true) ∧
    (p.dev.rxf = [] → exec (.evRxTimeout sel) s = .next s)

/-- RTS_OUT at every instant (44_line_flow.md R236, 10_state.md R40). -/
def Obligations.RtsOutIsRtsHold : Prop :=
  ∀ (P : Params) (p : Port), rtsOut P p = true ↔
    p.phase ≠ .uninit ∧ p.cfg.rxFlowControl = .hardware ∧
    (p.rxEnabled = false ∨ (P.hwFcThresh = true ∧ p.cfg.rxFifoFcThresh ≤ p.dev.rxf.length))

/-- INT_RAW bit by bit, 0 while the port is UNINIT; INT_CLR clears exactly the latches its bits 0, 2, 3 name and reads
0; INT_ENA keeps the four bits written and reads its reserved bits as 0 (10_state.md R34, R35, R36). -/
def Obligations.InterruptRegistersReadAndWrite : Prop :=
  (∀ p : Port, p.phase = .uninit → intRaw p = 0) ∧
  (∀ p : Port, p.phase ≠ .uninit →
    ((intRaw p).getLsbD 0 = true ↔
      (0 < p.dev.rxf.length ∧ p.cfg.rxFifoFullThresh ≤ p.dev.rxf.length) ∨ p.dev.toutLatch = true) ∧
    ((intRaw p).getLsbD 1 = true ↔ p.dev.txf.length ≤ p.cfg.txFifoEmptyThresh) ∧
    (intRaw p).getLsbD 2 = p.dev.ovfLatch ∧ (intRaw p).getLsbD 3 = p.dev.ctsLatch ∧
    ∀ i, 4 ≤ i → (intRaw p).getLsbD i = false) ∧
  (∀ (v : Device) (w : Word),
    clearInterrupt v w = { v with toutLatch := v.toutLatch && !w.getLsbD 0, ovfLatch := v.ovfLatch && !w.getLsbD 2,
                                  ctsLatch := v.ctsLatch && !w.getLsbD 3 } ∧
    readIntClr v = 0 ∧
    ∀ i, (readIntEna (setInterruptEnable v w)).getLsbD i = (decide (i < 4) && w.getLsbD i))

/-! ## Rules of the whole machine -/

/-- Every step keeps the invariant of the block: the ring-buffer invariants of every instance (41_ringbuffer.md R160 to
R164), the table entry (10_state.md R30), the in-flight bookkeeping (43_dispatch.md R209), the FIFO bounds, the
recorded codes. From every sound state, not only from reset. The invariant also says that the configuration of an
UNINIT port and the registers of an unallocated buffer, which hold no value by the spec, hold the zeros the model
chose there (logs 5 and 6). -/
def Obligations.StepKeepsSound : Prop :=
  ∀ s s' : State, s.sound → step s = .next s' → s'.sound

/-- The reset state is sound, for every legal choice of the parameters and of CTS_IN's draws. Soundness includes the
zeros the model chose for cfg and for unallocated buffers, to which the spec gives no value at reset (log 5). -/
def Obligations.ResetIsSound : Prop :=
  State.reset.sound ∧
  ∀ (P : Params) (nports nrb : Nat) (cts : Nat → Bool), P.wf → 1 ≤ nports → nports ≤ 64 → nrb ≤ 64 →
    (State.resetWith P nports nrb cts).sound

/-- The reset values 70_reset_and_hazards.md R300 gives, and that no agent but the HOST has a step then: an event
leaves the state unchanged (the model's reading of a step that is not enabled, log 25). The values R300 leaves open are
not stated (log 5). -/
def Obligations.ResetValues : Prop :=
  ∀ (P : Params) (nports nrb : Nat) (cts : Nat → Bool) (s : State), s = State.resetWith P nports nrb cts →
    s.srb.length = nrb ∧ s.ports.length = nports ∧
    (∀ rb ∈ s.srb, rb.alloc = false ∧ rb.resv = none) ∧
    (∀ p ∈ s.ports, p.phase = .uninit ∧ p.rx.alloc = false ∧ p.rx.resv = none ∧ p.tx.alloc = false ∧
      p.tx.resv = none ∧ p.rxEnabled = false ∧ p.xoffSent = false ∧ p.dispatchPending = false ∧ p.dphase = .idle ∧
      p.stats = { ints := 0, rxInts := 0, rxBytes := 0, rxOverflows := 0, rxLingerConts := 0, txInts := 0,
                  txBytes := 0, txThrottles := 0 } ∧
      p.registered = false ∧ p.dev.rxf = [] ∧ p.dev.txf = [] ∧ p.dev.txsh = none ∧ intRaw p = 0 ∧
      p.dev.intEna = 0 ∧ p.dev.ovfLatch = false ∧ p.dev.ctsLatch = false ∧ p.dev.toutLatch = false ∧
      p.dev.rxCorrupt = false ∧ rtsOut P p = false ∧ p.wireOut = []) ∧
    (∀ q p, s.ports[q]? = some p → p.dev.ctsIn = cts q) ∧
    s.fault.valid = false ∧ s.refused.valid = false ∧ s.host = .idle ∧
    ∀ i sel, eventSelector i = some sel → sel < nports → exec i s = .next s

/-- In a sound state no agent's step, no later HOST step of a command and no UART command on a configured port faults:
the driver's own ring-buffer calls meet their preconditions (41_ringbuffer.md R167, 60_exceptions.md R260). -/
def Obligations.DriverCallsNeverFault : Prop :=
  ∀ (s : State), s.sound → s.running →
    (∀ (i : Instr) (sel : Nat), eventSelector i = some sel → sel < s.ports.length →
      ∃ s', exec i s = .next s' ∧ s'.running) ∧
    (∀ (i : Instr) (sel : Nat), uartSelector i = some sel → s.portUp sel = true →
      ∃ s', exec i s = .next s' ∧ s'.fault = s.fault) ∧
    (hostContinue s).running

/-- Bytes on their way out keep their order (20_memory.md R83, 42_uart_host.md R185, 44_line_flow.md R241): an agent's
step leaves the bytes on the wire, in the shifter and in the TX FIFO followed by those the dispatcher has not copied
from the TX ring buffer as they were, but that RX_FC may put one XOFF or XON between the two. -/
def Obligations.TxBytesKeepOrder : Prop :=
  ∀ (s s' : State) (i : Instr) (sel q : Nat) (p : Port), s.sound → eventSelector i = some sel →
    exec i s = .next s' → s.ports[q]? = some p → p.phase ≠ .uninit →
    ∃ (p' : Port) (control : List Byte), s'.ports[q]? = some p' ∧
      txAhead p' ++ txBehind p' = txAhead p ++ control ++ txBehind p ∧
      (control = [] ∨ (i = .evDispatch q ∧ p.dphase = .rxFc ∧ p.cfg.rxFlowControl = .software ∧
        (control = [s.params.xoffChar &&& dmask p.dev.frame] ∨
         control = [s.params.xonChar &&& dmask p.dev.frame])))

/-- Bytes on their way in keep their order (20_memory.md R83): while the RX FIFO is sound, a dispatcher step moves
bytes from the FIFO to the ring buffer without loss or change; an arriving byte goes behind all of them or, at a full
FIFO, is lost; the transmit side and CTS do not touch them. -/
def Obligations.RxBytesKeepOrder : Prop :=
  ∀ (s s' : State) (i : Instr) (sel q : Nat) (p : Port), s.sound → eventSelector i = some sel →
    exec i s = .next s' → s.ports[q]? = some p → p.phase ≠ .uninit → p.dev.rxCorrupt = false → i ≠ .evIsr q →
    ∃ p', s'.ports[q]? = some p' ∧
      rxStream p' = rxStream p ++
        (match i with
         | .evLineRx sel b =>
           if sel = q ∧ p.dev.rxf.length < s.params.rxFifoCap then [b &&& dmask p.dev.frame] else []
         | _ => [])

/-- XOFF is sent once (44_line_flow.md R240): the flag rises only in an RX_FC micro-step that saw the threshold reached
and puts one XOFF in the TX FIFO, and falls only in one that saw rx.used < XON_LOW ≤ rx_fifo_fc_thresh and puts one
XON there, or by a configure or deinit of the port. So between two XOFFs there is an XON. -/
def Obligations.XoffSentOnce : Prop :=
  ∀ (s s' : State) (q : Nat) (p p' : Port), step s = .next s' → s.ports[q]? = some p → s'.ports[q]? = some p' →
    (p.xoffSent = false → p'.xoffSent = true →
      turnIsDispatch s q ∧ p.dphase = .rxFc ∧ p.cfg.rxFlowControl = .software ∧
      p.cfg.rxFifoFcThresh ≤ p.rx.used ∧ p'.dev.txf = p.dev.txf ++ [s.params.xoffChar]) ∧
    (p.xoffSent = true → p'.xoffSent = false →
      (turnIsDispatch s q ∧ p.dphase = .rxFc ∧ p.cfg.rxFlowControl = .software ∧
        p.rx.used < xonLow s.params p.cfg ∧ xonLow s.params p.cfg ≤ p.cfg.rxFifoFcThresh ∧
        p'.dev.txf = p.dev.txf ++ [s.params.xonChar]) ∨
      ∃ i, turnIssues s q i ∧ ((∃ c, i = .uartConfigure q c) ∨ i = .uartDeinit q)) ∧
    (p.xoffSent = p'.xoffSent → turnIsDispatch s q → p.dphase = .rxFc → p'.dev.txf = p.dev.txf)

/-- The enable bit as ownership token (60_exceptions.md R283): a data enable of a port rises only in the BOTTOM
micro-step of its dispatcher, so a data cause the ISR handled is not handled again before one. -/
def Obligations.DataEnableSetOnlyByBottom : Prop :=
  ∀ (s s' : State) (q b : Nat) (p p' : Port), step s = .next s' → s.ports[q]? = some p → s'.ports[q]? = some p' →
    b < 2 → p.dev.intEna.getLsbD b = false → p'.dev.intEna.getLsbD b = true →
    turnIsDispatch s q ∧ p.dphase = .bottom

/-- Counter ownership (43_dispatch.md R211): but for a configure from UNINIT, which zeroes all eight
(42_uart_host.md R173), the dispatcher alone changes rx_bytes, rx_linger_conts and tx_bytes, the ISR alone the other
five, each for its own port. -/
def Obligations.CountersHaveOneOwner : Prop :=
  ∀ (s s' : State) (q : Nat) (p p' : Port), step s = .next s' → s.ports[q]? = some p → s'.ports[q]? = some p' →
    ((p'.stats.rxBytes ≠ p.stats.rxBytes ∨ p'.stats.rxLingerConts ≠ p.stats.rxLingerConts ∨
        p'.stats.txBytes ≠ p.stats.txBytes) →
      turnIsDispatch s q ∨ (p.phase = .uninit ∧ ∃ c, turnIssues s q (.uartConfigure q c))) ∧
    ((p'.stats.ints ≠ p.stats.ints ∨ p'.stats.rxInts ≠ p.stats.rxInts ∨
        p'.stats.rxOverflows ≠ p.stats.rxOverflows ∨ p'.stats.txInts ≠ p.stats.txInts ∨
        p'.stats.txThrottles ≠ p.stats.txThrottles) →
      turnIsIsr s q ∨ (p.phase = .uninit ∧ ∃ c, turnIssues s q (.uartConfigure q c)))

/-- What an instruction cannot touch (20_memory.md R84, 92_eei_decisions.md D17): an RB command changes no port and no
other instance, a port command or an event changes no instance and no other port, and none changes the parameters,
the queue of commands or the turns. -/
def Obligations.InstructionsTouchOnlyTheirTarget : Prop :=
  ∀ (i : Instr) (s s' : State), exec i s = .next s' →
    s'.params = s.params ∧ s'.hostq = s.hostq ∧ s'.turns = s.turns ∧
    (∀ sel, rbSelector i = some sel → s'.ports = s.ports ∧ s'.host = s.host ∧
      ∀ k, k ≠ sel → s'.srb[k]? = s.srb[k]?) ∧
    (∀ sel, uartSelector i = some sel ∨ eventSelector i = some sel → s'.srb = s.srb ∧
      ∀ k, k ≠ sel → s'.ports[k]? = s.ports[k]?) ∧
    (∀ sel, eventSelector i = some sel → s'.host = s.host ∧ s'.results = s.results ∧ s'.refused = s.refused)

/-- While RX is disabled no byte is pulled from the RX FIFO into the RX ring buffer (10_state.md R51): no agent's step
changes the ring buffer, and the dispatcher leaves the FIFO as it is. -/
def Obligations.RxDisabledPullsNothing : Prop :=
  ∀ (s s' : State) (i : Instr) (sel q : Nat) (p p' : Port), eventSelector i = some sel → exec i s = .next s' →
    s.ports[q]? = some p → s'.ports[q]? = some p' → p.rxEnabled = false →
    p'.rx = p.rx ∧ (∀ r, i = .evDispatch r → p'.dev.rxf = p.dev.rxf)
end

