-- ==== Sys2Proof/Laws/Encode.lean ====
section
/-! SUPPORT. The fields of a command word are what the encoder put there, and words and bytes convert back and forth
(30_encoding.md R100, 20_memory.md R74). -/

namespace Sys2Proof

/-! ## Fields -/

theorem bitField_toNat (w : Word) (lo len : Nat) : bitField w lo len = w.toNat / 2 ^ lo % 2 ^ len := by
  simp [bitField, BitVec.extractLsb'_toNat, Nat.shiftRight_eq_div_pow]

theorem bitField_lt (w : Word) (lo len : Nat) : bitField w lo len < 2 ^ len := (w.extractLsb' lo len).isLt

theorem commandWord_toNat (op sel imm : Nat) :
    (commandWord op sel imm).toNat = op % 64 * 2 ^ 26 + sel % 64 * 2 ^ 20 + imm % 65536 := by
  unfold commandWord
  simp only [BitVec.toNat_append, BitVec.toNat_ofNat]
  rw [← Nat.shiftLeft_add_eq_or_of_lt (by omega), ← Nat.shiftLeft_add_eq_or_of_lt (by omega),
    ← Nat.shiftLeft_add_eq_or_of_lt (by omega)]
  simp only [Nat.shiftLeft_eq]
  omega

theorem opField_commandWord {op : Nat} (h : op < 64) (sel imm : Nat) : opField (commandWord op sel imm) = op := by
  simp only [opField, bitField_toNat, commandWord_toNat]; omega

theorem selField_commandWord (op : Nat) {sel : Nat} (h : sel < 64) (imm : Nat) :
    selField (commandWord op sel imm) = sel := by
  simp only [selField, bitField_toNat, commandWord_toNat]; omega

@[simp] theorem subField_commandWord (op sel imm : Nat) : subField (commandWord op sel imm) = 0 := by
  simp only [subField, bitField_toNat, commandWord_toNat]; omega

theorem immField_commandWord (op sel : Nat) {imm : Nat} (h : imm < 65536) :
    immField (commandWord op sel imm) = imm := by
  simp only [immField, bitField_toNat, commandWord_toNat]; omega

/-- A word whose reserved SUB field is 0 is the command word of its other fields. -/
theorem commandWord_fields {w : Word} (h : subField w = 0) :
    commandWord (opField w) (selField w) (immField w) = w := by
  apply BitVec.eq_of_toNat_eq
  simp only [opField, selField, subField, immField, bitField_toNat, commandWord_toNat] at *
  have := w.isLt
  omega

/-! ## Words and bytes -/

theorem wordOfBytes_toNat (b0 b1 b2 b3 : Byte) :
    (wordOfBytes b0 b1 b2 b3).toNat = b0.toNat + b1.toNat * 2 ^ 8 + b2.toNat * 2 ^ 16 + b3.toNat * 2 ^ 24 := by
  have h0 := b0.isLt
  have h1 := b1.isLt
  have h2 := b2.isLt
  have h3 := b3.isLt
  unfold wordOfBytes
  simp only [BitVec.toNat_append]
  rw [← Nat.shiftLeft_add_eq_or_of_lt (by omega), ← Nat.shiftLeft_add_eq_or_of_lt (by omega),
    ← Nat.shiftLeft_add_eq_or_of_lt (by omega)]
  simp only [Nat.shiftLeft_eq]
  omega

@[simp] theorem wordOfBytes_wordBytes (w : Word) :
    wordOfBytes (w.extractLsb' 0 8) (w.extractLsb' 8 8) (w.extractLsb' 16 8) (w.extractLsb' 24 8) = w := by
  apply BitVec.eq_of_toNat_eq
  rw [wordOfBytes_toNat]
  simp only [BitVec.extractLsb'_toNat, Nat.shiftRight_eq_div_pow]
  have := w.isLt
  omega

@[simp] theorem wordBytes_wordOfBytes (b0 b1 b2 b3 : Byte) :
    wordBytes (wordOfBytes b0 b1 b2 b3) = [b0, b1, b2, b3] := by
  have h0 := b0.isLt
  have h1 := b1.isLt
  have h2 := b2.isLt
  have h3 := b3.isLt
  have e := wordOfBytes_toNat b0 b1 b2 b3
  simp only [wordBytes, List.cons.injEq, and_true]
  refine ⟨?_, ?_, ?_, ?_⟩ <;> apply BitVec.eq_of_toNat_eq <;>
    simp only [BitVec.extractLsb'_toNat, Nat.shiftRight_eq_div_pow, e] <;> omega

/-- The six configuration words come back from their 24 bytes. -/
@[simp] theorem CfgWords.ofBytes_toBytes (c : CfgWords) : CfgWords.ofBytes c.toBytes = c := by
  obtain ⟨w0, w1, w2, w3, w4, w5⟩ := c
  simp [CfgWords.ofBytes, CfgWords.toBytes, payloadWord, wordBytes]

@[simp] theorem CfgWords.toBytes_length (c : CfgWords) : c.toBytes.length = 24 := rfl

/-! ## The decoder on a command word -/

/-- Decoding the command word of a row: the must-be-0 bits and the payload's length decide. -/
theorem decodeFrame_commandWord {op sel imm : Nat} {payload : List Byte} {r : OpRow}
    (hrow : opTable.find? (fun r => r.op == op) = some r) (hop : op < 64) (hsel : sel < 64) (himm : imm < 65536)
    (hz : imm &&& r.immZero = 0) (hl : payload.length = r.payload.length imm) :
    decodeFrame (commandWord op sel imm) payload = .ok (r.build sel imm payload) := by
  simp [decodeFrame, rowOf, opField_commandWord hop, hrow, immField_commandWord op sel himm,
    selField_commandWord op hsel imm, hz, hl]

/-- The decoder on bytes reads an encoded frame as the frame. -/
theorem decode_encode_eq (w : Word) (payload : List Byte) :
    decode (wordBytes w ++ payload) = decodeFrame w payload := by
  simp [decode, wordBytes]

/-- A byte's value and an enable bit leave the must-be-0 bits of their rows clear. -/
theorem byte_immZero (b : Byte) : b.toNat &&& 0xFF00 = 0 := by
  have h : b.toNat &&& 0xFF00 = (BitVec.setWidth 16 b &&& 0xFF00#16).toNat := by
    simp [BitVec.toNat_and, Nat.mod_eq_of_lt (show b.toNat < 65536 by have := b.isLt; omega)]
  rw [h]
  have : BitVec.setWidth 16 b &&& 0xFF00#16 = 0#16 := by
    revert b; decide
  rw [this]; rfl

theorem bool_immZero (b : Bool) : b.toNat &&& 0xFFFE = 0 := by cases b <;> rfl

end Sys2Proof
end

