-- ==== Sys2Proof/Laws/Memory.lean ====
section
/-! SUPPORT. The laws of a backing store: a write is read back, leaves every other index alone, and keeps the
canonical form; the same for a run of writes that wraps. -/

namespace Sys2Proof.Machine

/-! ## The canonical form -/

/-- Every index of a store lies at or above a bound. -/
def Memory.above (k : Nat) (m : Memory) : Prop := ∀ c ∈ m, k ≤ c.1

theorem Memory.wf_cons {a : Nat} {v : Byte} {m : Memory} :
    Memory.wf ((a, v) :: m) = true ↔ v ≠ 0 ∧ Memory.above (a + 1) m ∧ Memory.wf m = true := by
  induction m generalizing a v with
  | nil => simp [Memory.wf, Memory.above]
  | cons c m ih =>
    obtain ⟨b, u⟩ := c
    constructor
    · intro h
      simp only [Memory.wf, Bool.and_eq_true, bne_iff_ne, decide_eq_true_eq] at h
      obtain ⟨⟨hv, hab⟩, hm⟩ := h
      refine ⟨hv, ?_, hm⟩
      intro c hc
      rcases List.mem_cons.mp hc with rfl | hc
      · exact hab
      · have := (ih.mp hm).2.1 c hc
        omega
    · rintro ⟨hv, hab, hm⟩
      have := hab (b, u) (List.mem_cons_self ..)
      simp only [Memory.wf, Bool.and_eq_true, bne_iff_ne, decide_eq_true_eq]
      exact ⟨⟨hv, this⟩, hm⟩

theorem Memory.read_above {k a : Nat} {m : Memory} (h : Memory.above k m) (ha : a < k) : Memory.read m a = 0 := by
  induction m with
  | nil => rfl
  | cons c m ih =>
    obtain ⟨b, u⟩ := c
    have hb : k ≤ b := h (b, u) (List.mem_cons_self ..)
    have : a ≠ b := by omega
    simp only [Memory.read, if_neg this]
    exact ih fun c hc => h c (List.mem_cons_of_mem _ hc)

/-! ## Read after write -/

/-- A byte written is read back, and every other index reads as before. -/
theorem Memory.read_write {m : Memory} (h : Memory.wf m = true) (a b : Nat) (v : Byte) :
    Memory.read (Memory.write m a v) b = if b = a then v else Memory.read m b := by
  induction m with
  | nil =>
    simp only [Memory.write, Memory.cell]
    split <;> rename_i hv <;> by_cases hb : b = a <;> simp [Memory.read, hv, hb]
  | cons c m ih =>
    obtain ⟨k, u⟩ := c
    obtain ⟨-, hab, hm⟩ := Memory.wf_cons.mp h
    simp only [Memory.write]
    split
    · rename_i hlt
      have h0 : Memory.read ((k, u) :: m) a = 0 := by
        have : a ≠ k := by omega
        simp only [Memory.read, if_neg this]
        exact Memory.read_above hab (by omega)
      unfold Memory.cell
      split <;> rename_i hv
      · by_cases hb : b = a
        · subst hb; simp [h0, hv]
        · simp [hb]
      · simp [Memory.read]
    · split
      · rename_i hk
        subst hk
        have h0 : Memory.read m a = 0 := Memory.read_above hab (by omega)
        unfold Memory.cell
        split <;> rename_i hv
        · by_cases hb : b = a
          · subst hb; simp [h0, hv]
          · simp [Memory.read, hb]
        · by_cases hb : b = a <;> simp [Memory.read, hb]
      · rename_i hne
        by_cases hb : b = k
        · subst hb
          have : b ≠ a := fun h => hne h.symm
          simp [Memory.read, this]
        · simp only [Memory.read, if_neg hb]
          exact ih hm

theorem Memory.read_write_same {m : Memory} (h : Memory.wf m = true) (a : Nat) (v : Byte) :
    Memory.read (Memory.write m a v) a = v := by simp [Memory.read_write h]

theorem Memory.read_write_other {m : Memory} (h : Memory.wf m = true) {a b : Nat} (hb : b ≠ a) (v : Byte) :
    Memory.read (Memory.write m a v) b = Memory.read m b := by simp [Memory.read_write h, hb]

/-! ## A write keeps the canonical form -/

theorem Memory.above_cell {k a : Nat} {v : Byte} {m : Memory} (h : Memory.above k m) (ha : k ≤ a) :
    Memory.above k (Memory.cell a v m) := by
  unfold Memory.cell
  split
  · exact h
  · intro c hc
    rcases List.mem_cons.mp hc with rfl | hc
    · exact ha
    · exact h c hc

theorem Memory.above_write {k a : Nat} {v : Byte} {m : Memory} (h : Memory.above k m) (ha : k ≤ a) :
    Memory.above k (Memory.write m a v) := by
  induction m with
  | nil => exact Memory.above_cell (by simp [Memory.above]) ha
  | cons c m ih =>
    obtain ⟨b, u⟩ := c
    have ht : Memory.above k m := fun c hc => h c (List.mem_cons_of_mem _ hc)
    simp only [Memory.write]
    split
    · exact Memory.above_cell h ha
    · split
      · exact Memory.above_cell ht ha
      · intro c hc
        rcases List.mem_cons.mp hc with rfl | hc
        · exact h _ (List.mem_cons_self ..)
        · exact ih ht c hc

theorem Memory.wf_cell {a : Nat} {v : Byte} {m : Memory} (h : Memory.wf m = true) (ha : Memory.above (a + 1) m) :
    Memory.wf (Memory.cell a v m) = true := by
  unfold Memory.cell
  split <;> rename_i hv
  · exact h
  · exact Memory.wf_cons.mpr ⟨hv, ha, h⟩

/-- A write keeps the canonical form. -/
theorem Memory.write_wf {m : Memory} (h : Memory.wf m = true) (a : Nat) (v : Byte) :
    Memory.wf (Memory.write m a v) = true := by
  induction m with
  | nil => exact Memory.wf_cell h (by simp [Memory.above])
  | cons c m ih =>
    obtain ⟨b, u⟩ := c
    obtain ⟨hu, hab, hm⟩ := Memory.wf_cons.mp h
    simp only [Memory.write]
    split
    · refine Memory.wf_cell h ?_
      intro c hc
      rcases List.mem_cons.mp hc with rfl | hc
      · simpa
      · have := hab c hc; omega
    · split
      · rename_i hk; subst hk
        exact Memory.wf_cell hm hab
      · exact Memory.wf_cons.mpr ⟨hu, Memory.above_write hab (by omega), ih hm⟩

/-- A write lists no index but its own beside those listed before. -/
theorem Memory.mem_write {m : Memory} {a : Nat} {v : Byte} {c : Host.Cell} (h : c ∈ Memory.write m a v) :
    c.1 = a ∨ c ∈ m := by
  have hcell : ∀ {m : Memory}, c ∈ Memory.cell a v m → c.1 = a ∨ c ∈ m := by
    intro m h
    unfold Memory.cell at h
    split at h
    · exact .inr h
    · rcases List.mem_cons.mp h with rfl | h
      · exact .inl rfl
      · exact .inr h
  induction m with
  | nil => exact hcell h
  | cons d m ih =>
    obtain ⟨b, u⟩ := d
    simp only [Memory.write] at h
    split at h
    · exact hcell h
    · split at h
      · rcases hcell h with h | h
        · exact .inl h
        · exact .inr (List.mem_cons_of_mem _ h)
      · rcases List.mem_cons.mp h with rfl | h
        · exact .inr (List.mem_cons_self ..)
        · rcases ih h with h | h
          · exact .inl h
          · exact .inr (List.mem_cons_of_mem _ h)

/-! ## A run of writes (41_ringbuffer.md R134, R140) -/

theorem Memory.writeRun_wf {cap : Nat} {m : Memory} {t : Nat} (data : List Byte) (h : Memory.wf m = true) :
    Memory.wf (Memory.writeRun cap m t data) = true := by
  induction data generalizing m t with
  | nil => exact h
  | cons b bs ih => exact ih (Memory.write_wf h _ _)

/-- Every index a run writes is reduced modulo the capacity (20_memory.md R71). -/
theorem Memory.writeRun_bounded {cap : Nat} (hc : 0 < cap) {m : Memory} {t : Nat} (data : List Byte)
    (h : ∀ c ∈ m, c.1 < cap) : ∀ c ∈ Memory.writeRun cap m t data, c.1 < cap := by
  induction data generalizing m t with
  | nil => exact h
  | cons b bs ih =>
    refine ih fun c hc' => ?_
    rcases Memory.mem_write hc' with h' | h'
    · rw [h']; exact Nat.mod_lt _ hc
    · exact h c h'

/-- An index no byte of the run is written to reads as before. -/
theorem Memory.read_writeRun_other {cap : Nat} {m : Memory} {t a : Nat} (data : List Byte)
    (hm : Memory.wf m = true) (ha : ∀ k, k < data.length → a ≠ (t + k) % cap) :
    Memory.read (Memory.writeRun cap m t data) a = Memory.read m a := by
  induction data generalizing m t with
  | nil => rfl
  | cons b bs ih =>
    have h0 : a ≠ t % cap := by simpa using ha 0 (by simp)
    rw [Memory.writeRun, ih (Memory.write_wf hm _ _), Memory.read_write_other hm h0]
    intro k hk
    have := ha (k + 1) (by simpa using hk)
    rwa [show t + 1 + k = t + (k + 1) by omega]

/-- Two distinct offsets below the capacity fall on distinct indices. -/
theorem add_mod_ne {cap t i j : Nat} (hi : i < cap) (hj : j < cap) (h : i ≠ j) : (t + i) % cap ≠ (t + j) % cap := by
  intro e
  have : i % cap = j % cap := Nat.ModEq.add_left_cancel' t e
  rw [Nat.mod_eq_of_lt hi, Nat.mod_eq_of_lt hj] at this
  exact h this

/-- Byte k of a run no longer than the capacity is read back at its index. -/
theorem Memory.read_writeRun_at {cap : Nat} {m : Memory} {t : Nat} {data : List Byte} (hm : Memory.wf m = true)
    (hlen : data.length ≤ cap) {k : Nat} (hk : k < data.length) :
    Memory.read (Memory.writeRun cap m t data) ((t + k) % cap) = data[k] := by
  induction data generalizing m t k with
  | nil => simp at hk
  | cons b bs ih =>
    simp only [List.length_cons] at hlen hk
    cases k with
    | zero =>
      rw [Memory.writeRun, Memory.read_writeRun_other bs (Memory.write_wf hm _ _)]
      · simp [Memory.read_write_same hm]
      · intro j hj
        rw [show t + 1 + j = t + (j + 1) by omega]
        exact add_mod_ne (by omega) (by omega) (by omega)
    | succ k =>
      rw [Memory.writeRun, show t + (k + 1) = t + 1 + k by omega]
      simpa using ih (Memory.write_wf hm _ _) (by omega) (k := k) (by omega)

@[simp] theorem Memory.readRun_length {cap : Nat} {m : Memory} {t n : Nat} :
    (Memory.readRun cap m t n).length = n := by simp [Memory.readRun]

theorem Memory.readRun_getElem {cap : Nat} {m : Memory} {t n k : Nat} (h : k < n) :
    (Memory.readRun cap m t n)[k]'(by simpa using h) = Memory.read m ((t + k) % cap) := by simp [Memory.readRun]

end Sys2Proof.Machine
end

