-- ==== Sys2Proof/Laws/RingBuffer.lean ====
section
/-! SUPPORT. One law per ring-buffer operation: it keeps the invariants of 41_ringbuffer.md R160 to R164, and what it
does to the bytes the buffer holds (R165, R166). -/

namespace Sys2Proof.Machine

/-! ## The invariants (41_ringbuffer.md R160 to R164) -/

theorem rbFresh_live {cap : Nat} (h1 : 1 ≤ cap) (h2 : cap ≤ Config.capMax) : (rbFresh cap).live := by
  simp [RingBuffer.live, rbFresh, Memory.wf]; omega

theorem rbClear_live {rb : RingBuffer} (h : rb.live) : (rbClear rb).live := by
  obtain ⟨ha, h1, h2, -, -, -, -, -, -, -, -, hw, hb⟩ := h
  exact ⟨ha, h1, h2, by simp [rbClear], by simp [rbClear], by simp [rbClear]; omega, by simp [rbClear]; omega,
    by simp [rbClear], by simp [rbClear], by simp [rbClear], by simp [rbClear], hw, hb⟩

/-- Committing bytes that fit keeps the invariants, for a reservation that is dropped or that nothing touched. -/
theorem rbCommit_live {rb : RingBuffer} (h : rb.live) {data : List Byte} (hl : data.length ≤ rb.avail)
    {resv : Option Nat} (hr : resv = none ∨ data.length = 0 ∧ resv = rb.resv) : (rbCommit data resv rb).live := by
  obtain ⟨ha, h1, h2, hs, hi, hh, ht, hm, he, hr1, hr2, hw, hb⟩ := h
  have hcap : 0 < rb.cap := h1
  refine ⟨ha, h1, h2, ?_, ?_, hh, Nat.mod_lt _ hcap, ?_, ?_, ?_, ?_, Memory.writeRun_wf _ hw,
    Memory.writeRun_bounded hcap _ hb⟩
  · simp only [rbCommit]; omega
  · simp only [rbCommit]; omega
  · simp only [rbCommit]
    rw [← hm, Nat.mod_add_mod, Nat.add_assoc]
  · intro h0
    simp only [rbCommit] at h0 ⊢
    have hu : rb.used = 0 := by omega
    have hd : data.length = 0 := by omega
    rw [hd, (he hu).2]
    exact ⟨(he hu).1, by simp⟩
  · rcases hr with rfl | ⟨hd, rfl⟩
    · simp [rbCommit]
    · simpa [rbCommit, hd] using hr1
  · rcases hr with rfl | ⟨hd, rfl⟩
    · have := Nat.mod_lt (rb.tail + data.length) hcap
      simp only [rbCommit, Option.getD_none]; omega
    · simpa [rbCommit, hd, Nat.mod_eq_of_lt ht] using hr2

theorem rbAppend_live {rb rb' : RingBuffer} {data : List Byte} (h : rb.live) (e : rbAppend data rb = .ok rb') :
    rb'.live := by
  unfold rbAppend at e
  split at e
  · cases e
  · rename_i hl
    cases e
    refine rbCommit_live h (by omega) ?_
    split
    · exact .inl rfl
    · exact .inr ⟨by omega, rfl⟩

theorem rbAdvanceTail_live {rb rb' : RingBuffer} {data : List Byte} (h : rb.live)
    (e : rbAdvanceTail data rb = .ok rb') : rb'.live := by
  have hr := h.2.2.2.2.2.2.2.2.2.1
  unfold rbAdvanceTail at e
  split at e
  · cases e
  · rename_i n hn
    split at e
    · cases e
    · cases e
      rw [hn] at hr
      simp only [Option.getD_some] at hr
      exact rbCommit_live h (by omega) (.inl rfl)

theorem rbGetLen_le {rb : RingBuffer} {max : Nat} :
    rbGetLen max rb ≤ max ∧ rbGetLen max rb ≤ rb.used - rb.inFlight ∧
    rbGetLen max rb ≤ rb.cap - rbGetStart rb := by unfold rbGetLen; omega

theorem rbGet_live {rb : RingBuffer} {max : Nat} (h : rb.live) : (rbGet max rb).1.live := by
  obtain ⟨ha, h1, h2, hs, hi, hh, ht, hm, he, hr1, hr2, hw, hb⟩ := h
  have := (rbGetLen_le (rb := rb) (max := max)).2.1
  exact ⟨ha, h1, h2, hs, by simp only [rbGet]; omega, hh, ht, hm, he, hr1, hr2, hw, hb⟩

theorem rbConsume_live {rb rb' : RingBuffer} {len : Nat} (h : rb.live) (e : rbConsume len rb = .ok rb') :
    rb'.live := by
  obtain ⟨ha, h1, h2, hs, hi, hh, ht, hm, he, hr1, hr2, hw, hb⟩ := h
  have hcap : 0 < rb.cap := h1
  unfold rbConsume at e
  split at e
  · cases e
  · split at e
    · cases e
    · rename_i hu hf
      cases e
      unfold rbEmptyReset
      split
      · rename_i h0
        simp only at h0
        refine ⟨ha, h1, h2, by simp only; omega, by simp only; omega, hcap, hcap, by simp [h0], by simp, ?_, ?_, hw, hb⟩
        · simp only
          split
          · simp
          · omega
        · simp only
          split
          · simp
          · rename_i h0
            simp only [ne_eq, Decidable.not_not] at h0
            omega
      · rename_i h0
        simp only at h0
        refine ⟨ha, h1, h2, by simp only; omega, by simp only; omega, Nat.mod_lt _ hcap, ht, ?_, ?_, by simp only; omega, hr2, hw, hb⟩
        · simp only
          rw [Nat.mod_add_mod, show rb.head + len + (rb.used - len) = rb.head + rb.used by omega, hm]
        · intro h
          exact absurd h h0

theorem rbContigLen_le {rb : RingBuffer} (h : rb.live) :
    rbContigLen rb ≤ rb.avail ∧ rb.tail + rbContigLen rb ≤ rb.cap := by
  obtain ⟨ha, h1, h2, hs, hi, hh, ht, hm, he, hr1, hr2, hw, hb⟩ := h
  have hcap : 0 < rb.cap := h1
  unfold rbContigLen
  split
  · omega
  · by_cases hc : rb.head + rb.used < rb.cap
    · rw [Nat.mod_eq_of_lt hc] at hm
      split <;> omega
    · rw [Nat.mod_eq_sub_mod (by omega), Nat.mod_eq_of_lt (by omega)] at hm
      split <;> omega

theorem rbContigTailSpace_live {rb : RingBuffer} (h : rb.live) : (rbContigTailSpace rb).live := by
  have := rbContigLen_le h
  obtain ⟨ha, h1, h2, hs, hi, hh, ht, hm, he, hr1, hr2, hw, hb⟩ := h
  exact ⟨ha, h1, h2, hs, hi, hh, ht, hm, he, this.1, this.2, hw, hb⟩

theorem rbInit_sound {rb rb' : RingBuffer} {cap : Nat} {d d' : Draws} {st : Status} (h : rb.sound)
    (hc : cap ≤ Config.capMax) (e : rbInit cap d rb = .ok (rb', d', st)) : rb'.sound := by
  unfold rbInit at e
  split at e
  · cases e
  · split at e
    · cases e
    · simp only [Except.ok.injEq, Prod.mk.injEq] at e
      obtain ⟨rfl, -, -⟩ := e
      split
      · exact .inr (rbFresh_live (by omega) hc)
      · exact h

/-! ## The bytes held (41_ringbuffer.md R165, R166) -/

@[simp] theorem rbContents_length (rb : RingBuffer) : (rbContents rb).length = rb.used := by simp [rbContents]

/-- A run of reads in two parts. -/
theorem Memory.readRun_add {cap : Nat} {m : Memory} {t i j : Nat} :
    Memory.readRun cap m t (i + j) = Memory.readRun cap m t i ++ Memory.readRun cap m (t + i) j := by
  simp [Memory.readRun, List.range_add, Nat.add_assoc]

/-- A run of reads may start at its index reduced modulo the capacity. -/
theorem Memory.readRun_mod {cap : Nat} {m : Memory} {t n : Nat} :
    Memory.readRun cap m (t % cap) n = Memory.readRun cap m t n := by
  simp [Memory.readRun, Nat.mod_add_mod]

/-- Committed bytes are read back where they were written. -/
theorem Memory.readRun_writeRun {cap : Nat} {m : Memory} {t : Nat} {data : List Byte} (hm : Memory.wf m = true)
    (hl : data.length ≤ cap) : Memory.readRun cap (Memory.writeRun cap m t data) t data.length = data := by
  apply List.ext_getElem
  · simp
  · intro k h1 h2
    rw [Memory.readRun_getElem (by simpa using h1), Memory.read_writeRun_at hm hl h2]

/-- Committed bytes leave a region alone that lies outside them. -/
theorem Memory.readRun_writeRun_other {cap : Nat} {m : Memory} {t n : Nat} {data : List Byte}
    (hm : Memory.wf m = true) (hl : n + data.length ≤ cap) :
    Memory.readRun cap (Memory.writeRun cap m (t + n) data) t n = Memory.readRun cap m t n := by
  apply List.map_congr_left
  intro k hk
  have hk : k < n := by simpa using hk
  refine Memory.read_writeRun_other data hm fun j hj => ?_
  rw [Nat.add_assoc]
  exact add_mod_ne (by omega) (by omega) (by omega)

/-- Where a run of writes starts counts only modulo the capacity. -/
theorem Memory.writeRun_mod {cap : Nat} {m : Memory} {t : Nat} (data : List Byte) :
    Memory.writeRun cap m (t % cap) data = Memory.writeRun cap m t data := by
  induction data generalizing m t with
  | nil => rfl
  | cons b bs ih =>
    simp only [Memory.writeRun, Nat.mod_mod]
    rw [← ih (t := t % cap + 1), ← ih (t := t + 1), Nat.mod_add_mod]

/-- Committing bytes that fit puts them behind the bytes held, in order. -/
theorem rbCommit_contents {rb : RingBuffer} (h : rb.live) {data : List Byte} (hl : data.length ≤ rb.avail)
    (resv : Option Nat) : rbContents (rbCommit data resv rb) = rbContents rb ++ data := by
  obtain ⟨-, h1, -, hs, -, -, -, hm, -, -, -, hw, -⟩ := h
  simp only [rbContents, rbCommit]
  rw [Memory.readRun_add, ← hm, Memory.writeRun_mod, Memory.readRun_writeRun_other hw (by omega),
    Memory.readRun_writeRun hw (by omega)]

/-- Append puts its bytes behind the bytes held (41_ringbuffer.md R165). -/
theorem rbAppend_contents {rb rb' : RingBuffer} {data : List Byte} (h : rb.live) (e : rbAppend data rb = .ok rb') :
    rbContents rb' = rbContents rb ++ data := by
  unfold rbAppend at e
  split at e
  · cases e
  · cases e; exact rbCommit_contents h (by omega) _

/-- Advance_tail puts its bytes behind the bytes held (41_ringbuffer.md R165). -/
theorem rbAdvanceTail_contents {rb rb' : RingBuffer} {data : List Byte} (h : rb.live)
    (e : rbAdvanceTail data rb = .ok rb') : rbContents rb' = rbContents rb ++ data := by
  have hr := h.2.2.2.2.2.2.2.2.2.1
  unfold rbAdvanceTail at e
  split at e
  · cases e
  · rename_i n hn
    split at e
    · cases e
    · cases e
      rw [hn] at hr
      simp only [Option.getD_some] at hr
      exact rbCommit_contents h (by omega) _

/-- Consume drops its bytes from the front (41_ringbuffer.md R165). -/
theorem rbConsume_contents {rb rb' : RingBuffer} {len : Nat} (e : rbConsume len rb = .ok rb') :
    rbContents rb' = (rbContents rb).drop len := by
  unfold rbConsume at e
  split at e
  · cases e
  · rename_i hu
    split at e
    · cases e
    · cases e
      have key : (Memory.readRun rb.cap rb.store rb.head rb.used).drop len
          = Memory.readRun rb.cap rb.store (rb.head + len) (rb.used - len) := by
        rw [show rb.used = len + (rb.used - len) by omega, Memory.readRun_add]
        rw [List.drop_append_of_le_length (by simp), List.drop_of_length_le (by simp)]
        simp
      unfold rbEmptyReset rbContents
      split
      · rename_i h0
        simp only at h0
        rw [key, h0]; simp [Memory.readRun]
      · rw [key]; simp only [Memory.readRun_mod]

/-- Get hands out, in order, the bytes right after the in-flight region (41_ringbuffer.md R165). -/
theorem rbGet_bytes {rb : RingBuffer} {max : Nat} :
    (rbGet max rb).2.bytes = ((rbContents rb).drop rb.inFlight).take (rbGet max rb).2.n := by
  have hn := (rbGetLen_le (rb := rb) (max := max)).2.1
  simp only [rbGet, rbContents, rbGetStart, Memory.readRun_mod]
  apply List.ext_getElem
  · simp; omega
  · intro k h1 h2
    simp only [Memory.readRun_length] at h1
    rw [Memory.readRun_getElem h1, List.getElem_take, List.getElem_drop,
      Memory.readRun_getElem (by omega)]
    congr 1
    rw [Nat.add_assoc]

/-- Get changes no byte held. -/
@[simp] theorem rbGet_contents {rb : RingBuffer} {max : Nat} : rbContents (rbGet max rb).1 = rbContents rb := rfl

end Sys2Proof.Machine
end

