-- ==== Sys2Proof/Laws/State.lean ====
section
/-! SUPPORT. What each named update of the state does to each field, once, by definition. -/

namespace Sys2Proof.Machine

variable (s : State)

/-! ## State.setPort -/

@[simp] theorem State.setPort_params (p : Nat) (x : Port) : (s.setPort p x).params = s.params := rfl
@[simp] theorem State.setPort_srb (p : Nat) (x : Port) : (s.setPort p x).srb = s.srb := rfl
@[simp] theorem State.setPort_ports (p : Nat) (x : Port) : (s.setPort p x).ports = s.ports.set p x := rfl
@[simp] theorem State.setPort_host (p : Nat) (x : Port) : (s.setPort p x).host = s.host := rfl
@[simp] theorem State.setPort_fault (p : Nat) (x : Port) : (s.setPort p x).fault = s.fault := rfl
@[simp] theorem State.setPort_refused (p : Nat) (x : Port) : (s.setPort p x).refused = s.refused := rfl
@[simp] theorem State.setPort_draws (p : Nat) (x : Port) : (s.setPort p x).draws = s.draws := rfl
@[simp] theorem State.setPort_results (p : Nat) (x : Port) : (s.setPort p x).results = s.results := rfl
@[simp] theorem State.setPort_hostq (p : Nat) (x : Port) : (s.setPort p x).hostq = s.hostq := rfl
@[simp] theorem State.setPort_turns (p : Nat) (x : Port) : (s.setPort p x).turns = s.turns := rfl

/-! ## State.setRb -/

@[simp] theorem State.setRb_params (i : Nat) (rb : RingBuffer) : (s.setRb i rb).params = s.params := rfl
@[simp] theorem State.setRb_srb (i : Nat) (rb : RingBuffer) : (s.setRb i rb).srb = s.srb.set i rb := rfl
@[simp] theorem State.setRb_ports (i : Nat) (rb : RingBuffer) : (s.setRb i rb).ports = s.ports := rfl
@[simp] theorem State.setRb_host (i : Nat) (rb : RingBuffer) : (s.setRb i rb).host = s.host := rfl
@[simp] theorem State.setRb_fault (i : Nat) (rb : RingBuffer) : (s.setRb i rb).fault = s.fault := rfl
@[simp] theorem State.setRb_refused (i : Nat) (rb : RingBuffer) : (s.setRb i rb).refused = s.refused := rfl
@[simp] theorem State.setRb_draws (i : Nat) (rb : RingBuffer) : (s.setRb i rb).draws = s.draws := rfl
@[simp] theorem State.setRb_results (i : Nat) (rb : RingBuffer) : (s.setRb i rb).results = s.results := rfl
@[simp] theorem State.setRb_hostq (i : Nat) (rb : RingBuffer) : (s.setRb i rb).hostq = s.hostq := rfl
@[simp] theorem State.setRb_turns (i : Nat) (rb : RingBuffer) : (s.setRb i rb).turns = s.turns := rfl

/-! ## State.ret -/

@[simp] theorem State.ret_params (r : Result) : (s.ret r).params = s.params := rfl
@[simp] theorem State.ret_srb (r : Result) : (s.ret r).srb = s.srb := rfl
@[simp] theorem State.ret_ports (r : Result) : (s.ret r).ports = s.ports := rfl
@[simp] theorem State.ret_host (r : Result) : (s.ret r).host = s.host := rfl
@[simp] theorem State.ret_fault (r : Result) : (s.ret r).fault = s.fault := rfl
@[simp] theorem State.ret_refused (r : Result) : (s.ret r).refused = s.refused := rfl
@[simp] theorem State.ret_draws (r : Result) : (s.ret r).draws = s.draws := rfl
@[simp] theorem State.ret_results (r : Result) : (s.ret r).results = s.results ++ [r] := rfl
@[simp] theorem State.ret_hostq (r : Result) : (s.ret r).hostq = s.hostq := rfl
@[simp] theorem State.ret_turns (r : Result) : (s.ret r).turns = s.turns := rfl

/-! ## State.raise -/

@[simp] theorem State.raise_params (c : FaultCode) (w : Word) : (s.raise c w).params = s.params := rfl
@[simp] theorem State.raise_srb (c : FaultCode) (w : Word) : (s.raise c w).srb = s.srb := rfl
@[simp] theorem State.raise_ports (c : FaultCode) (w : Word) : (s.raise c w).ports = s.ports := rfl
@[simp] theorem State.raise_host (c : FaultCode) (w : Word) : (s.raise c w).host = s.host := rfl
@[simp] theorem State.raise_fault (c : FaultCode) (w : Word) : (s.raise c w).fault = { valid := true, code := c.code, word := w } := rfl
@[simp] theorem State.raise_refused (c : FaultCode) (w : Word) : (s.raise c w).refused = s.refused := rfl
@[simp] theorem State.raise_draws (c : FaultCode) (w : Word) : (s.raise c w).draws = s.draws := rfl
@[simp] theorem State.raise_results (c : FaultCode) (w : Word) : (s.raise c w).results = s.results := rfl
@[simp] theorem State.raise_hostq (c : FaultCode) (w : Word) : (s.raise c w).hostq = s.hostq := rfl
@[simp] theorem State.raise_turns (c : FaultCode) (w : Word) : (s.raise c w).turns = s.turns := rfl

/-! ## State.refuse -/

@[simp] theorem State.refuse_params (reason : BitVec 8) : (s.refuse reason).params = s.params := rfl
@[simp] theorem State.refuse_srb (reason : BitVec 8) : (s.refuse reason).srb = s.srb := rfl
@[simp] theorem State.refuse_ports (reason : BitVec 8) : (s.refuse reason).ports = s.ports := rfl
@[simp] theorem State.refuse_host (reason : BitVec 8) : (s.refuse reason).host = s.host := rfl
@[simp] theorem State.refuse_fault (reason : BitVec 8) : (s.refuse reason).fault = s.fault := rfl
@[simp] theorem State.refuse_refused (reason : BitVec 8) : (s.refuse reason).refused = { valid := true, reason := reason } := rfl
@[simp] theorem State.refuse_draws (reason : BitVec 8) : (s.refuse reason).draws = s.draws := rfl
@[simp] theorem State.refuse_results (reason : BitVec 8) : (s.refuse reason).results = s.results := rfl
@[simp] theorem State.refuse_hostq (reason : BitVec 8) : (s.refuse reason).hostq = s.hostq := rfl
@[simp] theorem State.refuse_turns (reason : BitVec 8) : (s.refuse reason).turns = s.turns := rfl

/-! ## State.popTurn -/

@[simp] theorem State.popTurn_params : (s.popTurn).params = s.params := rfl
@[simp] theorem State.popTurn_srb : (s.popTurn).srb = s.srb := rfl
@[simp] theorem State.popTurn_ports : (s.popTurn).ports = s.ports := rfl
@[simp] theorem State.popTurn_host : (s.popTurn).host = s.host := rfl
@[simp] theorem State.popTurn_fault : (s.popTurn).fault = s.fault := rfl
@[simp] theorem State.popTurn_refused : (s.popTurn).refused = s.refused := rfl
@[simp] theorem State.popTurn_draws : (s.popTurn).draws = s.draws := rfl
@[simp] theorem State.popTurn_results : (s.popTurn).results = s.results := rfl
@[simp] theorem State.popTurn_hostq : (s.popTurn).hostq = s.hostq := rfl
@[simp] theorem State.popTurn_turns : (s.popTurn).turns = s.turns.tail := rfl

/-! ## State.popCommand -/

@[simp] theorem State.popCommand_params : (s.popCommand).params = s.params := rfl
@[simp] theorem State.popCommand_srb : (s.popCommand).srb = s.srb := rfl
@[simp] theorem State.popCommand_ports : (s.popCommand).ports = s.ports := rfl
@[simp] theorem State.popCommand_host : (s.popCommand).host = s.host := rfl
@[simp] theorem State.popCommand_fault : (s.popCommand).fault = s.fault := rfl
@[simp] theorem State.popCommand_refused : (s.popCommand).refused = s.refused := rfl
@[simp] theorem State.popCommand_draws : (s.popCommand).draws = s.draws := rfl
@[simp] theorem State.popCommand_results : (s.popCommand).results = s.results := rfl
@[simp] theorem State.popCommand_hostq : (s.popCommand).hostq = s.hostq.tail := rfl
@[simp] theorem State.popCommand_turns : (s.popCommand).turns = s.turns := rfl

end Sys2Proof.Machine
end

