-- ==== Sys2Proof/Laws/Ops.lean ====
section
/-! SUPPORT. Everything each shared operation of Ops.lean, Operands.lean and Fetch.lean can do, once: later proofs cite
these and unfold no prologue. -/

namespace Sys2Proof.Machine

/-! ## Prologues -/

theorem unlessStopped_running {s : State} (h : s.running) (t : State) : unlessStopped s t = .next t := by
  simp [unlessStopped, h.1, h.2]

theorem unlessStopped_next {s t s' : State} : unlessStopped s t = .next s' ↔ s.running ∧ t = s' := by
  unfold unlessStopped State.running
  split <;> simp_all
  split <;> simp_all

/-- A stopped block answers its stop, whatever runs (60_exceptions.md R261, R262). -/
theorem unlessStopped_fault {s t : State} (h : s.fault.valid = true) :
    unlessStopped s t = .fault .stoppedByFault := by simp [unlessStopped, h]

theorem unlessStopped_refusal {s t : State} (h : s.fault.valid = false) (h' : s.refused.valid = true) :
    unlessStopped s t = .fault .stoppedByRefusal := by simp [unlessStopped, h, h']

theorem issue_ready {s : State} (h : s.running) (hi : s.host = .idle) (t : State) : issue s t = .next t := by
  simp [issue, unlessStopped_running h, hi]

/-- A command's issue step runs while the HOST is IDLE, and waits while it is not (10_state.md R46). -/
theorem issue_next {s t s' : State} :
    issue s t = .next s' ↔ s.running ∧ ((s.host = .idle ∧ t = s') ∨ (s.host ≠ .idle ∧ s = s')) := by
  unfold issue
  rw [unlessStopped_next]
  split <;> simp_all

theorem onInstance_some {w : Word} {sel : Nat} {s : State} {k : RingBuffer → State} {rb : RingBuffer}
    (h : s.srb[sel]? = some rb) : onInstance w sel s k = k rb := by simp [onInstance, h]

theorem onInstance_none {w : Word} {sel : Nat} {s : State} {k : RingBuffer → State}
    (h : s.srb.length ≤ sel) : onInstance w sel s k = s.raise .badInstance w := by
  simp [onInstance, List.getElem?_eq_none h]

theorem onAllocated_some {w : Word} {sel : Nat} {s : State} {k : RingBuffer → State} {rb : RingBuffer}
    (h : s.srb[sel]? = some rb) (ha : rb.alloc = true) : onAllocated w sel s k = k rb := by
  simp [onAllocated, onInstance_some h, ha]

theorem onAllocated_unallocated {w : Word} {sel : Nat} {s : State} {k : RingBuffer → State} {rb : RingBuffer}
    (h : s.srb[sel]? = some rb) (ha : rb.alloc = false) : onAllocated w sel s k = s.raise .rbNotAllocated w := by
  simp [onAllocated, onInstance_some h, ha]

theorem onAllocated_none {w : Word} {sel : Nat} {s : State} {k : RingBuffer → State}
    (h : s.srb.length ≤ sel) : onAllocated w sel s k = s.raise .badInstance w := onInstance_none h

theorem onPort_some {w : Word} {sel : Nat} {s : State} {k : Port → State} {p : Port}
    (h : s.ports[sel]? = some p) : onPort w sel s k = k p := by simp [onPort, h]

theorem onPort_none {w : Word} {sel : Nat} {s : State} {k : Port → State}
    (h : s.ports.length ≤ sel) : onPort w sel s k = s.raise .badPort w := by
  simp [onPort, List.getElem?_eq_none h]

theorem onConfigured_some {w : Word} {sel : Nat} {s : State} {k : Port → State} {p : Port}
    (h : s.ports[sel]? = some p) (hu : p.phase ≠ .uninit) : onConfigured w sel s k = k p := by
  simp [onConfigured, onPort_some h, hu]

theorem onConfigured_uninit {w : Word} {sel : Nat} {s : State} {k : Port → State} {p : Port}
    (h : s.ports[sel]? = some p) (hu : p.phase = .uninit) :
    onConfigured w sel s k = s.raise .notConfigured w := by simp [onConfigured, onPort_some h, hu]

theorem onConfigured_none {w : Word} {sel : Nat} {s : State} {k : Port → State}
    (h : s.ports.length ≤ sel) : onConfigured w sel s k = s.raise .badPort w := onPort_none h

/-! ## The same, read from the answer -/

/-- What an RB command does when the block goes on: a selector fault, or its own effect on its instance. -/
theorem onInstance_cases {w : Word} {sel : Nat} {s : State} {k : RingBuffer → State} :
    onInstance w sel s k = s.raise .badInstance w ∨
    ∃ rb, s.srb[sel]? = some rb ∧ onInstance w sel s k = k rb := by
  unfold onInstance
  split
  · exact .inl rfl
  · exact .inr ⟨_, ‹_›, rfl⟩

theorem onAllocated_cases {w : Word} {sel : Nat} {s : State} {k : RingBuffer → State} :
    (∃ c, onAllocated w sel s k = s.raise c w) ∨
    ∃ rb, s.srb[sel]? = some rb ∧ rb.alloc = true ∧ onAllocated w sel s k = k rb := by
  rcases onInstance_cases (w := w) (sel := sel) (s := s)
    (k := fun rb => if rb.alloc then k rb else s.raise .rbNotAllocated w) with h | ⟨rb, h, e⟩
  · exact .inl ⟨_, h⟩
  · by_cases ha : rb.alloc = true
    · exact .inr ⟨rb, h, ha, by rw [onAllocated, e]; simp [ha]⟩
    · exact .inl ⟨.rbNotAllocated, by rw [onAllocated, e]; simp [ha]⟩

theorem onPort_cases {w : Word} {sel : Nat} {s : State} {k : Port → State} :
    onPort w sel s k = s.raise .badPort w ∨ ∃ p, s.ports[sel]? = some p ∧ onPort w sel s k = k p := by
  unfold onPort
  split
  · exact .inl rfl
  · exact .inr ⟨_, ‹_›, rfl⟩

theorem onConfigured_cases {w : Word} {sel : Nat} {s : State} {k : Port → State} :
    (∃ c, onConfigured w sel s k = s.raise c w) ∨
    ∃ p, s.ports[sel]? = some p ∧ p.phase ≠ .uninit ∧ onConfigured w sel s k = k p := by
  rcases onPort_cases (w := w) (sel := sel) (s := s)
    (k := fun p => if p.phase = .uninit then s.raise .notConfigured w else k p) with h | ⟨p, h, e⟩
  · exact .inl ⟨_, h⟩
  · by_cases hu : p.phase = .uninit
    · exact .inl ⟨.notConfigured, by rw [onConfigured, e]; simp [hu]⟩
    · exact .inr ⟨p, h, hu, by rw [onConfigured, e]; simp [hu]⟩

/-! ## An agent's step -/

theorem agentStep_enabled {w : Word} {sel : Nat} {s : State} {en : Port → Bool} {k : Port → State} {p : Port}
    (hr : s.running) (h : s.ports[sel]? = some p) (he : en p = true) :
    agentStep w sel s en k = .next (k p) := by simp [agentStep, unlessStopped_running hr, onPort_some h, he]

theorem agentStep_disabled {w : Word} {sel : Nat} {s : State} {en : Port → Bool} {k : Port → State} {p : Port}
    (hr : s.running) (h : s.ports[sel]? = some p) (he : en p = false) :
    agentStep w sel s en k = .next s := by simp [agentStep, unlessStopped_running hr, onPort_some h, he]

theorem agentStep_none {w : Word} {sel : Nat} {s : State} {en : Port → Bool} {k : Port → State}
    (hr : s.running) (h : s.ports.length ≤ sel) : agentStep w sel s en k = .next (s.raise .badPort w) := by
  simp [agentStep, unlessStopped_running hr, onPort_none h]

/-- Everything an agent's step can answer. -/
theorem agentStep_next {w : Word} {sel : Nat} {s s' : State} {en : Port → Bool} {k : Port → State}
    (h : agentStep w sel s en k = .next s') : s.running ∧
      ((s.ports[sel]? = none ∧ s' = s.raise .badPort w) ∨
       (∃ p, s.ports[sel]? = some p ∧ en p = true ∧ s' = k p) ∨
       (∃ p, s.ports[sel]? = some p ∧ en p = false ∧ s' = s)) := by
  obtain ⟨hr, rfl⟩ := unlessStopped_next.mp h
  refine ⟨hr, ?_⟩
  unfold onPort
  split
  · exact .inl ⟨‹_›, rfl⟩
  · rename_i p hp
    by_cases he : en p = true
    · exact .inr (.inl ⟨p, hp, he, by simp [he]⟩)
    · exact .inr (.inr ⟨p, hp, by simpa using he, by simp [he]⟩)

/-! ## Writing back what is there -/

/-- A list with an entry written over by itself. -/
theorem set_self_of_getElem? {α : Type} {l : List α} {i : Nat} {x : α} (h : l[i]? = some x) : l.set i x = l := by
  obtain ⟨hi, rfl⟩ := List.getElem?_eq_some_iff.mp h
  simp

theorem State.setPort_self {s : State} {sel : Nat} {p : Port} (h : s.ports[sel]? = some p) :
    s.setPort sel p = s := by simp [State.setPort, set_self_of_getElem? h]

theorem State.setRb_self {s : State} {sel : Nat} {rb : RingBuffer} (h : s.srb[sel]? = some rb) :
    s.setRb sel rb = s := by simp [State.setRb, set_self_of_getElem? h]

/-- What port `q` holds after port `sel`'s record was replaced. -/
theorem State.setPort_getElem? {s : State} {sel q : Nat} {p x : Port} (h : s.ports[sel]? = some p) :
    (s.setPort sel x).ports[q]? = if q = sel then some x else s.ports[q]? := by
  obtain ⟨hi, -⟩ := List.getElem?_eq_some_iff.mp h
  simp only [State.setPort_ports, List.getElem?_set]
  split <;> rename_i e
  · subst e; simp
  · rw [if_neg fun e' => e e'.symm]

/-! ## The ring-buffer commands -/

/-- What an RB operation on an instance answers. -/
theorem finishRb_map {w : Word} {sel : Nat} {s : State} {r : Except FaultCode RingBuffer} {res : Result} :
    finishRb w sel s (r.map fun x => (x, res)) = match r with
      | .error c => s.raise c w
      | .ok rb => (s.setRb sel rb).ret res := by cases r <;> rfl

/-! ## FIFOs -/

@[simp] theorem writeBytes_eq (v : Device) (bs : List Byte) : writeBytes v bs = { v with txf := v.txf ++ bs } := by
  induction bs generalizing v with
  | nil => simp [writeBytes]
  | cons b bs ih => simp [writeBytes, ih, writeByte]

theorem rxFifoLen_eq (P : Params) (d : Draws) (v : Device) : rxFifoLen P d v =
    (if v.rxCorrupt then d.upTo P.rxFifoCap else v.rxf.length, if v.rxCorrupt then d.pop else d) := by
  unfold rxFifoLen; split <;> rfl

theorem readByte_sound {d : Draws} {v : Device} {b : Byte} {q : List Byte} (hc : v.rxCorrupt = false)
    (hq : v.rxf = b :: q) : readByte d v = (b, d, { v with rxf := q }) := by simp [readByte, hc, hq]

theorem readByte_corrupt {d : Draws} {v : Device} (hc : v.rxCorrupt = true) :
    readByte d v = (d.byte, d.pop, { v with rxf := v.rxf.tail }) := by simp [readByte, hc]

/-! ## Words of four bits -/

theorem wordOfBits_getLsbD (b0 b1 b2 b3 : Bool) (i : Nat) : (wordOfBits b0 b1 b2 b3).getLsbD i =
    ((decide (i = 0) && b0) || (decide (i = 1) && b1) || (decide (i = 2) && b2) || (decide (i = 3) && b3)) := by
  rcases Nat.lt_or_ge i 4 with h | h
  · interval_cases i <;> cases b0 <;> cases b1 <;> cases b2 <;> cases b3 <;> rfl
  · unfold wordOfBits
    rw [BitVec.getLsbD_setWidth, BitVec.getLsbD_of_ge _ _ (by omega)]
    simp; omega

theorem setBit_getLsbD (w : Word) (i j : Nat) (b : Bool) (hj : j < 32) :
    (setBit w i b).getLsbD j = if j = i then b else w.getLsbD j := by
  unfold setBit
  have h : (!decide (j < i) && decide (j - i = 0)) = decide (j = i) := by
    rw [Bool.eq_iff_iff]; simp; omega
  cases b <;> simp [hj, h] <;> by_cases e : j = i <;> simp [e]

@[simp] theorem readIntEna_getLsbD (v : Device) (i : Nat) : (readIntEna v).getLsbD i = v.intEna.getLsbD i := by
  unfold readIntEna
  rw [BitVec.getLsbD_setWidth]
  rcases Nat.lt_or_ge i 4 with h | h
  · simp; omega
  · rw [BitVec.getLsbD_of_ge _ _ (by omega)]; simp

@[simp] theorem setInterruptEnable_getLsbD (v : Device) (w : Word) (i : Nat) :
    (setInterruptEnable v w).intEna.getLsbD i = (decide (i < 4) && w.getLsbD i) := by
  simp [setInterruptEnable, BitVec.getLsbD_extractLsb']

/-! ## The reset memory -/

/-- No store of the reset state lists a byte, so each has the canonical form. -/
theorem reset_stores_wf : (∀ rb ∈ State.reset.srb, Memory.wf rb.store = true) ∧
    ∀ p ∈ State.reset.ports, Memory.wf p.rx.store = true ∧ Memory.wf p.tx.store = true := by
  constructor
  · intro rb h
    simp only [State.reset, State.resetWith, List.mem_replicate] at h
    rw [h.2]; rfl
  · intro p h
    simp only [State.reset, State.resetWith, List.mem_map] at h
    obtain ⟨q, -, rfl⟩ := h
    exact ⟨rfl, rfl⟩

end Sys2Proof.Machine
end

