-- ==== Sys2Proof/Laws/Driver.lean ====
section
/-! SUPPORT. One law per function of the driver core and of the line: what it keeps of a sound port (10_state.md R22,
R30; 43_dispatch.md R209; 41_ringbuffer.md R167), so that the step's invariant is a case analysis over these. -/

namespace Sys2Proof.Machine

/-! ## Masks and enable bits -/

/-- Masking twice is masking once (10_state.md R42). -/
@[simp] theorem dmask_idem (f : Frame) (b : Byte) : b &&& dmask f &&& dmask f = b &&& dmask f := by
  rw [BitVec.and_assoc, BitVec.and_self]

/-- Disarming one data enable, as a mask of the four bits. -/
theorem disarm_rxData (e : BitVec 4) : (setBit (e.setWidth 32) rxData false).extractLsb' 0 4 = e &&& 0b1110#4 := by
  revert e; decide

/-- Disarming one data enable, as a mask of the four bits. -/
theorem disarm_txSpace (e : BitVec 4) : (setBit (e.setWidth 32) txSpace false).extractLsb' 0 4 = e &&& 0b1101#4 := by
  revert e; decide

/-! ## Configuration -/

/-- A configuration that passes validation, its TX flow control supported, is one the port may hold
(42_uart_host.md R171, R176). -/
theorem validate_valid {P : Params} {c : CfgWords} {cfg : PortCfg} (h : validate P c = .ok cfg)
    (hs : cfg.txFlowControl ≠ .software) : cfgValid P cfg := by
  unfold validate at h
  split at h; · cases h
  split at h; · cases h
  rename_i hb
  split at h; · cases h
  rename_i hd
  split at h; · cases h
  split at h; · cases h
  split at h
  · have h2 := bitField_lt c.w2 0 16
    have h2' := bitField_lt c.w2 16 16
    unfold validateSizes at h
    split at h; · cases h
    split at h; · cases h
    split at h; · cases h
    rename_i k1 k2 k3
    cases h
    simp only [cfgOfWords, not_or, not_and, not_lt, gt_iff_lt] at *
    refine ⟨hb.1, hb.2, hd.1, hd.2, by simp only; omega, ?_, by simp only; omega, ?_, k2, hs, k3⟩ <;>
      simp only [Config.capMax] <;> omega
  · cases h

theorem configureApply_sound {P : Params} {c : PortCfg} {p : Port} (hc : cfgValid P c) (hd : p.dphase = .idle) :
    (configureApply c p).sound P := by
  obtain ⟨h1, h2, h3, h4, h5, h6, h7, h8, h9, h10, h11⟩ := hc
  refine .inr ⟨by simp [configureApply], rfl, ⟨h1, h2, h3, h4, h5, h6, h7, h8, h9, h10, h11⟩,
    ⟨rbFresh_live h5 h6, rbFresh_live h7 h8, rfl, rfl, rfl, rfl, rfl, ?_, ?_⟩, ?_, by simp [configureApply]⟩
  · simp [configureApply, rbFresh, hd, DPhase.txInFlight]
  · simp [configureApply, hd, DPhase.legal]
  · exact ⟨Nat.zero_le _, Nat.zero_le _, rfl, by simp [configureApply, setInterruptEnable, emptyDevice, setBaudDivisor],
      by simp [configureApply, informationalEnables, rxOvf], by simp [configureApply, informationalEnables, ctsChg],
      by simp [configureApply, setInterruptEnable, emptyDevice, setBaudDivisor]⟩

theorem portDown_sound {P : Params} {p : Port} (hd : p.dphase = .idle) : (portDown p).sound P :=
  .inl ⟨rfl, rfl, rfl, rfl, rfl, hd, rfl, rfl, rfl, rfl, rfl, rfl, rfl, rfl, rfl, rfl, rfl⟩

/-- A sound port whose dispatcher does not hold configure or deinit has an idle dispatcher. -/
theorem Port.idle_of_noHold {P : Params} {p : Port} (h : p.sound P) (hn : holdsForDispatcher p = false) :
    p.dphase = .idle := by
  by_cases hu : p.phase = .uninit
  · rcases h with h | h
    · exact h.2.2.2.2.2.1
    · exact absurd hu h.1
  · simpa [holdsForDispatcher, hu] using hn

theorem Port.up_of_sound {P : Params} {p : Port} (h : p.sound P) (hu : p.phase ≠ .uninit) :
    p.registered = true ∧ p.up P := by
  rcases h with h | h
  · exact absurd h.1 hu
  · exact h.2

theorem started_running {p : Port} (hu : p.phase ≠ .uninit) : p.phase.started = .running := by
  cases e : p.phase
  · exact absurd e hu
  · rfl
  · rfl

/-! ## The dispatcher -/

/-- When RX_FC sends XOFF (43_dispatch.md R204). -/
theorem sendsXoff_iff {P : Params} {p : Port} : sendsXoff P p = true ↔ p.cfg.rxFlowControl = .software ∧
    p.xoffSent = false ∧ p.cfg.rxFifoFcThresh ≤ p.rx.used ∧ p.dev.txf.length < P.txFifoCap := by
  simp only [sendsXoff, Bool.and_eq_true, decide_eq_true_eq]
  simp [txFifoLen, and_assoc]

/-- When RX_FC sends XON (43_dispatch.md R204). -/
theorem sendsXon_iff {P : Params} {p : Port} : sendsXon P p = true ↔ p.cfg.rxFlowControl = .software ∧
    p.xoffSent = true ∧ p.rx.used < xonLow P p.cfg ∧ p.dev.txf.length < P.txFifoCap := by
  simp only [sendsXon, Bool.and_eq_true, decide_eq_true_eq]
  simp [txFifoLen, and_assoc]

/-- XON_LOW never exceeds rx_fifo_fc_thresh (00_scope.md R7). -/
theorem xonLow_le (P : Params) (c : PortCfg) : xonLow P c ≤ c.rxFifoFcThresh := by
  unfold xonLow; split <;> omega

/-- Moving a byte: space is there, and so is the byte, so nothing faults (43_dispatch.md R202). -/
theorem dispatchRxMove_up {P : Params} {p : Port} (h : p.up P) (d : Draws) (hav : 0 < p.rx.avail)
    (hne : p.dev.rxCorrupt = true ∨ p.dev.rxf ≠ []) :
    ∃ p' d', dispatchRxMove d p = .ok (p', d') ∧ p'.up P ∧ p'.phase = p.phase ∧ p'.registered = p.registered := by
  obtain ⟨hc, ⟨hrx, htx, hrc, htc, hrr, htr, hri, hti, hlg⟩, ⟨hd1, hd2, hfr, hdm, he2, he3, hcr⟩, hx⟩ := h
  have e : ∀ b, rbAppendOne b p.rx = .ok (rbCommit [b] none p.rx) := by
    intro b; simp [rbAppendOne, rbAppend]; omega
  have key : (readByte d p.dev).2.2 = { p.dev with rxf := p.dev.rxf.tail } := by
    by_cases hk : p.dev.rxCorrupt = true
    · rw [readByte_corrupt hk]
    · obtain ⟨b, q, hq⟩ := List.exists_cons_of_ne_nil (hne.resolve_left hk)
      rw [readByte_sound (by simpa using hk) hq, hq]; rfl
  unfold dispatchRxMove
  simp only [e, key]
  exact ⟨_, _, rfl, ⟨hc, ⟨rbAppend_live hrx (e _), htx, hrc, htc, rfl, htr, hri, hti, hlg⟩,
    ⟨by simp only [List.length_tail]; omega, hd2, hfr, fun b hb => hdm b (List.mem_of_mem_tail hb), he2, he3, hcr⟩,
    hx⟩, rfl, rfl⟩

/-- RX_TOP keeps a port up (43_dispatch.md R202). -/
theorem dispatchRxTop_up {P : Params} {p : Port} (h : p.up P) (d : Draws) (hph : p.dphase = .rxTop) :
    ∃ p' d', dispatchRxTop P d p = .ok (p', d') ∧ p'.up P ∧ p'.phase = p.phase ∧ p'.registered = p.registered := by
  unfold dispatchRxTop
  simp only [rxFifoLen_eq]
  by_cases hm : canReceive p = true ∧ (if p.dev.rxCorrupt = true then d.upTo P.rxFifoCap else p.dev.rxf.length) > 0
  · rw [if_pos hm]
    have hav := hm.1
    simp only [canReceive, Bool.and_eq_true, decide_eq_true_eq] at hav
    refine dispatchRxMove_up h _ hav.2 ?_
    by_cases hk : p.dev.rxCorrupt = true
    · exact .inl hk
    · exact .inr (List.ne_nil_of_length_pos (by simpa [hk] using hm.2))
  · rw [if_neg hm]
    obtain ⟨hc, ⟨hrx, htx, hrc, htc, hrr, htr, hri, hti, hlg⟩, hd, hx⟩ := h
    simp only [hph, DPhase.txInFlight] at hti
    split
    · exact ⟨_, _, rfl, ⟨hc, ⟨hrx, htx, hrc, htc, hrr, htr, hri, hti, rfl⟩, hd, hx⟩, rfl, rfl⟩
    · exact ⟨_, _, rfl, ⟨hc, ⟨hrx, htx, hrc, htc, hrr, htr, hri, hti, rfl⟩, hd, hx⟩, rfl, rfl⟩

/-- No micro-step faults in a sound port, and each keeps it sound and configured (41_ringbuffer.md R167,
43_dispatch.md R209). -/
theorem dispatchMicro_up {P : Params} {p : Port} (h : p.up P) (d : Draws) :
    ∃ p' d', dispatchMicro P d p = .ok (p', d') ∧ p'.up P ∧ p'.phase = p.phase ∧ p'.registered = p.registered := by
  obtain ⟨hc, ⟨hrx, htx, hrc, htc, hrr, htr, hri, hti, hlg⟩, ⟨hd1, hd2, hfr, hdm, he2, he3, hcr⟩, hx⟩ := h
  unfold dispatchMicro
  split <;> rename_i hph <;> simp only [hph, DPhase.txInFlight, DPhase.legal] at hti hlg
  · -- IDLE
    exact ⟨_, _, rfl, ⟨hc, ⟨hrx, htx, hrc, htc, hrr, htr, hri, by simpa [dispatchIdle, DPhase.txInFlight] using hti, rfl⟩,
      ⟨hd1, hd2, hfr, hdm, he2, he3, hcr⟩, hx⟩, rfl, rfl⟩
  · -- RX_TOP
    exact dispatchRxTop_up ⟨hc, ⟨hrx, htx, hrc, htc, hrr, htr, hri, by simp [hph, DPhase.txInFlight, hti],
      by simp [hph, DPhase.legal]⟩, ⟨hd1, hd2, hfr, hdm, he2, he3, hcr⟩, hx⟩ d hph
  · -- LINGER
    unfold dispatchLinger
    split
    · exact ⟨_, _, rfl, ⟨hc, ⟨hrx, htx, hrc, htc, hrr, htr, hri, hti, rfl⟩, ⟨hd1, hd2, hfr, hdm, he2, he3, hcr⟩, hx⟩,
        rfl, rfl⟩
    · simp only
      split
      · exact ⟨_, _, rfl, ⟨hc, ⟨hrx, htx, hrc, htc, hrr, htr, hri, hti, rfl⟩,
          ⟨hd1, hd2, hfr, hdm, he2, he3, hcr⟩, hx⟩, rfl, rfl⟩
      · exact ⟨_, _, rfl, ⟨hc, ⟨hrx, htx, hrc, htc, hrr, htr, hri, by simp [hph, DPhase.txInFlight, hti],
          by simp [hph, DPhase.legal]⟩, ⟨hd1, hd2, hfr, hdm, he2, he3, hcr⟩, hx⟩, rfl, rfl⟩
  · -- RX_FC
    unfold dispatchRxFc
    split
    · rename_i hs
      rw [sendsXoff_iff] at hs
      exact ⟨_, _, rfl, ⟨hc, ⟨hrx, htx, hrc, htc, hrr, htr, hri, hti, rfl⟩,
        ⟨hd1, by simp only [writeByte, List.length_append, List.length_singleton]; omega, hfr, hdm, he2, he3, hcr⟩,
        fun _ => hs.1⟩, rfl, rfl⟩
    · split
      · rename_i hs
        rw [sendsXon_iff] at hs
        exact ⟨_, _, rfl, ⟨hc, ⟨hrx, htx, hrc, htc, hrr, htr, hri, hti, rfl⟩,
          ⟨hd1, by simp only [writeByte, List.length_append, List.length_singleton]; omega, hfr, hdm, he2, he3, hcr⟩,
          by simp⟩, rfl, rfl⟩
      · exact ⟨_, _, rfl, ⟨hc, ⟨hrx, htx, hrc, htc, hrr, htr, hri, hti, rfl⟩,
          ⟨hd1, hd2, hfr, hdm, he2, he3, hcr⟩, hx⟩, rfl, rfl⟩
  · -- TX_TOP
    unfold dispatchTxTop
    split
    · rename_i hm
      simp only [txFifoLen] at hm ⊢
      have hlen := (rbGetLen_le (rb := p.tx) (max := P.txFifoCap - p.dev.txf.length))
      have hpos : 1 ≤ rbGetLen (P.txFifoCap - p.dev.txf.length) p.tx := by
        have hh := htx.2.2.2.2.2.1
        simp only [rbGetLen, rbGetStart, hti, Nat.add_zero, Nat.mod_eq_of_lt hh]
        omega
      refine ⟨_, _, rfl, ⟨hc, ⟨hrx, rbGet_live htx, hrc, htc, hrr, htr, hri, ?_, ?_⟩, ⟨?_, ?_, ?_, ?_, ?_, ?_, ?_⟩, hx⟩,
        rfl, rfl⟩
      · simp [rbGet, DPhase.txInFlight, hti]
      · exact decide_eq_true hpos
      all_goals simp only [writeBytes_eq]
      · exact hd1
      · simp only [rbGet, List.length_append, Memory.readRun_length]; omega
      · exact hfr
      · exact hdm
      · exact he2
      · exact he3
      · exact hcr
    · exact ⟨_, _, rfl, ⟨hc, ⟨hrx, htx, hrc, htc, hrr, htr, hri, hti, rfl⟩, ⟨hd1, hd2, hfr, hdm, he2, he3, hcr⟩, hx⟩,
        rfl, rfl⟩
  · -- TX_CONSUME
    rename_i n
    unfold dispatchTxConsume
    have hle := htx.2.2.2.2.1
    have e : ∃ tx, rbConsume n p.tx = .ok tx ∧ tx.cap = p.tx.cap ∧ tx.resv = none ∧ tx.inFlight = 0 := by
      unfold rbConsume
      rw [if_neg (by omega), if_neg (by omega)]
      refine ⟨_, rfl, ?_, ?_, ?_⟩ <;> unfold rbEmptyReset <;> split <;> simp [htr, hti]
    obtain ⟨tx, e, e1, e2, e3⟩ := e
    rw [e]
    exact ⟨_, _, rfl, ⟨hc, ⟨hrx, rbConsume_live htx e, hrc, e1.trans htc, hrr, e2, hri, e3, rfl⟩,
      ⟨hd1, hd2, hfr, hdm, he2, he3, hcr⟩, hx⟩, rfl, rfl⟩
  · -- BOTTOM
    refine ⟨_, _, rfl, ⟨hc, ⟨hrx, htx, hrc, htc, hrr, htr, hri, hti, rfl⟩, ⟨hd1, hd2, hfr, hdm, ?_, ?_, hcr⟩, hx⟩,
      rfl, rfl⟩
    all_goals
      simp only [dispatchBottom, setInterruptEnable_getLsbD]
      rw [setBit_getLsbD _ _ _ _ (by decide), setBit_getLsbD _ _ _ _ (by decide)]
    · rw [if_neg (by decide), if_neg (by decide), readIntEna_getLsbD, he2]; rfl
    · rw [if_neg (by decide), if_neg (by decide), readIntEna_getLsbD, he3]; rfl

/-! ## The interrupt top half -/

/-- The device after each cause is handled keeps its bounds; nothing but the device, the counters and the request
changes (60_exceptions.md R270). -/
theorem isrRun_up {P : Params} {p : Port} (h : p.up P) :
    (isrRun P p).up P ∧ (isrRun P p).phase = p.phase ∧ (isrRun P p).registered = p.registered := by
  obtain ⟨hc, hb, ⟨hd1, hd2, hfr, hdm, he2, he3, hcr⟩, hx⟩ := h
  have k : ∀ st : Word, (isrAck st (isrSchedule st (isrTxSpace st (isrRxData st (isrCtsChg st
      (isrRxOvf P st (isrCount p))))))).up P := by
    intro st
    have hen : ∀ (e : BitVec 4), e.getLsbD rxOvf = true → e.getLsbD ctsChg = true →
        ((setBit (e.setWidth 32) rxData false).extractLsb' 0 4).getLsbD rxOvf = true ∧
        ((setBit (e.setWidth 32) rxData false).extractLsb' 0 4).getLsbD ctsChg = true ∧
        ((setBit (e.setWidth 32) txSpace false).extractLsb' 0 4).getLsbD rxOvf = true ∧
        ((setBit (e.setWidth 32) txSpace false).extractLsb' 0 4).getLsbD ctsChg = true := by decide
    have up : ∀ {q : Port} (v : Device), q.cfg = p.cfg → q.rx = p.rx → q.tx = p.tx → q.dphase = p.dphase →
        q.xoffSent = p.xoffSent → q.deviceUp P → q.up P := by
      intro q v e1 e2 e3 e4 e5 e6
      refine ⟨e1 ▸ hc, ?_, e6, by rw [e5, e1]; exact hx⟩
      simp only [Port.buffersUp, e1, e2, e3, e4]; exact hb
    have s1 : (isrRxOvf P st (isrCount p)).deviceUp P := by
      unfold isrRxOvf
      split
      · simp only [Port.deviceUp, isrCount]
        split
        · exact ⟨Nat.zero_le _, hd2, hfr, by simp [resetRxFifo], he2, he3, by simp [resetRxFifo]⟩
        · exact ⟨hd1, hd2, hfr, hdm, he2, he3, hcr⟩
      · exact ⟨hd1, hd2, hfr, hdm, he2, he3, hcr⟩
    have f1 : (isrRxOvf P st (isrCount p)).cfg = p.cfg ∧ (isrRxOvf P st (isrCount p)).rx = p.rx ∧
        (isrRxOvf P st (isrCount p)).tx = p.tx ∧ (isrRxOvf P st (isrCount p)).dphase = p.dphase ∧
        (isrRxOvf P st (isrCount p)).xoffSent = p.xoffSent := by
      unfold isrRxOvf; split <;> exact ⟨rfl, rfl, rfl, rfl, rfl⟩
    generalize isrRxOvf P st (isrCount p) = q at *
    have s2 : (isrCtsChg st q).deviceUp P ∧ (isrCtsChg st q).cfg = q.cfg ∧ (isrCtsChg st q).rx = q.rx ∧
        (isrCtsChg st q).tx = q.tx ∧ (isrCtsChg st q).dphase = q.dphase ∧
        (isrCtsChg st q).xoffSent = q.xoffSent := by
      unfold isrCtsChg; split <;> exact ⟨s1, rfl, rfl, rfl, rfl, rfl⟩
    generalize isrCtsChg st q = q2 at *
    have s3 : (isrRxData st q2).deviceUp P ∧ (isrRxData st q2).cfg = q2.cfg ∧ (isrRxData st q2).rx = q2.rx ∧
        (isrRxData st q2).tx = q2.tx ∧ (isrRxData st q2).dphase = q2.dphase ∧
        (isrRxData st q2).xoffSent = q2.xoffSent := by
      obtain ⟨⟨g1, g2, g3, g4, g5, g6, g7⟩, -⟩ := s2
      have := hen _ g5 g6
      unfold isrRxData; split
      · exact ⟨⟨g1, g2, g3, g4, this.1, this.2.1, g7⟩, rfl, rfl, rfl, rfl, rfl⟩
      · exact ⟨⟨g1, g2, g3, g4, g5, g6, g7⟩, rfl, rfl, rfl, rfl, rfl⟩
    generalize isrRxData st q2 = q3 at *
    have s4 : (isrTxSpace st q3).deviceUp P ∧ (isrTxSpace st q3).cfg = q3.cfg ∧ (isrTxSpace st q3).rx = q3.rx ∧
        (isrTxSpace st q3).tx = q3.tx ∧ (isrTxSpace st q3).dphase = q3.dphase ∧
        (isrTxSpace st q3).xoffSent = q3.xoffSent := by
      obtain ⟨⟨g1, g2, g3, g4, g5, g6, g7⟩, -⟩ := s3
      have := hen _ g5 g6
      unfold isrTxSpace; split
      · exact ⟨⟨g1, g2, g3, g4, this.2.2.1, this.2.2.2, g7⟩, rfl, rfl, rfl, rfl, rfl⟩
      · exact ⟨⟨g1, g2, g3, g4, g5, g6, g7⟩, rfl, rfl, rfl, rfl, rfl⟩
    generalize isrTxSpace st q3 = q4 at *
    obtain ⟨g, h1, h2, h3, h4, h5⟩ := s4
    obtain ⟨-, i1, i2, i3, i4, i5⟩ := s3
    obtain ⟨-, j1, j2, j3, j4, j5⟩ := s2
    exact up q4.dev (h1.trans (i1.trans (j1.trans f1.1))) (h2.trans (i2.trans (j2.trans f1.2.1)))
      (h3.trans (i3.trans (j3.trans f1.2.2.1))) (h4.trans (i4.trans (j4.trans f1.2.2.2.1)))
      (h5.trans (i5.trans (j5.trans f1.2.2.2.2))) g
  refine ⟨k _, ?_, ?_⟩ <;>
    simp only [isrRun, isrAck, isrSchedule, isrTxSpace, isrRxData, isrCtsChg, isrRxOvf] <;> (repeat' split) <;> rfl

/-! ## The line -/

theorem lineRx_up {P : Params} {p : Port} (h : p.up P) (b : Byte) : Port.up P { p with dev := lineRx P b p.dev } := by
  obtain ⟨hc, hb, ⟨hd1, hd2, hfr, hdm, he2, he3, hcr⟩, hx⟩ := h
  unfold lineRx
  split
  · refine ⟨hc, hb, ⟨by simp only [List.length_append, List.length_singleton]; omega, hd2, hfr, fun c hm => ?_, he2,
      he3, hcr⟩, hx⟩
    rcases List.mem_append.mp hm with hm | hm
    · exact hdm c hm
    · rw [List.mem_singleton.mp hm, dmask_idem]
  · refine ⟨hc, hb, ⟨hd1, hd2, hfr, hdm, he2, he3, fun hk => ?_⟩, hx⟩
    rcases Bool.or_eq_true _ _ ▸ hk with hk | hk
    · exact hcr hk
    · exact hk

theorem lineTxLoad_up {P : Params} {p : Port} (h : p.up P) : Port.up P { p with dev := lineTxLoad p.dev } := by
  obtain ⟨hc, hb, ⟨hd1, hd2, hfr, hdm, he2, he3, hcr⟩, hx⟩ := h
  exact ⟨hc, hb, ⟨hd1, by simp only [lineTxLoad, List.length_tail]; omega, hfr, hdm, he2, he3, hcr⟩, hx⟩

theorem lineTxDone_up {P : Params} {p : Port} (h : p.up P) : Port.up P (lineTxDone p) := by
  obtain ⟨hc, hb, hd, hx⟩ := h
  exact ⟨hc, hb, hd, hx⟩

theorem lineCts_up {P : Params} {p : Port} (h : p.up P) (level : Bool) :
    Port.up P { p with dev := lineCts level p.dev } := by
  obtain ⟨hc, hb, hd, hx⟩ := h
  exact ⟨hc, hb, hd, hx⟩

theorem rxTimeout_up {P : Params} {p : Port} (h : p.up P) :
    Port.up P { p with dev := { p.dev with toutLatch := true } } := by
  obtain ⟨hc, hb, hd, hx⟩ := h
  exact ⟨hc, hb, hd, hx⟩

/-! ## The HOST's operations -/

/-- A flag that nothing of the invariant reads. -/
theorem Port.up_flags {P : Params} {p : Port} (h : p.up P) (en pend : Bool) (ph : Phase) :
    Port.up P { p with rxEnabled := en, dispatchPending := pend, phase := ph } := by
  obtain ⟨hc, hb, hd, hx⟩ := h
  exact ⟨hc, hb, hd, hx⟩

/-- Appending to the TX buffer keeps a port up (42_uart_host.md R179). -/
theorem Port.up_append {P : Params} {p : Port} {tx : RingBuffer} {bs : List Byte} (h : p.up P)
    (e : rbAppend bs p.tx = .ok tx) : Port.up P { p with tx := tx, dispatchPending := true, phase := p.phase.started } := by
  obtain ⟨hc, ⟨hrx, htx, hrc, htc, hrr, htr, hri, hti, hlg⟩, hd, hx⟩ := h
  refine ⟨hc, ⟨hrx, rbAppend_live htx e, hrc, ?_, hrr, ?_, hri, ?_, hlg⟩, hd, hx⟩ <;> unfold rbAppend at e <;>
    split at e <;> first | (cases e; done) | skip
  · cases e; exact htc
  · cases e; simp only [rbCommit, htr, ite_self]
  · cases e; exact hti

/-- A span of a buffer with nothing in flight, taken and consumed: the call cannot fault, and the bytes at the front
leave in order (42_uart_host.md R180). -/
theorem rbConsume_rbGet {rb : RingBuffer} {n : Nat} (hl : rb.live) (h0 : rb.inFlight = 0) (hr : rb.resv = none) :
    ∃ rb', rbConsume (rbGet n rb).2.n (rbGet n rb).1 = .ok rb' ∧ rb'.live ∧ rb'.inFlight = 0 ∧ rb'.resv = none ∧
      rb'.cap = rb.cap ∧ rb'.used = rb.used - (rbGet n rb).2.n ∧
      rbContents rb' = (rbContents rb).drop (rbGet n rb).2.n ∧
      (rbGet n rb).2.bytes = (rbContents rb).take (rbGet n rb).2.n ∧
      (rbGet n rb).2.n ≤ n ∧ (rbGet n rb).2.n ≤ rb.used ∧ (0 < n → 0 < rb.used → 0 < (rbGet n rb).2.n) := by
  have hlen := rbGetLen_le (rb := rb) (max := n)
  have e : ∃ rb', rbConsume (rbGet n rb).2.n (rbGet n rb).1 = .ok rb' ∧ rb'.inFlight = 0 ∧ rb'.resv = none ∧
      rb'.cap = rb.cap ∧ rb'.used = rb.used - (rbGet n rb).2.n := by
    unfold rbConsume
    rw [if_neg (by simp only [rbGet]; omega), if_neg (by simp only [rbGet]; omega)]
    refine ⟨_, rfl, ?_, ?_, ?_, ?_⟩ <;> unfold rbEmptyReset <;> split <;> simp_all [rbGet]
  obtain ⟨rb', e, e1, e2, e3, e4⟩ := e
  refine ⟨rb', e, rbConsume_live (rbGet_live hl) e, e1, e2, e3, e4, by rw [rbConsume_contents e, rbGet_contents],
    by rw [rbGet_bytes, h0]; rfl, hlen.1, by simp only [rbGet]; omega, fun h1 h2 => ?_⟩
  have hh := hl.2.2.2.2.2.1
  simp only [rbGet, rbGetLen, rbGetStart, h0, Nat.add_zero, Nat.mod_eq_of_lt hh]
  omega

/-- The loop of read: it cannot fault, and takes the front of the buffer, up to `max` bytes, across the wrap point
(42_uart_host.md R180). -/
theorem readSpans_ok {fuel max : Nat} {rb : RingBuffer} {out : List Byte} (hl : rb.live) (h0 : rb.inFlight = 0)
    (hr : rb.resv = none) (hf : rb.used ≤ fuel) (ho : out.length ≤ max) :
    ∃ rx, readSpans fuel max rb out = .ok (rx, out ++ (rbContents rb).take (max - out.length)) ∧
      rx.live ∧ rx.inFlight = 0 ∧ rx.resv = none ∧ rx.cap = rb.cap ∧ rx.used = rb.used - (max - out.length) ∧
      rbContents rx = (rbContents rb).drop (max - out.length) := by
  induction fuel generalizing rb out with
  | zero =>
    have hz : rbContents rb = [] := List.eq_nil_of_length_eq_zero (by rw [rbContents_length]; omega)
    exact ⟨rb, by simp [readSpans, hz], hl, h0, hr, rfl, by omega, by simp [hz]⟩
  | succ fuel ih =>
    rw [readSpans]
    split
    · rename_i hc
      obtain ⟨rb', e, l0, i0, r0, hcap, hu, hcont, hbytes, hn, hn', hpos⟩ :=
        rbConsume_rbGet (n := max - out.length) hl h0 hr
      have hpos := hpos (by omega) hc.2
      simp only [e]
      rw [hbytes]
      generalize (rbGet (max - out.length) rb).2.n = n at *
      have hlen : (out ++ (rbContents rb).take n).length = out.length + n := by
        rw [List.length_append, List.length_take, rbContents_length]; omega
      obtain ⟨rx, e2, l2, i2, r2, c2, u2, k2⟩ := ih (out := out ++ (rbContents rb).take n) l0 i0 r0 (by omega)
        (by omega)
      rw [hlen] at e2 u2 k2
      have hm : max - out.length = n + (max - (out.length + n)) := by omega
      refine ⟨rx, ?_, l2, i2, r2, c2.trans hcap, by omega, ?_⟩
      · rw [e2, hcont, List.append_assoc, hm, List.take_add]
      · rw [k2, hcont, List.drop_drop, hm]
    · rename_i hc
      by_cases hz : rb.used = 0
      · have hz' : rbContents rb = [] := List.eq_nil_of_length_eq_zero (by rw [rbContents_length, hz])
        exact ⟨rb, by simp [hz'], hl, h0, hr, rfl, by omega, by simp [hz']⟩
      · have hm : max - out.length = 0 := by omega
        exact ⟨rb, by simp [hm], hl, h0, hr, rfl, by omega, by simp [hm]⟩

end Sys2Proof.Machine
end

