-- ==== Sys2Proof/Laws/PerInstr.lean ====
section
/-! SUPPORT. The family FrameRoundTrip, one lemma per constructor: the frame of a well-formed instruction decodes to
it (30_encoding.md R100, R103, R104, R112). -/

namespace Sys2Proof.Laws.FrameRoundTrip

/-- The command word and payload of a well-formed instruction decode to it. -/
def Statement (i : Instr) : Prop := i.wellFormed = true → decodeFrame (encodeWord i) (encodePayload i) = .ok i

/-- An instruction with SEL alone: IMM is 0. -/
theorem ofSel {op sel : Nat} {i : Instr} {r : OpRow} (hrow : opTable.find? (fun r => r.op == op) = some r)
    (hop : op < 64) (hw : encodeWord i = commandWord op sel 0) (hp : encodePayload i = [])
    (hl : r.payload = .none) (hb : r.build sel 0 [] = i) (hs : i.wellFormed = selFits sel) : Statement i := by
  intro h
  rw [hs, selFits, decide_eq_true_eq] at h
  rw [hw, hp, decodeFrame_commandWord hrow hop h (by decide) (by simp) (by simp [hl, PayloadRule.length]), hb]

/-- An instruction whose IMM is a 16-bit number, without or with a payload of that many bytes. -/
theorem ofImm {op sel imm : Nat} {i : Instr} {r : OpRow} (hrow : opTable.find? (fun r => r.op == op) = some r)
    (hop : op < 64) (hw : encodeWord i = commandWord op sel imm) (hz : r.immZero = 0)
    (hl : (encodePayload i).length = r.payload.length imm) (hb : r.build sel imm (encodePayload i) = i)
    (hs : i.wellFormed = (selFits sel && immFits imm)) : Statement i := by
  intro h
  rw [hs, Bool.and_eq_true, selFits, immFits, decide_eq_true_eq, decide_eq_true_eq] at h
  rw [hw, decodeFrame_commandWord hrow hop h.1 h.2 (by simp [hz]) hl, hb]

/-- An instruction whose IMM is a byte or an enable bit. -/
theorem ofSmall {op sel imm : Nat} {i : Instr} {r : OpRow} (hrow : opTable.find? (fun r => r.op == op) = some r)
    (hop : op < 64) (hw : encodeWord i = commandWord op sel imm) (hi : imm < 65536) (hz : imm &&& r.immZero = 0)
    (hp : encodePayload i = []) (hl : r.payload = .none) (hb : r.build sel imm [] = i)
    (hs : i.wellFormed = selFits sel) : Statement i := by
  intro h
  rw [hs, selFits, decide_eq_true_eq] at h
  rw [hw, hp, decodeFrame_commandWord hrow hop h hi hz (by simp [hl, PayloadRule.length]), hb]

theorem rbInit (sel cap : Nat) : Statement (.rbInit sel cap) :=
  ofImm rfl (by decide) rfl rfl rfl rfl rfl

theorem rbDeinit (sel : Nat) : Statement (.rbDeinit sel) := ofSel rfl (by decide) rfl rfl rfl rfl rfl

theorem rbClear (sel : Nat) : Statement (.rbClear sel) := ofSel rfl (by decide) rfl rfl rfl rfl rfl

theorem rbAppend (sel : Nat) (data : List Byte) : Statement (.rbAppend sel data) :=
  ofImm rfl (by decide) rfl rfl rfl rfl rfl

theorem rbAppendOne (sel : Nat) (b : Byte) : Statement (.rbAppendOne sel b) :=
  ofSmall rfl (by decide) rfl (by have := b.isLt; omega) (byte_immZero b) rfl rfl (by simp) rfl

theorem rbAt (sel index : Nat) : Statement (.rbAt sel index) :=
  ofImm rfl (by decide) rfl rfl rfl rfl rfl

theorem rbGet (sel max : Nat) : Statement (.rbGet sel max) :=
  ofImm rfl (by decide) rfl rfl rfl rfl rfl

theorem rbConsume (sel len : Nat) : Statement (.rbConsume sel len) :=
  ofImm rfl (by decide) rfl rfl rfl rfl rfl

theorem rbContigTailSpace (sel : Nat) : Statement (.rbContigTailSpace sel) := ofSel rfl (by decide) rfl rfl rfl rfl rfl

theorem rbAdvanceTail (sel : Nat) (data : List Byte) : Statement (.rbAdvanceTail sel data) :=
  ofImm rfl (by decide) rfl rfl rfl rfl rfl

theorem uartConfigure (sel : Nat) (c : CfgWords) : Statement (.uartConfigure sel c) := by
  intro h
  simp only [Instr.wellFormed, selFits, decide_eq_true_eq] at h
  have := decodeFrame_commandWord (op := 0x10) (imm := 0) (payload := c.toBytes) rfl (by decide) h (by decide)
    (by simp) rfl
  simp only [CfgWords.ofBytes_toBytes] at this
  exact this

theorem uartDeinit (sel : Nat) : Statement (.uartDeinit sel) := ofSel rfl (by decide) rfl rfl rfl rfl rfl

theorem uartSetRxEnabled (sel : Nat) (b : Bool) : Statement (.uartSetRxEnabled sel b) :=
  ofSmall rfl (by decide) rfl (by cases b <;> decide) (bool_immZero b) rfl rfl (by cases b <;> rfl) rfl

theorem uartWrite (sel : Nat) (data : List Byte) : Statement (.uartWrite sel data) :=
  ofImm rfl (by decide) rfl rfl rfl rfl rfl

theorem uartRead (sel max : Nat) : Statement (.uartRead sel max) :=
  ofImm rfl (by decide) rfl rfl rfl rfl rfl

theorem uartFlush (sel : Nat) : Statement (.uartFlush sel) := ofSel rfl (by decide) rfl rfl rfl rfl rfl

theorem uartGetStats (sel : Nat) : Statement (.uartGetStats sel) := ofSel rfl (by decide) rfl rfl rfl rfl rfl

theorem evIsr (sel : Nat) : Statement (.evIsr sel) := ofSel rfl (by decide) rfl rfl rfl rfl rfl

theorem evDispatch (sel : Nat) : Statement (.evDispatch sel) := ofSel rfl (by decide) rfl rfl rfl rfl rfl

theorem evLineRx (sel : Nat) (b : Byte) : Statement (.evLineRx sel b) :=
  ofSmall rfl (by decide) rfl (by have := b.isLt; omega) (byte_immZero b) rfl rfl (by simp) rfl

theorem evLineTxLoad (sel : Nat) : Statement (.evLineTxLoad sel) := ofSel rfl (by decide) rfl rfl rfl rfl rfl

theorem evLineTxDone (sel : Nat) : Statement (.evLineTxDone sel) := ofSel rfl (by decide) rfl rfl rfl rfl rfl

theorem evCts (sel : Nat) (level : Bool) : Statement (.evCts sel level) :=
  ofSmall rfl (by decide) rfl (by cases level <;> decide) (bool_immZero level) rfl rfl (by cases level <;> rfl) rfl

theorem evRxTimeout (sel : Nat) : Statement (.evRxTimeout sel) := ofSel rfl (by decide) rfl rfl rfl rfl rfl

end Sys2Proof.Laws.FrameRoundTrip
end

