-- ==== Sys2Proof/Laws/Run.lean ====
section
/-! SUPPORT. Runs and what the outside world gives them (00_scope.md R12, log 15). -/

namespace Sys2Proof.Machine

variable (s : State) (x : Input)

/-! ## State.given -/

@[simp] theorem State.given_params : (s.given x).params = s.params := rfl
@[simp] theorem State.given_srb : (s.given x).srb = s.srb := rfl
@[simp] theorem State.given_ports : (s.given x).ports = s.ports := rfl
@[simp] theorem State.given_host : (s.given x).host = s.host := rfl
@[simp] theorem State.given_fault : (s.given x).fault = s.fault := rfl
@[simp] theorem State.given_refused : (s.given x).refused = s.refused := rfl
@[simp] theorem State.given_results : (s.given x).results = s.results := rfl
@[simp] theorem State.given_turns : (s.given x).turns = s.turns ++ x.turns := rfl
@[simp] theorem State.given_hostq : (s.given x).hostq = s.hostq ++ x.commands := rfl

/-- Nothing given changes nothing. -/
@[simp] theorem State.given_nothing : s.given ⟨[], [], []⟩ = s := by simp [State.given]

/-! ## Runs -/

variable {s x}

/-- Any endless input along which the block always has a step is the input of a run, from any state. -/
theorem Run.exists_of_progress {Inv : State → Prop} {x : Nat → Input}
    (h : ∀ n s, Inv s → ∃ s', step (s.given (x n)) = .next s' ∧ Inv s') (hs : Inv s) :
    ∃ r : Run, r.state 0 = s ∧ r.input = x ∧ ∀ n, Inv (r.state n) := by
  choose f hf hi using h
  let st : Nat → { s // Inv s } := fun n => Nat.rec ⟨s, hs⟩ (fun k t => ⟨f k t.1 t.2, hi k t.1 t.2⟩) n
  exact ⟨⟨fun n => (st n).1, x, fun n => hf n (st n).1 (st n).2⟩, rfl, rfl, fun n => (st n).2⟩

/-- A run takes the event of the turn at the head of what it holds. -/
theorem Run.takes_of_head {r : Run} {n : Nat} {w : Word} {i : Instr} {ts : List Turn}
    (ht : (r.state n).turns ++ (r.input n).turns = .agent w :: ts) (hi : decodeEvent w = some i) : r.takes n i :=
  ⟨w, by simp [ht], hi⟩

end Sys2Proof.Machine
end

