-- ==== Sys2Proof/Laws/Step.lean ====
section
/-! SUPPORT. Everything a step can do, once (00_scope.md R12, 60_exceptions.md R261, R262). -/

namespace Sys2Proof.Machine

theorem step_running {s : State} (h : s.running) : step s = match fetch s with
    | .done s' => .next s'
    | .run i s' => exec i s'
    | .more s' => .next (hostContinue s')
    | .bad w => .refused (.notAnAgentEvent w) := by
  unfold step; rw [h.1, h.2]; rfl

/-- Everything a step that answers a next state did: nothing was due; the HOST went on with a command, had none to
issue, issued one that was rejected or holds, or ran it; or another agent ran its event, or
its word was rejected. -/
theorem step_cases {s s' : State} (h : step s = .next s') : s.running ∧
    ((s.turns = [] ∧ s' = s) ∨
     (s.turns.head? = some .host ∧ s.host ≠ .idle ∧ s' = hostContinue s.popTurn) ∨
     (s.turns.head? = some .host ∧ s.host = .idle ∧ s.hostq = [] ∧ s' = s.popTurn) ∨
     (∃ c r, s.turns.head? = some .host ∧ s.host = .idle ∧ s.hostq.head? = some c ∧
        decodeHost c.word c.payload = .error r ∧ s' = s.popTurn.popCommand.raise (Reject.fault r) c.word) ∨
     (∃ c i, s.turns.head? = some .host ∧ s.host = .idle ∧ s.hostq.head? = some c ∧
        decodeHost c.word c.payload = .ok i ∧ commandHolds i s.popTurn = true ∧ s' = s.popTurn) ∨
     (∃ c i, s.turns.head? = some .host ∧ s.host = .idle ∧ s.hostq.head? = some c ∧
        decodeHost c.word c.payload = .ok i ∧ commandHolds i s.popTurn = false ∧
        exec i s.popTurn.popCommand = .next s') ∨
     (∃ w i, s.turns.head? = some (.agent w) ∧ decodeEvent w = some i ∧ exec i s.popTurn = .next s') ∨
     (∃ w, s.turns.head? = some (.agent w) ∧ decodeEvent w = none ∧ isEventWord w = true ∧
        s' = s.popTurn.raise .illegalCommand w)) := by
  have hr : s.running := by
    unfold step at h
    split at h; · cases h
    split at h; · cases h
    exact ⟨by simpa using ‹¬s.fault.valid = true›, by simpa using ‹¬s.refused.valid = true›⟩
  refine ⟨hr, ?_⟩
  rw [step_running hr] at h
  rcases ht : s.turns with _ | ⟨_ | w, ts⟩
  · simp only [fetch, ht] at h
    cases h; exact .inl ⟨rfl, rfl⟩
  · simp only [fetch, ht] at h
    by_cases hi : s.host = .idle
    · rw [if_pos hi] at h
      rcases hq : s.hostq with _ | ⟨c, q⟩
      · simp only [fetchCommand, State.popTurn_hostq, hq] at h
        cases h; exact .inr (.inr (.inl ⟨rfl, hi, rfl, rfl⟩))
      · simp only [fetchCommand, State.popTurn_hostq, hq] at h
        rcases hd : decodeHost c.word c.payload with r | i
        · simp only [hd] at h
          cases h; exact .inr (.inr (.inr (.inl ⟨c, r, rfl, hi, rfl, hd, rfl⟩)))
        · simp only [hd] at h
          by_cases hh : commandHolds i s.popTurn = true
          · rw [if_pos hh] at h
            cases h; exact .inr (.inr (.inr (.inr (.inl ⟨c, i, rfl, hi, rfl, hd, hh, rfl⟩))))
          · rw [if_neg hh] at h
            exact .inr (.inr (.inr (.inr (.inr (.inl ⟨c, i, rfl, hi, rfl, hd, by simpa using hh, h⟩)))))
    · rw [if_neg hi] at h
      cases h; exact .inr (.inl ⟨rfl, hi, rfl⟩)
  · simp only [fetch, ht] at h
    rcases hd : decodeEvent w with _ | i
    · simp only [hd] at h
      by_cases he : isEventWord w = true
      · rw [if_pos he] at h
        cases h; exact .inr (.inr (.inr (.inr (.inr (.inr (.inr ⟨w, rfl, hd, he, rfl⟩))))))
      · rw [if_neg he] at h; cases h
    · simp only [hd] at h
      exact .inr (.inr (.inr (.inr (.inr (.inr (.inl ⟨w, i, rfl, hd, h⟩))))))

end Sys2Proof.Machine
end

