-- ==== Sys2Proof/Tests/Slice0.lean ====
section
/-! SUPPORT. The model's own tests. Expected values come from the spec: the encodings of 30_encoding.md R100 to R105, the
worked examples of the rules and 95_test_vectors.md. Witnesses that the hypotheses of each statement can be met stand
last, one theorem per statement, with its clauses at the boundary values of their ranges. -/

namespace Sys2Proof.Tests

open Sys2Proof.Machine Sys2Proof.Claims

/-! ## WellFormed: every check refuses an ill-formed term -/

/-- SEL is 6 bits: 64 does not fit (30_encoding.md R101). -/
theorem test_sel_64_refused : [Instr.rbInit 64 8, .rbDeinit 64, .rbClear 64, .rbAppend 64 [], .rbAppendOne 64 0, .rbAt 64 0,
    .rbGet 64 0, .rbConsume 64 0, .rbContigTailSpace 64, .rbAdvanceTail 64 [], .uartConfigure 64 ⟨0, 0, 0, 0, 0, 0⟩,
    .uartDeinit 64, .uartSetRxEnabled 64 true, .uartWrite 64 [], .uartRead 64 0, .uartFlush 64, .uartGetStats 64,
    .evIsr 64, .evDispatch 64, .evLineRx 64 0, .evLineTxLoad 64, .evLineTxDone 64, .evCts 64 true,
    .evRxTimeout 64].all (fun i => !i.wellFormed) = true := by decide

/-- IMM is 16 bits: 65536 does not fit (30_encoding.md R103). -/
theorem test_imm_65536_refused : [Instr.rbInit 0 65536, .rbAt 0 65536, .rbGet 0 65536, .rbConsume 0 65536,
    .uartRead 0 65536].all (fun i => !i.wellFormed) = true := by decide

/-- A payload longer than IMM can say is not well-formed (30_encoding.md R104). -/
theorem test_long_payload_refused (bs : List Byte) (h : bs.length = 65536) :
    (Instr.rbAppend 0 bs).wellFormed = false ∧ (Instr.rbAdvanceTail 0 bs).wellFormed = false ∧
    (Instr.uartWrite 0 bs).wellFormed = false := by simp [Instr.wellFormed, immFits, h]

theorem test_largest_operands_accepted : (Instr.rbInit 63 65535).wellFormed = true ∧ (Instr.evDispatch 63).wellFormed = true := by
  decide

/-! ## Decoding: each constructor's word, its fields OP, SEL, SUB, IMM written out in bits (30_encoding.md R100, R105) -/

/-- The word and its payload decode to the instruction. -/
def reads (w : Word) (payload : List Byte) (i : Instr) : Prop := decodeFrame w payload = .ok i

theorem test_decode_rbInit : reads 0b000001_000000_0000_0000000000001000#32 [] (.rbInit 0 8) := by rfl
theorem test_decode_rbDeinit : reads 0b000010_000011_0000_0000000000000000#32 [] (.rbDeinit 3) := by rfl
theorem test_decode_rbClear : reads 0b000011_100000_0000_0000000000000000#32 [] (.rbClear 32) := by rfl
theorem test_decode_rbAppend : reads 0b000100_000001_0000_0000000000000010#32 [0xA1, 0xA2] (.rbAppend 1 [0xA1, 0xA2]) := by rfl
theorem test_decode_rbAppendOne : reads 0b000101_000000_0000_0000000010000001#32 [] (.rbAppendOne 0 0x81) := by rfl
theorem test_decode_rbAt : reads 0b000110_000000_0000_1000000000000001#32 [] (.rbAt 0 32769) := by rfl
theorem test_decode_rbGet : reads 0b000111_000000_0000_0000000000000101#32 [] (.rbGet 0 5) := by rfl
theorem test_decode_rbConsume : reads 0b001000_000000_0000_1111111111111111#32 [] (.rbConsume 0 65535) := by rfl
theorem test_decode_rbContigTailSpace : reads 0b001001_111111_0000_0000000000000000#32 [] (.rbContigTailSpace 63) := by rfl
theorem test_decode_rbAdvanceTail : reads 0b001010_000001_0000_0000000000000001#32 [0xB1] (.rbAdvanceTail 1 [0xB1]) := by rfl
theorem test_decode_uartConfigure : reads 0b010000_000001_0000_0000000000000000#32
    [0x00, 0xC2, 0x01, 0x00, 0x08, 0x00, 0x00, 0x00, 0x10, 0x00, 0x08, 0x00, 0x00, 0x00, 0x00, 0x00,
     0x01, 0x00, 0x01, 0x00, 0x00, 0x00, 0x00, 0x00]
    (.uartConfigure 1 ⟨0x0001C200, 0x00000008, 0x00080010, 0x00000000, 0x00010001, 0x00000000⟩) := by rfl
theorem test_decode_uartDeinit : reads 0b010001_000001_0000_0000000000000000#32 [] (.uartDeinit 1) := by rfl
theorem test_decode_uartSetRxEnabled : reads 0b010010_000001_0000_0000000000000001#32 [] (.uartSetRxEnabled 1 true) := by rfl
theorem test_decode_uartWrite : reads 0b010011_000000_0000_0000000000000010#32 [0x48, 0x65] (.uartWrite 0 [0x48, 0x65]) := by rfl
theorem test_decode_uartRead : reads 0b010100_000001_0000_0000000000000010#32 [] (.uartRead 1 2) := by rfl
theorem test_decode_uartFlush : reads 0b010101_000000_0000_0000000000000000#32 [] (.uartFlush 0) := by rfl
theorem test_decode_uartGetStats : reads 0b010110_000010_0000_0000000000000000#32 [] (.uartGetStats 2) := by rfl
theorem test_decode_evIsr : reads 0b100000_000001_0000_0000000000000000#32 [] (.evIsr 1) := by rfl
theorem test_decode_evDispatch : reads 0b100001_000001_0000_0000000000000000#32 [] (.evDispatch 1) := by rfl
theorem test_decode_evLineRx : reads 0b100010_000001_0000_0000000000110001#32 [] (.evLineRx 1 0x31) := by rfl
theorem test_decode_evLineTxLoad : reads 0b100011_000000_0000_0000000000000000#32 [] (.evLineTxLoad 0) := by rfl
theorem test_decode_evLineTxDone : reads 0b100100_000000_0000_0000000000000000#32 [] (.evLineTxDone 0) := by rfl
theorem test_decode_evCts : reads 0b100101_000000_0000_0000000000000001#32 [] (.evCts 0 true) := by rfl
theorem test_decode_evRxTimeout : reads 0b100110_000001_0000_0000000000000000#32 [] (.evRxTimeout 1) := by rfl

/-- 95_test_vectors.md 2.1.1 to 2.1.8: words the HOST may not issue. -/
theorem test_illegal_words : [0x00000000#32, 0xFC000000#32, 0x2C000000#32, 0x04010008#32, 0x14000100#32, 0x48000002#32,
    0x80000000#32, 0x08000001#32].all (fun w => decide (decodeHost w [] = .error .illegalCommand)) = true := by decide

/-- 95_test_vectors.md 2.1.9 to 2.1.11: payloads of a wrong length. -/
theorem test_payload_lengths : decodeHost 0x10000003#32 [1, 2] = .error .payloadLength ∧
    decodeHost 0x40000000#32 (List.replicate 20 0) = .error .payloadLength ∧
    decodeHost 0x18000000#32 [0] = .error .payloadLength := by decide

/-- The first bytes of a word are its low ones, and an event's row of the opcode table decodes (20_memory.md R74). -/
theorem test_decodeTableWord : decodeTableWord 32 0x04000008 = some (.rbInit 0 8) ∧
    decodeTableWord 32 0x22 = none ∧ decodeTableWord 32 0x88100031 = some (.evLineRx 1 0x31) := by decide

/-! ## A small machine -/

/-- The reset state of 95_test_vectors.md section 0, CTS_IN = 0. -/
def base : State := State.resetWith Config.resetParams 2 2 (fun _ => false)

/-- The state with instance 0 as given. -/
def onRb (rb : RingBuffer) : State := { base with srb := [rb, RingBuffer.unallocated] }

/-- The state with port 0 as given. -/
def onP (p : Port) : State := { base with ports := [p, Port.reset false] }

/-- The state whose trace states these draws. -/
def withDraws (s : State) (d : List Nat) : State := { s with draws := { stated := d, count := 0 } }

/-- The HOST's turn, with a command. -/
def issuing (s : State) (w : Word) (payload : List Byte) : State :=
  { s with hostq := [{ word := w, payload := payload }], turns := [.host] }

/-- An agent's turn. -/
def agent (s : State) (w : Word) : State := { s with turns := [.agent w] }

/-- The next state of an outcome. -/
def nextOf (o : Host.Outcome State Fault Refusal) : Option State :=
  match o with
  | .next s => some s
  | _ => none

/-- Port 0 of the next state. -/
def portOf (o : Host.Outcome State Fault Refusal) : Option Port := (nextOf o).bind fun s => s.ports[0]?

/-- Instance 0 of the next state. -/
def rbOf (o : Host.Outcome State Fault Refusal) : Option RingBuffer := (nextOf o).bind fun s => s.srb[0]?

/-- The results of the next state. -/
def resultsOf (o : Host.Outcome State Fault Refusal) : Option (List Result) := (nextOf o).map fun s => s.results

/-- An instance of capacity `cap` holding the bytes given at `head`. -/
def held (cap head : Nat) (bs : List Byte) (inFlight : Nat) (resv : Option Nat) : RingBuffer :=
  { alloc := true, cap := cap, store := Memory.writeRun cap [] head bs, used := bs.length, avail := cap - bs.length,
    inFlight := inFlight, head := head, tail := (head + bs.length) % cap, resv := resv }

/-- A configuration of 95_test_vectors.md program P4's kind: 4-byte buffers, the given flow control. -/
def cfg4 (rxfc txfc : FlowControl) (linger : Nat) : PortCfg :=
  { baudRate := 115200, numDataBits := 8, parity := .none, stopBits := .one, rxBufSize := 4, txBufSize := 4,
    rxFlowControl := rxfc, txFlowControl := txfc, rxLingerMicros := linger, rxFifoFullThresh := 2,
    rxFifoFcThresh := 3, rxFifoAlarm := 0, txFifoEmptyThresh := 0 }

/-- A configured port of that configuration. -/
def port4 (rxfc txfc : FlowControl) (linger : Nat) : Port :=
  { Port.reset false with
    phase := .configured, cfg := cfg4 rxfc txfc linger, rx := rbFresh 4, tx := rbFresh 4, registered := true,
    dev := { Device.reset false with
      intEna := 0b1100, frame := { numDataBits := 8, parity := .none, stopBits := .one } } }

/-- The same without flow control and linger. -/
def portA : Port := port4 .none .none 0

/-- The payload words of BASE (95_test_vectors.md section 0), and of BASE with TX software flow control. -/
def baseWords : CfgWords := ⟨0x0001C200, 0x00000008, 0x00080010, 0x00000000, 0x00010001, 0x00000000⟩
/-- TX software flow control: code 2 in W1[11:10]. -/
def softwareTx : CfgWords := { baseWords with w1 := 0x00000808 }

/-! ## The examples of the rules, one step each -/

/-- 41_ringbuffer.md R131: rb.init i0, 8 with the allocation succeeding. -/
theorem test_rbInit : rbOf (exec (.rbInit 0 8) (withDraws base [1])) = some (held 8 0 [] 0 none) := by decide
/-- 95_test_vectors.md 2.2.5: with the allocation failing. -/
theorem test_rbInit_fails : rbOf (exec (.rbInit 0 8) (withDraws base [0])) = some RingBuffer.unallocated ∧
    resultsOf (exec (.rbInit 0 8) (withDraws base [0])) = some [errResult .errAlloc 0] := by decide
/-- 41_ringbuffer.md R132. -/
theorem test_rbDeinit : (rbOf (exec (.rbDeinit 0) (onRb (held 8 5 [6, 7, 8] 2 none)))).map (fun rb => rb.alloc) = some false := by
  decide
/-- 41_ringbuffer.md R133: the store keeps its byte at 5. -/
theorem test_rbClear : rbOf (exec (.rbClear 0) (onRb (held 8 5 [6, 7, 8] 2 none)))
    = some { held 8 0 [] 0 none with store := [(5, 6), (6, 7), (7, 8)] } := by decide
/-- 41_ringbuffer.md R134: cap 4, head 2, one byte; three bytes wrap. -/
theorem test_rbAppend : rbOf (exec (.rbAppend 0 [0x78, 0x79, 0x7A]) (onRb (held 4 2 [1] 0 none)))
    = some { held 4 2 [1] 0 none with
        store := [(0, 0x79), (1, 0x7A), (2, 1), (3, 0x78)], tail := 2, used := 4, avail := 0 } := by decide
/-- 95_test_vectors.md 2.2.10: a zero-length append keeps the reservation. -/
theorem test_rbAppend_empty : rbOf (exec (.rbAppend 0 []) (onRb (held 4 0 [] 0 (some 4)))) = some (held 4 0 [] 0 (some 4)) := by
  decide
/-- 41_ringbuffer.md R135: the §8 scenario after consume(5). -/
theorem test_rbAppendOne : rbOf (exec (.rbAppendOne 0 9) (onRb (held 8 5 [6, 7, 8] 0 none))) = some (held 8 5 [6, 7, 8, 9] 0 none) := by
  decide
/-- 41_ringbuffer.md R136: at(0) is the oldest byte, 6. -/
theorem test_rbAt : resultsOf (exec (.rbAt 0 0) (onRb (held 8 5 [6, 7, 8, 9] 0 none))) = some [okResult 6 0 []] := by decide
/-- 95_test_vectors.md 2.2.20: index = cap. -/
theorem test_rbAt_fault : (nextOf (exec (.rbAt 0 8) (onRb (held 8 5 [6] 0 none)))).map (fun s => s.fault.code) = some 0x0C := by
  decide
/-- 41_ringbuffer.md R137: the §8 scenario, get(5). -/
theorem test_rbGet : resultsOf (exec (.rbGet 0 5) (onRb (held 8 0 [1, 2, 3, 4, 5, 6, 7, 8] 0 none)))
    = some [okResult 5 0 [1, 2, 3, 4, 5]] := by decide
/-- 95_test_vectors.md 2.2.16 and 2.2.17: a span ends at the wrap point, and the next starts at 0. -/
theorem test_rbGet_wrap : resultsOf (exec (.rbGet 0 8) (onRb (held 8 6 [1, 2, 3, 4] 0 none))) = some [okResult 2 6 [1, 2]] ∧
    resultsOf (exec (.rbGet 0 8) (onRb (held 8 6 [1, 2, 3, 4] 2 none))) = some [okResult 2 0 [3, 4]] := by decide
/-- 41_ringbuffer.md R138: the §8 scenario, consume(5). -/
theorem test_rbConsume : rbOf (exec (.rbConsume 0 5) (onRb (held 8 0 [1, 2, 3, 4, 5, 6, 7, 8] 5 none)))
    = some { held 8 0 [1, 2, 3, 4, 5, 6, 7, 8] 0 none with head := 5, used := 3, avail := 5 } := by decide
/-- 95_test_vectors.md 2.2.29: emptying with tail ≠ 0 cancels the reservation. -/
theorem test_rbConsume_empty : (rbOf (exec (.rbConsume 0 1) (onRb (held 8 0 [1] 1 (some 7))))).map
    (fun rb => (rb.head, rb.tail, rb.used, rb.resv)) = some (0, 0, 0, none) := by decide
/-- 41_ringbuffer.md R139: cap 8, head 5, tail 1, used 4. -/
theorem test_rbContigTailSpace : resultsOf (exec (.rbContigTailSpace 0) (onRb (held 8 5 [1, 2, 3, 4] 0 none)))
    = some [okResult 4 1 []] := by decide
/-- 41_ringbuffer.md R140, after it. -/
theorem test_rbAdvanceTail : rbOf (exec (.rbAdvanceTail 0 [0xAA, 0xBB]) (onRb (held 8 5 [1, 2, 3, 4] 0 (some 4))))
    = some (held 8 5 [1, 2, 3, 4, 0xAA, 0xBB] 0 none) := by decide

/-- 95_test_vectors.md 2.3.1: BASE from reset. -/
theorem test_uartConfigure : (portOf (exec (.uartConfigure 0 baseWords) (withDraws base [1, 1]))).map
    (fun p => (p.phase, p.dev.intEna, p.rx.cap, p.tx.cap, p.registered)) = some (.configured, 0b1100, 16, 8, true) := by
  rfl
/-- 95_test_vectors.md 2.3.2 and 2.3.5: detail 1 and detail 3; nothing changes. -/
theorem test_uartConfigure_invalid :
    nextOf (exec (.uartConfigure 0 { baseWords with w1 := 0x00001008 }) base) = some (returned base (errResult .errValidation 1)) ∧
    nextOf (exec (.uartConfigure 0 { baseWords with w1 := 0x00000004 }) base) = some (returned base (errResult .errValidation 3)) := by
  decide
/-- 42_uart_host.md R177. -/
theorem test_uartDeinit : portOf (exec (.uartDeinit 0) (onP portA)) = some { Port.reset false with
    dev := { Device.reset false with frame := portA.dev.frame } } := by decide
/-- 42_uart_host.md R178. -/
theorem test_uartSetRxEnabled : portOf (exec (.uartSetRxEnabled 0 true) (onP portA))
    = some { portA with rxEnabled := true, phase := .running, dispatchPending := true } := by decide
/-- 42_uart_host.md R179: six bytes, of which four fit. -/
theorem test_uartWrite : (nextOf (exec (.uartWrite 0 [0x48, 0x65, 0x6C, 0x6C, 0x6F, 0x21]) (onP portA))).map
    (fun s => (s.host, s.results)) = some (.write 0 [0x6F, 0x21] 6, []) := by decide
/-- 42_uart_host.md R180: rx holding [31 32 33], read 2. -/
theorem test_uartRead : portOf (exec (.uartRead 0 2) (onP { portA with rx := held 4 0 [0x31, 0x32, 0x33] 0 none }))
    = some { portA with dispatchPending := true, rx :=
        { held 4 0 [0x31, 0x32, 0x33] 0 none with head := 2, used := 1, avail := 3 } } := by decide
/-- 42_uart_host.md R180: a read across the wrap point. -/
theorem test_uartRead_wrap : resultsOf (exec (.uartRead 0 4) (onP { portA with rx := held 4 3 [0x31, 0x32, 0x33] 0 none }))
    = some [okResult 3 0 [0x31, 0x32, 0x33]] := by decide
/-- 42_uart_host.md R181: an idle port returns in the issue step; a byte in the shifter is waited for. -/
theorem test_uartFlush : nextOf (exec (.uartFlush 0) (onP portA)) = some (returned (onP portA) (okResult 0 0 [])) ∧
    (nextOf (exec (.uartFlush 0) (onP { portA with dev := { portA.dev with txsh := some 0x48 } }))).map (fun s => s.host)
      = some (.flush 0) := by decide
/-- 42_uart_host.md R182: the end of P3. -/
theorem test_uartGetStats : resultsOf (exec (.uartGetStats 0) (onP { portA with stats := ⟨1, 0, 0, 0, 0, 1, 6, 0⟩ }))
    = some [{ okResult 0 0 [] with data := .words [1, 0, 0, 0, 0, 1, 6, 0] }] := by decide

/-- 60_exceptions.md R270: the first ISR of P3. -/
theorem test_evIsr : portOf (exec (.evIsr 0) (onP { portA with dev := { portA.dev with intEna := 0b1110 } }))
    = some { portA with dispatchPending := true, stats := { Stats.zero with ints := 1, txInts := 1 } } := by decide
/-- 60_exceptions.md R270: the overflow of a part with the quirk resets the RX FIFO, and its latch is cleared. -/
theorem test_evIsr_overflow : (portOf (exec (.evIsr 0) { onP { portA with dev := { portA.dev with
      rxf := [1, 2], ovfLatch := true, rxCorrupt := true } } with params := { Config.resetParams with ovfResetFifo := true } })).map
    (fun p => (p.dev.rxf, p.dev.ovfLatch, p.dev.rxCorrupt, p.stats.rxOverflows)) = some ([], false, false, 1) := by decide
/-- 43_dispatch.md R202: P4's first byte. -/
theorem test_evDispatch_rxTop : portOf (exec (.evDispatch 0) (onP { portA with
      rxEnabled := true, dphase := .rxTop, dev := { portA.dev with rxf := [0x31, 0x32, 0x33] } }))
    = some { portA with rxEnabled := true, dphase := .rxTop, rx := held 4 0 [0x31] 0 none,
                        stats := { Stats.zero with rxBytes := 1 }, dev := { portA.dev with rxf := [0x32, 0x33] } } := by decide
/-- 43_dispatch.md R204: P4's XOFF, 0x13. -/
theorem test_evDispatch_rxFc : portOf (exec (.evDispatch 0) (onP { port4 .software .none 0 with
      dphase := .rxFc, rx := held 4 0 [0x31, 0x32, 0x33] 0 none }))
    = some { port4 .software .none 0 with
        dphase := .txTop, xoffSent := true, rx := held 4 0 [0x31, 0x32, 0x33] 0 none,
        dev := { portA.dev with txf := [0x13] } } := by decide
/-- 44_line_flow.md R231: with 7 data bits 0xC1 is received as 0x41. -/
theorem test_evLineRx : (portOf (exec (.evLineRx 0 0xC1) (onP { portA with dev := { portA.dev with
    frame := { numDataBits := 7, parity := .none, stopBits := .one } } }))).map (fun p => p.dev.rxf) = some [0x41] := by decide
/-- 44_line_flow.md R231: a ninth byte is lost and latched. -/
theorem test_evLineRx_overflow : (portOf (exec (.evLineRx 0 9) (onP { portA with dev := { portA.dev with
    rxf := [1, 2, 3, 4, 5, 6, 7, 8] } }))).map (fun p => (p.dev.rxf.length, p.dev.ovfLatch, p.dev.rxCorrupt))
    = some (8, true, false) := by decide
/-- 44_line_flow.md R232. -/
theorem test_evLineTxLoad : (portOf (exec (.evLineTxLoad 0) (onP { portA with dev := { portA.dev with txf := [0x48, 0x65] } }))).map
    (fun p => (p.dev.txsh, p.dev.txf)) = some (some 0x48, [0x65]) := by decide
/-- 44_line_flow.md R238: CTS blocks the shifter in hardware mode. -/
theorem test_evLineTxLoad_cts : let s := onP { port4 .none .hardware 0 with dev := { portA.dev with txf := [0x48], ctsIn := true } }
    nextOf (exec (.evLineTxLoad 0) s) = some s := by decide
/-- 44_line_flow.md R233. -/
theorem test_evLineTxDone : (portOf (exec (.evLineTxDone 0) (onP { portA with dev := { portA.dev with txsh := some 0x48 } }))).map
    (fun p => (p.wireOut, p.dev.txsh)) = some ([0x48], none) := by decide
/-- 44_line_flow.md R234. -/
theorem test_evCts : (portOf (exec (.evCts 0 true) (onP portA))).map (fun p => (p.dev.ctsIn, p.dev.ctsLatch)) = some (true, true) := by
  decide
/-- 44_line_flow.md R235: RX_DATA then reads 1. -/
theorem test_evRxTimeout : (portOf (exec (.evRxTimeout 0) (onP { portA with dev := { portA.dev with rxf := [0x31] } }))).map
    (fun p => (p.dev.toutLatch, (intRaw p).getLsbD 0)) = some (true, true) := by decide

/-- 95_test_vectors.md 2.1.4: a step of the HOST with an illegal word leaves FAULT = (1, 0x01, the word). -/
theorem test_step_illegal : (nextOf (step (issuing base 0x04010008 []))).map (fun s => s.fault)
    = some { valid := true, code := 0x01, word := 0x04010008 } := by decide
/-- The instruction a fetch word stands for is the next step's (the opcode table's row RB_INIT). -/
theorem test_withFetchWord : rbOf (step ((withDraws base [1]).withFetchWord 32 0x04000008)) = some (held 8 0 [] 0 none) := by decide
/-- P3's first commands as a trace (30_encoding.md R107, R114): the write is taken, then the run's first micro-step. -/
theorem test_trace : (nextOf (step (State.withTrace (onP portA) [.evDispatch 0, .uartWrite 0 [0x48]]))).map
    (fun s => (s.turns, s.hostq.length)) = some ([.host], 1) := by decide

/-! ## Witnesses: states and operands that meet the hypotheses of each statement, clause by clause -/

/-- What RbPrologue assumes: an instance number out of range, and an unallocated instance. -/
abbrev rbPrologueMet : Prop :=
  ready base ∧ base.srb.length ≤ 2 ∧ base.srb[1]? = some RingBuffer.unallocated ∧ RingBuffer.unallocated.alloc = false
/-- What UartPrologue assumes: a port number out of range, and an UNINIT port. -/
abbrev uartPrologueMet : Prop :=
  ready base ∧ base.ports.length ≤ 2 ∧ base.ports[1]? = some (Port.reset false) ∧ (Port.reset false).phase = .uninit
/-- What a command on instance 0 assumes. -/
abbrev rbMet (rb : RingBuffer) : Prop := ready (onRb rb) ∧ (onRb rb).srb[0]? = some rb ∧ rb.live
/-- What a command or an event on port 0 assumes. -/
abbrev portMet (p : Port) : Prop := ready (onP p) ∧ (onP p).ports[0]? = some p ∧ p.phase ≠ .uninit

theorem test_witness_EncodeThenDecode : (Instr.rbAppend 63 [0xAA]).wellFormed = true := by decide
theorem test_witness_DecodeThenEncode : decode [0x01, 0x00, 0xF0, 0x13, 0xAA] = .ok (.rbAppend 63 [0xAA]) := by rfl
theorem test_witness_OpcodeMapDecodes : (63 < 64) ∧ (65535 < 65536) ∧ ([] : List Byte).length < 65536 ∧
    opField 0x2C000000#32 ∉ hostOps ∧ opField 0x2C000000#32 ∉ [0x20, 0x21, 0x22, 0x23, 0x24, 0x25, 0x26] := by decide
/-- An illegal OP, a set SUB bit, a must-be-0 IMM bit; each on a ready state whose turn is the HOST's. -/
theorem test_witness_HostIllegalWordFaults : ready (issuing base 0x04010008 []) ∧
    (issuing base 0x04010008 []).hostq = [⟨0x04010008, []⟩] ∧ (issuing base 0x04010008 []).turns = [.host] ∧
    opField 0x80000000#32 ∉ hostOps ∧ subField 0x04010008#32 ≠ 0 ∧
    immField 0x48000002#32 &&& mustBeZero (opField 0x48000002#32) ≠ 0 := by decide
theorem test_witness_HostPayloadLengthFaults :
    ready (issuing base 0x10000003 [1, 2]) ∧ (issuing base 0x10000003 [1, 2]).hostq = [⟨0x10000003, [1, 2]⟩] ∧
    ¬(opField 0x10000003#32 ∉ hostOps ∨ subField 0x10000003#32 ≠ 0 ∨
      immField 0x10000003#32 &&& mustBeZero (opField 0x10000003#32) ≠ 0) ∧
    [1, 2].length ≠ requiredPayload 0x10000003 := by decide

/-- A port whose dispatcher is mid-run. -/
def midRun : Port := { portA with dphase := .txTop }

/-- The word of `uart.deinit p0`; on a port mid-run the command holds, on an idle one it does not. -/
theorem test_witness_StepRunsHostCommand : decodeHost 0x44000000 [] = .ok (.uartDeinit 0) ∧
    ready (issuing (onP portA) 0x44000000 []) ∧ commandHolds (.uartDeinit 0) (issuing (onP portA) 0x44000000 []) = false ∧
    commandHolds (.uartDeinit 0) (issuing (onP midRun) 0x44000000 []) = true := by decide
theorem test_witness_StepRunsAgentEvent : (agent base 0x84000000).running ∧
    (agent base 0x84000000).turns = [.agent 0x84000000] ∧ decodeEvent 0x84000000 = some (.evDispatch 0) ∧
    0x20 ≤ opField 0x84000001#32 ∧ decodeEvent 0x84000001 = none ∧ opField 0x7C000000#32 < 0x20 := by decide
theorem test_witness_StepContinuesOrIdles : ({ base with turns := [.host] }).running ∧
    ({ base with turns := [.host], host := .flush 0 }).host ≠ .idle ∧ base.host = .idle ∧ base.hostq = [] ∧
    base.turns = [] := by decide
theorem test_witness_StoppedBlockHasNoStep : (faulted base 0x01 0).fault.valid = true ∧
    ({ base with refused := ⟨true, 0x80⟩ }).fault.valid = false ∧
    ({ base with refused := ⟨true, 0x80⟩ }).refused.valid = true := by decide
theorem test_witness_SelectorOutOfRangeFaults : base.running ∧ rbSelector (.rbClear 2) = some 2 ∧ base.host = .idle ∧
    base.srb.length ≤ 2 ∧ uartSelector (.uartFlush 2) = some 2 ∧ base.ports.length ≤ 2 ∧
    eventSelector (.evIsr 2) = some 2 := by decide

theorem test_witness_RbInitResult : ready base ∧ base.srb.length ≤ 2 ∧ rbMet (held 4 0 [] 0 none) ∧
    base.srb[1]? = some RingBuffer.unallocated ∧ RingBuffer.unallocated.alloc = false ∧
    (withDraws base [0]).draws.bool = false ∧ (withDraws base [1]).draws.bool = true := by decide
theorem test_witness_RbDeinitResult : rbPrologueMet ∧ rbMet (held 8 5 [6] 1 none) := by decide
theorem test_witness_RbClearResult : rbPrologueMet ∧ rbMet (held 8 5 [6] 1 none) := by decide
/-- Free space 1: two bytes do not fit, one does. -/
theorem test_witness_RbAppendResult : rbPrologueMet ∧ rbMet (held 4 2 [1, 2, 3] 0 none) ∧
    (held 4 2 [1, 2, 3] 0 none).avail < [8, 9].length ∧ [8].length ≤ (held 4 2 [1, 2, 3] 0 none).avail := by decide
theorem test_witness_RbAppendOneResult : rbPrologueMet ∧ rbMet (held 1 0 [1] 0 none) ∧ (held 1 0 [1] 0 none).avail = 0 ∧
    rbMet (held 1 0 [] 0 none) ∧ 1 ≤ (held 1 0 [] 0 none).avail := by decide
/-- Used 1, capacity 2: the indexes 0, 1 and 2. -/
theorem test_witness_RbAtResult : rbPrologueMet ∧ rbMet (held 2 0 [1] 0 none) ∧ 0 < (held 2 0 [1] 0 none).used ∧
    (held 2 0 [1] 0 none).used ≤ 1 ∧ 1 < (held 2 0 [1] 0 none).cap ∧ (held 2 0 [1] 0 none).cap ≤ 2 := by decide
theorem test_witness_RbGetResult : rbPrologueMet ∧ rbMet (held 8 6 [1, 2, 3, 4] 1 none) ∧
    7 = ((held 8 6 [1, 2, 3, 4] 1 none).head + (held 8 6 [1, 2, 3, 4] 1 none).inFlight) % 8 ∧
    1 = min 65535 (min (4 - 1) (8 - 7)) := by decide
/-- Used 2, in flight 1: lengths 3, 2 and 1; and the length that empties the buffer. -/
theorem test_witness_RbConsumeResult : rbPrologueMet ∧ rbMet (held 4 0 [1, 2] 1 none) ∧
    (held 4 0 [1, 2] 1 none).used < 3 ∧ 2 ≤ (held 4 0 [1, 2] 1 none).used ∧ (held 4 0 [1, 2] 1 none).inFlight < 2 ∧
    1 ≤ (held 4 0 [1, 2] 1 none).inFlight ∧ rbMet (held 8 0 [1] 1 (some 7)) ∧
    (held 8 0 [1] 1 (some 7)).used = 1 ∧ (held 8 0 [1] 1 (some 7)).tail ≠ 0 := by decide
/-- A full buffer; tail at or above head; tail below head. -/
theorem test_witness_RbContigTailSpaceResult : rbPrologueMet ∧
    (rbMet (held 1 0 [1] 0 none) ∧ (held 1 0 [1] 0 none).used = (held 1 0 [1] 0 none).cap) ∧
    (rbMet (held 2 0 [] 0 none) ∧ (held 2 0 [] 0 none).head ≤ (held 2 0 [] 0 none).tail) ∧
    (rbMet (held 8 5 [1, 2, 3, 4] 0 none) ∧ (held 8 5 [1, 2, 3, 4] 0 none).tail < (held 8 5 [1, 2, 3, 4] 0 none).head) :=
  ⟨by decide, by decide, by decide, by decide⟩
theorem test_witness_RbAdvanceTailResult : rbPrologueMet ∧ rbMet (held 4 0 [] 0 none) ∧
    (held 4 0 [] 0 none).resv = none ∧ rbMet (held 4 0 [] 0 (some 1)) ∧ 1 < [8, 9].length ∧ [8].length ≤ 1 := by decide
/-- Five operations across a wrap of a two-byte buffer. -/
theorem test_witness_RbOrderAndIntegrity : (held 2 1 [1] 0 none).live ∧
    (match RbTrace.ops { rb := held 2 1 [1] 0 none, put := [], got := [] }
        [.appendOne 2, .get 5, .consume 1, .contigTailSpace, .advanceTail [3]] with
      | .ok t => t.put == [2, 3] && t.got == [1]
      | .error _ => false) = true := by decide

/-- A configuration that passes, one that fails check 1 first, one that is refused. -/
theorem test_witness_ConfigureRejects : ready base ∧ base.ports[0]? = some (Port.reset false) ∧
    noHold (Port.reset false) ∧ validate base.params { baseWords with w1 := 0x00001008 } = .error 1 ∧
    (match validate base.params softwareTx with
      | .ok cfg => decide (cfg.txFlowControl = .software)
      | .error _ => false) = true := by decide
theorem test_witness_ConfigureApplies : ready (withDraws base [1, 1]) ∧
    (withDraws base [1, 1]).ports[0]? = some (Port.reset false) ∧ noHold (Port.reset false) ∧ noHold portA ∧
    (match validate base.params baseWords with
      | .ok cfg => decide (cfg.txFlowControl ≠ .software)
      | .error _ => false) = true ∧
    (withDraws base [1, 1]).draws.bool = true ∧ (withDraws base [1, 1]).draws.pop.bool = true := by decide
theorem test_witness_ConfigureAllocationFails : ready (withDraws base [0]) ∧ noHold (Port.reset false) ∧
    (match validate base.params baseWords with
      | .ok cfg => decide (cfg.txFlowControl ≠ .software)
      | .error _ => false) = true ∧
    (withDraws base [0]).draws.bool = false ∧ (withDraws base [1, 0]).draws.bool = true ∧
    (withDraws base [1, 0]).draws.pop.bool = false ∧ uartSelector (.uartFlush 0) = some 0 ∧
    (∃ p, ready base ∧ base.ports[0]? = some p ∧ p.phase = .uninit) := by
  exact ⟨by decide, by decide, by decide, by decide, by decide, by decide, by decide, Port.reset false, by decide⟩
theorem test_witness_ConfigureAndDeinitWait : portMet midRun ∧ midRun.dphase ≠ .idle ∧
    (issuing (onP midRun) 0x44000000 []).turns = [.host] ∧ decodeHost 0x44000000 [] = .ok (.uartDeinit 0) := by decide
theorem test_witness_UartDeinitResult : uartPrologueMet ∧ portMet midRun ∧ midRun.dphase ≠ .idle ∧ portMet portA ∧
    portA.dphase = .idle := by decide
theorem test_witness_UartSetRxEnabledResult : uartPrologueMet ∧ portMet portA := by decide

/-- A port whose TX buffer holds these bytes. -/
def sending (bs : List Byte) : Port := { portA with tx := held 4 0 bs 0 none }
/-- A port whose RX buffer holds these bytes, with RX enabled. -/
def received (bs : List Byte) : Port := { portA with rx := held 4 0 bs 0 none, rxEnabled := true }

theorem test_witness_UartWriteResult : uartPrologueMet ∧ portMet (sending [1, 2, 3]) ∧ (sending [1, 2, 3]).tx.live ∧
    (sending [1, 2, 3]).tx.avail ≠ 0 ∧ portMet (sending [1, 2, 3, 4]) ∧ (sending [1, 2, 3, 4]).tx.live ∧
    (sending [1, 2, 3, 4]).tx.avail = 0 ∧ ({ onP (sending [1]) with host := .write 0 [5] 2 }).running := by decide
theorem test_witness_UartReadResult : uartPrologueMet ∧ portMet (received [1, 2, 3]) ∧ (received [1, 2, 3]).rx.live ∧
    (received [1, 2, 3]).rx.resv = none ∧ (received [1, 2, 3]).rx.inFlight = 0 := by decide
theorem test_witness_UartFlushResult : uartPrologueMet ∧ portMet portA ∧ portA.tx.used = 0 ∧ portA.dev.txf = [] ∧
    portA.dev.txsh = none ∧ portMet (sending [1]) ∧ (sending [1]).tx.used ≠ 0 ∧
    ({ onP portA with host := .flush 0 }).running := by decide
theorem test_witness_UartGetStatsResult : uartPrologueMet ∧ portMet portA := by decide

/-- A port with all four causes pending and enabled, in hardware mode with a throttle to count. -/
def allCauses : Port :=
  { port4 .none .hardware 0 with
    tx := held 4 0 [1] 0 none
    dev := { portA.dev with rxf := [1, 2], intEna := 0b1111, ovfLatch := true, ctsLatch := true, ctsIn := true } }

theorem test_witness_DisabledAgentDoesNotStep : base.running ∧ base.ports[0]? = some (Port.reset false) ∧
    (Port.reset false).phase = .uninit ∧ eventSelector (.evDispatch 0) = some 0 ∧ portMet portA ∧
    intRaw portA &&& readIntEna portA.dev = 0 := by decide
theorem test_witness_IsrHandlesPendingCauses : portMet allCauses ∧ allCauses.registered = true ∧
    (rxDataRaw allCauses && allCauses.dev.intEna.getLsbD 0) = true ∧
    (txSpaceRaw allCauses && allCauses.dev.intEna.getLsbD 1) = true ∧
    (allCauses.dev.ovfLatch && allCauses.dev.intEna.getLsbD 2) = true ∧
    (allCauses.dev.ctsLatch && allCauses.dev.intEna.getLsbD 3) = true := by decide
theorem test_witness_DispatchIdleStartsRun : portMet portA ∧ portA.dphase = .idle := by decide

/-- A port at RX_TOP or LINGER. -/
def atRx (d : DPhase) (linger : Nat) (rxf : List Byte) (corrupt : Bool) : Port :=
  { port4 .none .none linger with
    rxEnabled := true, dphase := d, dev := { portA.dev with rxf := rxf, rxCorrupt := corrupt } }

/-- One byte to take, of a sound and of a corrupt FIFO; none with a linger budget, and none without. -/
theorem test_witness_DispatchRxTop : portMet (atRx .rxTop 1 [5] false) ∧ (atRx .rxTop 1 [5] false).rx.live ∧
    0 < (atRx .rxTop 1 [5] false).rx.avail ∧ portMet (atRx .rxTop 1 [] true) ∧
    1 = (withDraws (onP (atRx .rxTop 1 [] true)) [1, 7]).draws.upTo 8 ∧ portMet (atRx .rxTop 1 [] false) ∧
    0 < (atRx .rxTop 1 [] false).cfg.rxLingerMicros ∧ (atRx .rxTop 0 [] false).cfg.rxLingerMicros = 0 ∧
    portMet { atRx .rxTop 0 [] false with rxEnabled := false } := by decide
theorem test_witness_DispatchLinger : portMet (atRx .linger 1 [5] false) ∧ portMet (atRx .linger 1 [] false) ∧
    portMet (atRx .linger 1 [] true) ∧ (withDraws base [1]).draws.bool = true ∧ (withDraws base [0]).draws.bool = false ∧
    (withDraws base [0, 3]).draws.pop.upTo 8 = 3 := by decide

/-- A port at RX_FC in software mode, holding n bytes. -/
def atFc (bs : List Byte) (xoff : Bool) (txf : List Byte) : Port :=
  { port4 .software .none 0 with
    dphase := .rxFc, xoffSent := xoff, rx := held 4 0 bs 0 none, dev := { portA.dev with txf := txf } }

/-- Threshold and XON_LOW are 3: at 3 bytes XOFF, at 2 XON; and neither. -/
theorem test_witness_DispatchRxFc : portMet (atFc [1, 2, 3] false [1, 2, 3]) ∧
    (atFc [1, 2, 3] false []).cfg.rxFifoFcThresh ≤ (atFc [1, 2, 3] false []).rx.used ∧ portMet (atFc [1, 2] true []) ∧
    (atFc [1, 2] true []).rx.used < xonLow base.params (atFc [1, 2] true []).cfg ∧
    (atFc [1, 2] false []).rx.used < (atFc [1, 2] false []).cfg.rxFifoFcThresh ∧
    xonLow base.params (atFc [1, 2, 3] true []).cfg ≤ (atFc [1, 2, 3] true []).rx.used ∧
    decide ((atFc [1] true [1, 2, 3, 4]).dev.txf.length < base.params.txFifoCap) = false := by decide

/-- A port whose dispatcher is at a TX micro-step. -/
def atTx (d : DPhase) (bs : List Byte) (inFlight : Nat) (txf : List Byte) : Port :=
  { portA with dphase := d, tx := held 4 3 bs inFlight none, dev := { portA.dev with txf := txf } }

theorem test_witness_DispatchTxTop : portMet (atTx .txTop [1, 2] 0 [9, 9, 9]) ∧ 0 < (atTx .txTop [1, 2] 0 []).tx.used ∧
    3 = (3 + 0) % 4 ∧ 1 = min (4 - 3) (min (2 - 0) (4 - 3)) ∧ portMet (atTx .txTop [1] 0 [9, 9, 9, 9]) ∧
    portMet { portA with dphase := .txTop } ∧ portA.tx.used = 0 := by decide
theorem test_witness_DispatchTxConsume : portMet (atTx (.txConsume 1) [1, 2] 1 [1]) ∧
    (atTx (.txConsume 1) [1, 2] 1 [1]).tx.live ∧ (atTx (.txConsume 1) [1, 2] 1 [1]).tx.inFlight = 1 ∧
    (atTx (.txConsume 1) [1, 2] 1 [1]).tx.resv = none := by decide
theorem test_witness_DispatchBottomRearms : portMet (atTx .bottom [1] 0 []) := by decide

/-- A port with these bytes in its RX FIFO. -/
def withRxf (bs : List Byte) : Port := { portA with dev := { portA.dev with rxf := bs } }

theorem test_witness_LineRxResult : portMet (withRxf [1, 2, 3, 4, 5, 6, 7]) ∧
    (withRxf [1, 2, 3, 4, 5, 6, 7]).dev.rxf.length < base.params.rxFifoCap ∧ portMet (withRxf [1, 2, 3, 4, 5, 6, 7, 8]) ∧
    base.params.rxFifoCap ≤ (withRxf [1, 2, 3, 4, 5, 6, 7, 8]).dev.rxf.length := by decide
theorem test_witness_LineTxLoadResult : portMet (atTx .idle [] 0 [9]) ∧ (atTx .idle [] 0 [9]).dev.txf = 9 :: [] ∧
    (atTx .idle [] 0 [9]).dev.txsh = none ∧ (atTx .idle [] 0 [9]).cfg.txFlowControl ≠ .hardware ∧ portA.dev.txf = [] ∧
    portMet allCauses ∧ allCauses.cfg.txFlowControl = .hardware ∧ allCauses.dev.ctsIn = true := by decide
theorem test_witness_LineTxDoneResult : portMet { portA with dev := { portA.dev with txsh := some 7 } } ∧ portMet portA ∧
    portA.dev.txsh = none := by decide
theorem test_witness_LineCtsResult : portMet portA ∧ true ≠ portA.dev.ctsIn ∧ false = portA.dev.ctsIn := by decide
theorem test_witness_LineRxTimeoutResult : portMet (withRxf [1]) ∧ (withRxf [1]).dev.rxf ≠ [] ∧ portMet (withRxf []) ∧
    (withRxf []).dev.rxf = [] := by decide
theorem test_witness_InterruptRegistersReadAndWrite : (Port.reset false).phase = .uninit ∧ portA.phase ≠ .uninit ∧ 4 ≤ 31 := by decide

/-! ## Witnesses of the rules of the whole machine: one step each, from a sound state -/

set_option synthInstance.maxSize 2000 in
theorem test_witness_sound_rxTop : (agent (onP (atRx .rxTop 0 [5] false)) 0x84000000).sound := by decide
set_option synthInstance.maxSize 2000 in
theorem test_witness_sound_rxFc : (agent (onP (atFc [1, 2, 3] false [])) 0x84000000).sound := by decide

theorem test_witness_StepKeepsSound : ∃ s', step (agent (onP (atRx .rxTop 0 [5] false)) 0x84000000) = .next s' := ⟨_, rfl⟩
theorem test_witness_ResetIsSound : Config.resetParams.wf ∧ 1 ≤ 2 ∧ 2 ≤ 64 := by decide
theorem test_witness_ResetValues : base = State.resetWith Config.resetParams 2 2 (fun _ => false) ∧
    RingBuffer.unallocated ∈ base.srb ∧ Port.reset false ∈ base.ports ∧ base.ports[1]? = some (Port.reset false) ∧
    eventSelector (.evDispatch 1) = some 1 := by decide
theorem test_witness_DriverCallsNeverFault : (agent (onP (atRx .rxTop 0 [5] false)) 0x84000000).running ∧
    eventSelector (.evDispatch 0) = some 0 ∧ 0 < (onP (atRx .rxTop 0 [5] false)).ports.length ∧
    uartSelector (.uartRead 0 1) = some 0 ∧ (onP (atRx .rxTop 0 [5] false)).portUp 0 = true := by decide
/-- The XOFF of RX_FC, and a byte copied to the TX FIFO. -/
theorem test_witness_TxBytesKeepOrder : (∃ s', exec (.evDispatch 0) (agent (onP (atFc [1, 2, 3] false [])) 0x84000000) = .next s') ∧
    portMet (atFc [1, 2, 3] false []) ∧ portMet (atTx .txTop [1, 2] 0 []) :=
  ⟨⟨_, rfl⟩, by decide, by decide⟩
theorem test_witness_RxBytesKeepOrder :
    (∃ s', exec (.evLineRx 0 7) (agent (onP (atRx .rxTop 0 [5] false)) 0x84000000) = .next s') ∧
    portMet (atRx .rxTop 0 [5] false) ∧ (atRx .rxTop 0 [5] false).dev.rxCorrupt = false ∧
    (atRx .rxTop 0 [5] false).dev.rxf.length < base.params.rxFifoCap ∧ Instr.evLineRx 0 7 ≠ .evIsr 0 :=
  ⟨⟨_, rfl⟩, by decide, by decide, by decide, by decide⟩

/-- The DISPATCH(0) step on a port. -/
def dispatching (p : Port) : State := agent (onP p) 0x84000000

theorem test_witness_turnIsDispatch (p : Port) : turnIsDispatch (dispatching p) 0 := ⟨0x84000000, rfl, rfl⟩

/-- The flag rises at the threshold, falls below XON_LOW, falls in a deinit, and stays. -/
theorem test_witness_XoffSentOnce :
    (portOf (step (dispatching (atFc [1, 2, 3] false [])))).map (fun p => p.xoffSent) = some true ∧
    (portOf (step (dispatching (atFc [1, 2] true [])))).map (fun p => p.xoffSent) = some false ∧
    (portOf (step (issuing (onP { atFc [1, 2, 3] true [] with dphase := .idle }) 0x44000000 []))).map
      (fun p => p.xoffSent) = some false ∧
    (portOf (step (dispatching (atFc [1, 2] false [])))).map (fun p => p.xoffSent) = some false := by decide
/-- Both data enables rise in a BOTTOM micro-step. -/
theorem test_witness_DataEnableSetOnlyByBottom :
    (atTx .bottom [1] 0 []).dev.intEna.getLsbD 0 = false ∧ (atTx .bottom [1] 0 []).dev.intEna.getLsbD 1 = false ∧
    (portOf (step (dispatching { atTx .bottom [1] 0 [] with rxEnabled := true }))).map
      (fun p => (p.dev.intEna.getLsbD 0, p.dev.intEna.getLsbD 1)) = some (true, true) := by decide
/-- The dispatcher counts a byte; the ISR counts itself; a configure from UNINIT zeroes counters kept by a deinit. -/
theorem test_witness_CountersHaveOneOwner :
    (portOf (step (dispatching (atRx .rxTop 0 [5] false)))).map (fun p => p.stats.rxBytes) = some 1 ∧
    (portOf (step (agent (onP allCauses) 0x80000000))).map (fun p => (p.stats.ints, p.stats.txThrottles))
      = some (1, 1) ∧ Stats.zero.rxBytes ≠ 1 ∧ Stats.zero.ints ≠ 1 := by decide
theorem test_witness_InstructionsTouchOnlyTheirTarget :
    (nextOf (exec (.rbClear 0) (onRb (held 8 5 [6] 1 none)))).isSome = true ∧ rbSelector (.rbClear 0) = some 0 ∧ 1 ≠ 0 ∧
    (nextOf (exec (.uartFlush 0) (onP portA))).isSome = true ∧ uartSelector (.uartFlush 0) = some 0 ∧
    (nextOf (exec (.evDispatch 0) (onP portA))).isSome = true ∧ eventSelector (.evDispatch 0) = some 0 := by decide
theorem test_witness_RxDisabledPullsNothing :
    ({ atRx .rxTop 0 [5] false with rxEnabled := false }).rxEnabled = false ∧
    (portOf (exec (.evDispatch 0) (onP { atRx .rxTop 0 [5] false with rxEnabled := false }))).isSome = true := by decide

/-! ## Endless runs: fairness admits those the spec admits, and rules out those it rules out -/

/-- 70_reset_and_hazards.md R313: tx_fifo_empty_thresh at the TX FIFO's capacity, the FIFO full, CTS blocking and a byte
left to send. Phase 0 is the ISR's; phases 1 to 5 are a dispatch run's. The ISR has run `c` times. -/
def rearmed (phase : Nat) (c : Word) : Port :=
  { port4 .none .hardware 0 with
    phase := .running, cfg := { cfg4 .none .hardware 0 with txFifoEmptyThresh := 4 }, tx := held 4 0 [1] 0 none
    stats := { Stats.zero with ints := c, txInts := c }
    dphase := [DPhase.idle, .idle, .rxTop, .rxFc, .txTop, .bottom].getD phase .idle
    dispatchPending := phase = 1
    dev := { portA.dev with
      txf := [1, 2, 3, 4], ctsIn := true, intEna := if phase = 0 then 0b1110 else 0b1100 } }

/-- The event of a phase. -/
def rearmTurn (phase : Nat) : Input := ⟨[.agent (if phase = 0 then 0x80000000 else 0x84000000)], [], []⟩

theorem rearmed_isr (c : Word) : isrRun base.params (rearmed 0 c) = rearmed 1 (c + 1) := by
  have h : maskedStatus (rearmed 0 c) = 2#32 := (rfl : _ = maskedStatus (rearmed 0 0)).trans (by decide)
  have he : (setBit ((0b1110#4).setWidth 32) txSpace false).extractLsb' 0 4 = 0b1100#4 := by decide
  have b : ((2#32).getLsbD rxData, (2#32).getLsbD txSpace, (2#32).getLsbD rxOvf, (2#32).getLsbD ctsChg)
      = (false, true, false, false) := by decide
  simp only [Prod.mk.injEq] at b
  simp only [isrRun, h, isrAck, isrSchedule, isrTxSpace, isrRxData, isrCtsChg, isrRxOvf, clearInterrupt, b, if_true,
    Bool.false_eq_true, false_and, if_false, setInterruptEnable, readIntEna]
  exact congrArg (fun e => { rearmed 1 (c + 1) with dev := { (rearmed 1 (c + 1)).dev with intEna := e } }) he

theorem rearmed_bottom (c : Word) : dispatchBottom (rearmed 5 c) = rearmed 0 c := by
  have he : (setBit (setBit ((0b1100#4).setWidth 32) rxData false) txSpace true).extractLsb' 0 4 = 0b1110#4 := by decide
  exact congrArg (fun e => { rearmed 0 c with dev := { (rearmed 0 c).dev with intEna := e } }) he

theorem rearmed_step (phase : Nat) (h : phase < 6) (c : Word) :
    step ((onP (rearmed phase c)).given (rearmTurn phase))
      = .next (onP (rearmed ((phase + 1) % 6) (if phase = 0 then c + 1 else c))) := by
  match phase with
  | 0 =>
    have he : isrEnabled (rearmed 0 c) = true := (rfl : _ = isrEnabled (rearmed 0 0)).trans (by decide)
    have h : step ((onP (rearmed 0 c)).given (rearmTurn 0)) =
      .next (if isrEnabled (rearmed 0 c) then onP (isrRun base.params (rearmed 0 c)) else onP (rearmed 0 c)) := by rfl
    rw [h, he, rearmed_isr]; rfl
  | 5 =>
    have h : step ((onP (rearmed 5 c)).given (rearmTurn 5)) = .next (onP (dispatchBottom (rearmed 5 c))) := by rfl
    rw [h, rearmed_bottom]; rfl
  | 1 | 2 | 3 | 4 => rfl

/-- The endless re-arm as a run: it never comes to rest. -/
def rearmRun : Run where
  state n := onP (rearmed (n % 6) (BitVec.ofNat 32 ((n + 5) / 6)))
  input n := rearmTurn (n % 6)
  steps n := by
    rw [rearmed_step _ (Nat.mod_lt _ (by decide)), Nat.mod_add_mod]
    congr 3
    split
    · rw [show (n + 1 + 5) / 6 = (n + 5) / 6 + 1 by omega, BitVec.ofNat_add]; rfl
    · rw [show (n + 1 + 5) / 6 = (n + 5) / 6 by omega]

/-- R313's endless re-arm is a fair run, in which the ISR is taken without end. -/
theorem test_endless_rearm_is_fair : rearmRun.fair ∧ ∀ n, ∃ m, n ≤ m ∧ rearmRun.takes m (.evIsr 0) := by
  have isr (n : Nat) : ∃ m, n ≤ m ∧ rearmRun.takes m (.evIsr 0) :=
    ⟨6 * n, by omega, 0x80000000, by simp [rearmRun, rearmTurn, onP, base, State.resetWith], by decide⟩
  have dispatch (n : Nat) : ∃ m, n ≤ m ∧ rearmRun.takes m (.evDispatch 0) :=
    ⟨6 * n + 1, by omega, 0x84000000, by simp [rearmRun, rearmTurn, onP, base, State.resetWith], by decide⟩
  have other (p m : Nat) (q : Port → Bool) (hq : q (Port.reset false) = false) : rearmRun.holds (p + 1) m q = false := by
    match p with
    | 0 => simpa [Run.holds, rearmRun, onP] using hq
    | p + 1 => simp [Run.holds, rearmRun, onP]
  refine ⟨fun p => ?_, isr⟩
  match p with
  | 0 =>
    refine ⟨fun n _ => dispatch n, fun n _ => isr n, fun ⟨n, h, _⟩ => ?_⟩
    have h6 := h (6 * n) (by omega)
    simp [Run.holds, rearmRun, onP, rearmed] at h6
  | p + 1 =>
    refine ⟨fun n h => ?_, fun n h => ?_, fun ⟨n, h, _⟩ => ?_⟩ <;>
    · have hn := h n (Nat.le_refl n)
      rw [other p n _ (by decide)] at hn
      cases hn

/-- A port that lingers through endlessly many micro-steps, its budget never expired. -/
def lingerRun : Run where
  state n := { onP (atRx .linger 1 [] false) with draws := ⟨[], n⟩ }
  input _ := ⟨[.agent 0x84000000], [], [0]⟩
  steps _ := by with_unfolding_all rfl

/-- A run that never leaves LINGER breaks the budget's fairness (43_dispatch.md R203). -/
theorem test_endless_linger_is_unfair : ¬ LingerExpires lingerRun 0 := fun h =>
  h ⟨0, fun _ _ => rfl, fun m _ => ⟨m, Nat.le_refl m, 0x84000000,
    by simp [lingerRun, onP, base, State.resetWith], by decide⟩⟩

/-- A run in which a requested dispatcher, and an enabled ISR, is never given a turn. -/
def stalledRun (p : Port) : Run where
  state _ := onP p
  input _ := ⟨[], [], []⟩
  steps _ := rfl

/-- It breaks the fairness of DISPATCH (43_dispatch.md R200) and of the ISR (60_exceptions.md R269). -/
theorem test_stalled_agent_is_unfair :
    ¬ DispatchFair (stalledRun (rearmed 1 0)) 0 ∧ ¬ IsrFair (stalledRun (rearmed 0 0)) 0 := by
  constructor <;> intro h <;> obtain ⟨m, _, w, hw, _⟩ := h 0 (fun _ _ => by with_unfolding_all rfl) <;>
    simp [stalledRun, onP, base, State.resetWith] at hw

end Sys2Proof.Tests
end

section
/-! PROOFS. The family of 10_state.md: the HOST's turn that issues nothing (R46), the interrupt registers as read and
written (R34, R35, R36), and the disabled receiver (R51). -/

namespace Sys2Proof.Machine

/-! ## The turn that is next -/

theorem State.popTurn_cons {s : State} {t : Turn} {ts : List Turn} (h : s.turns = t :: ts) :
    s.popTurn = { s with turns := ts } := by simp [State.popTurn, h]

theorem fetch_nil {s : State} (h : s.turns = []) : fetch s = .done s := by simp [fetch, h]

theorem fetch_host_busy {s : State} {ts : List Turn} (h : s.turns = .host :: ts) (hb : s.host ≠ .idle) :
    fetch s = .more { s with turns := ts } := by simp [fetch, h, hb, State.popTurn_cons h]

theorem fetch_host_idle {s : State} {ts : List Turn} (h : s.turns = .host :: ts) (hi : s.host = .idle) :
    fetch s = fetchCommand { s with turns := ts } := by simp [fetch, h, hi, State.popTurn_cons h]

theorem fetchCommand_nil {s : State} (h : s.hostq = []) : fetchCommand s = .done s := by simp [fetchCommand, h]

/-- Settles O9: the next turn is found by the HOST's state and by the two lists. -/
theorem stepContinuesOrIdles : Obligations.StepContinuesOrIdles := by
  unfold Obligations.StepContinuesOrIdles
  intro s ts hr
  refine ⟨fun ht hb => ?_, fun ht hi hq => ?_, fun ht => ?_⟩ <;> rw [step_running hr]
  · rw [fetch_host_busy ht hb]
  · rw [fetch_host_idle ht hi, fetchCommand_nil (s := { s with turns := ts }) hq]
  · rw [fetch_nil ht]

/-! ## The interrupt registers -/

theorem intRaw_uninit {p : Port} (h : p.phase = .uninit) : intRaw p = 0 := if_pos h

theorem intRaw_up {p : Port} (h : p.phase ≠ .uninit) :
    intRaw p = wordOfBits (rxDataRaw p) (txSpaceRaw p) p.dev.ovfLatch p.dev.ctsLatch := if_neg h

/-- The level RX_DATA, or the latched timeout (10_state.md R34). -/
theorem rxDataRaw_iff {p : Port} : rxDataRaw p = true ↔
    (0 < p.dev.rxf.length ∧ p.cfg.rxFifoFullThresh ≤ p.dev.rxf.length) ∨ p.dev.toutLatch = true := by
  simp only [rxDataRaw, Bool.or_eq_true, Bool.and_eq_true, decide_eq_true_eq, gt_iff_lt, ge_iff_le]

/-- The level TX_SPACE (10_state.md R34). -/
theorem txSpaceRaw_iff {p : Port} : txSpaceRaw p = true ↔ p.dev.txf.length ≤ p.cfg.txFifoEmptyThresh :=
  decide_eq_true_iff

/-- Settles O49: INT_RAW of a configured port is the word of its four causes. -/
theorem interruptRegistersReadAndWrite : Obligations.InterruptRegistersReadAndWrite := by
  unfold Obligations.InterruptRegistersReadAndWrite
  refine ⟨fun p hu => intRaw_uninit hu, fun p hu => ?_, fun v w => ⟨rfl, rfl, fun i => ?_⟩⟩
  · simp only [intRaw_up hu, wordOfBits_getLsbD]
    refine ⟨?_, ?_, ?_, ?_, fun i hi => ?_⟩
    · simpa using rxDataRaw_iff
    · simpa using txSpaceRaw_iff
    · simp
    · simp
    · simp; omega
  · rw [readIntEna_getLsbD, setInterruptEnable_getLsbD]

/-! ## What an agent's step does to the ports -/

/-- What holds between a port and itself, and between the port an agent steps on and what its step leaves there,
holds between every port's record before and after the step. -/
theorem agentStep_related {R : Port → Port → Prop} {w : Word} {sel q : Nat} {s s' : State} {en : Port → Bool}
    {k : Port → State} {p p' : Port} (h : agentStep w sel s en k = .next s') (hrefl : ∀ x, R x x)
    (hk : ∀ x, s.ports[sel]? = some x → ∃ y, (k x).ports = s.ports.set sel y ∧ R x y)
    (hp : s.ports[q]? = some p) (hp' : s'.ports[q]? = some p') : R p p' := by
  have same : s'.ports = s.ports → R p p' := by
    intro e
    obtain rfl : p = p' := by simpa [e, hp] using hp'
    exact hrefl p
  obtain ⟨-, ⟨-, rfl⟩ | ⟨x, hx, -, rfl⟩ | ⟨-, -, -, rfl⟩⟩ := agentStep_next h
  · exact same rfl
  · obtain ⟨y, hy, hR⟩ := hk x hx
    rw [hy, ← State.setPort_ports, State.setPort_getElem? hx] at hp'
    split at hp' <;> rename_i hq
    · subst hq
      obtain rfl : x = p := by simpa [hx] using hp
      obtain rfl : y = p' := by simpa using hp'
      exact hR
    · obtain rfl : p = p' := by simpa [hp] using hp'
      exact hrefl p
  · exact same rfl

/-- The same for the dispatcher: it is enough that the relation holds over every micro-step that answers a port. -/
theorem execEvDispatch_related {R : Port → Port → Prop} {sel q : Nat} {s s' : State} {p p' : Port}
    (h : execEvDispatch sel s = .next s') (hrefl : ∀ x, R x x)
    (hk : ∀ x y d, dispatchMicro s.params s.draws x = .ok (y, d) → R x y)
    (hp : s.ports[q]? = some p) (hp' : s'.ports[q]? = some p') : R p p' := by
  refine agentStep_related h hrefl (fun x hx => ?_) hp hp'
  split
  · exact ⟨x, (set_self_of_getElem? hx).symm, hrefl x⟩
  · exact ⟨_, rfl, hk x _ _ ‹_›⟩

/-! ## What no agent but the dispatcher changes: the RX ring buffer -/

theorem agentStep_rx {w : Word} {sel q : Nat} {s s' : State} {en : Port → Bool} {k : Port → State} {p p' : Port}
    (h : agentStep w sel s en k = .next s') (hk : ∀ x, ∃ y, (k x).ports = s.ports.set sel y ∧ y.rx = x.rx)
    (hp : s.ports[q]? = some p) (hp' : s'.ports[q]? = some p') : p'.rx = p.rx :=
  agentStep_related (R := fun x y => y.rx = x.rx) h (fun _ => rfl) (fun x _ => hk x) hp hp'

@[simp] theorem isrCount_rx (p : Port) : (isrCount p).rx = p.rx := rfl
@[simp] theorem isrRxOvf_rx (P : Params) (st : Word) (p : Port) : (isrRxOvf P st p).rx = p.rx := by
  unfold isrRxOvf; split <;> rfl
@[simp] theorem isrCtsChg_rx (st : Word) (p : Port) : (isrCtsChg st p).rx = p.rx := by
  unfold isrCtsChg; split <;> rfl
@[simp] theorem isrRxData_rx (st : Word) (p : Port) : (isrRxData st p).rx = p.rx := by
  unfold isrRxData; split <;> rfl
@[simp] theorem isrTxSpace_rx (st : Word) (p : Port) : (isrTxSpace st p).rx = p.rx := by
  unfold isrTxSpace; split <;> rfl
@[simp] theorem isrSchedule_rx (st : Word) (p : Port) : (isrSchedule st p).rx = p.rx := rfl
@[simp] theorem isrAck_rx (st : Word) (p : Port) : (isrAck st p).rx = p.rx := rfl

theorem isrRun_rx (P : Params) (p : Port) : (isrRun P p).rx = p.rx := by simp [isrRun]

/-! ## The dispatcher while RX is disabled -/

theorem canReceive_disabled {p : Port} (h : p.rxEnabled = false) : canReceive p = false := by simp [canReceive, h]

/-- RX_TOP goes straight on to RX_FC: it moves no byte and does not linger (43_dispatch.md R202). -/
theorem dispatchRxTop_disabled {P : Params} {d : Draws} {p : Port} (h : p.rxEnabled = false) :
    dispatchRxTop P d p = .ok ({ p with dphase := .rxFc }, (rxFifoLen P d p.dev).2) := by
  simp [dispatchRxTop, canReceive_disabled h]

theorem dispatchLinger_frame (P : Params) (d : Draws) (p : Port) :
    (dispatchLinger P d p).1.rx = p.rx ∧ (dispatchLinger P d p).1.dev = p.dev := by
  unfold dispatchLinger
  split
  · exact ⟨rfl, rfl⟩
  · simp only
    split <;> exact ⟨rfl, rfl⟩

theorem dispatchRxFc_frame (P : Params) (p : Port) :
    (dispatchRxFc P p).rx = p.rx ∧ (dispatchRxFc P p).dev.rxf = p.dev.rxf := by
  unfold dispatchRxFc
  split
  · exact ⟨rfl, rfl⟩
  · split <;> exact ⟨rfl, rfl⟩

theorem dispatchTxTop_frame (P : Params) (p : Port) :
    (dispatchTxTop P p).rx = p.rx ∧ (dispatchTxTop P p).dev.rxf = p.dev.rxf := by
  unfold dispatchTxTop
  split
  · simp
  · exact ⟨rfl, rfl⟩

theorem dispatchTxConsume_frame {n : Nat} {p p' : Port} (h : dispatchTxConsume n p = .ok p') :
    p'.rx = p.rx ∧ p'.dev = p.dev := by
  unfold dispatchTxConsume at h
  split at h <;> cases h
  exact ⟨rfl, rfl⟩

/-- RX_TOP alone moves bytes out of the RX FIFO, and only while RX is enabled (10_state.md R51, 43_dispatch.md
R202). -/
theorem dispatchMicro_disabled {P : Params} {d d' : Draws} {p p' : Port} (hr : p.rxEnabled = false)
    (h : dispatchMicro P d p = .ok (p', d')) : p'.rx = p.rx ∧ p'.dev.rxf = p.dev.rxf := by
  unfold dispatchMicro at h
  split at h
  · -- IDLE
    cases h; exact ⟨rfl, rfl⟩
  · -- RX_TOP
    rw [dispatchRxTop_disabled hr] at h
    cases h; exact ⟨rfl, rfl⟩
  · -- LINGER
    obtain ⟨hrx, hdev⟩ := dispatchLinger_frame P d p
    rw [Except.ok.inj h] at hrx hdev
    exact ⟨hrx, by rw [hdev]⟩
  · -- RX_FC
    cases h; exact dispatchRxFc_frame P p
  · -- TX_TOP
    cases h; exact dispatchTxTop_frame P p
  · -- TX_CONSUME
    rename_i n _
    rcases hc : dispatchTxConsume n p with c | x <;> rw [hc] at h <;> cases h
    obtain ⟨hrx, hdev⟩ := dispatchTxConsume_frame hc
    exact ⟨hrx, by rw [hdev]⟩
  · -- BOTTOM
    cases h; exact ⟨rfl, rfl⟩

/-! ## The agents' events -/

/-- The instructions that are an agent's event on port `sel` (30_encoding.md R107). -/
theorem eventSelector_cases {i : Instr} {sel : Nat} (h : Claims.eventSelector i = some sel) :
    i = .evIsr sel ∨ i = .evDispatch sel ∨ (∃ b, i = .evLineRx sel b) ∨ i = .evLineTxLoad sel ∨
    i = .evLineTxDone sel ∨ (∃ l, i = .evCts sel l) ∨ i = .evRxTimeout sel := by
  cases i <;> simp_all [Claims.eventSelector]

/-- No agent's event but the dispatcher's changes the RX ring buffer of a port (10_state.md R51). -/
theorem exec_event_rx {i : Instr} {sel q : Nat} {s s' : State} {p p' : Port} (hi : Claims.eventSelector i = some sel)
    (hd : i ≠ .evDispatch sel) (h : exec i s = .next s') (hp : s.ports[q]? = some p)
    (hp' : s'.ports[q]? = some p') : p'.rx = p.rx := by
  obtain rfl | rfl | ⟨b, rfl⟩ | rfl | rfl | ⟨l, rfl⟩ | rfl := eventSelector_cases hi
  case inr.inl => exact absurd rfl hd
  case inl => exact agentStep_rx h (fun x => ⟨_, rfl, isrRun_rx s.params x⟩) hp hp'
  all_goals exact agentStep_rx h (fun _ => ⟨_, rfl, rfl⟩) hp hp'

/-- Settles O60: the dispatcher pulls no byte while RX is disabled, and no other event touches the ring buffer. -/
theorem rxDisabledPullsNothing : Obligations.RxDisabledPullsNothing := by
  unfold Obligations.RxDisabledPullsNothing
  intro s s' i sel q p p' hi h hp hp' hr
  have dispatch : i = .evDispatch sel → p'.rx = p.rx ∧ p'.dev.rxf = p.dev.rxf := by
    rintro rfl
    exact execEvDispatch_related h (R := fun x y => x.rxEnabled = false → y.rx = x.rx ∧ y.dev.rxf = x.dev.rxf)
      (fun _ _ => ⟨rfl, rfl⟩) (fun _ _ _ hm hx => dispatchMicro_disabled hx hm) hp hp' hr
  by_cases hd : i = .evDispatch sel
  · exact ⟨(dispatch hd).1, fun _ _ => (dispatch hd).2⟩
  · refine ⟨exec_event_rx hi hd h hp hp', ?_⟩
    rintro r rfl
    cases hi
    exact absurd rfl hd

end Sys2Proof.Machine
end

section
/-! PROOFS. The family of 20_memory.md: what an instruction cannot touch (R84), and the order of the bytes on their way
out and on their way in (R83). -/

namespace Sys2Proof.Machine

open Sys2Proof.Claims

/-! ## States that differ in one ring buffer, or in one port -/

/-- `t` is `s` but for ring buffer `sel`, the draws, the results and the two stop registers. -/
structure OnlyInstance (sel : Nat) (s t : State) : Prop where
  params : t.params = s.params
  hostq  : t.hostq = s.hostq
  turns  : t.turns = s.turns
  ports  : t.ports = s.ports
  host   : t.host = s.host
  others : ∀ k, k ≠ sel → t.srb[k]? = s.srb[k]?

/-- `t` is `s` but for port `sel`, the HOST's command state, the draws, the results and the two stop registers. -/
structure OnlyPort (sel : Nat) (s t : State) : Prop where
  params : t.params = s.params
  hostq  : t.hostq = s.hostq
  turns  : t.turns = s.turns
  srb    : t.srb = s.srb
  others : ∀ k, k ≠ sel → t.ports[k]? = s.ports[k]?

/-- The same for an agent's step, which leaves the HOST alone and refuses nothing. -/
structure OnlyAgentPort (sel : Nat) (s t : State) : Prop extends OnlyPort sel s t where
  host    : t.host = s.host
  results : t.results = s.results
  refused : t.refused = s.refused

variable {s s' t : State} {sel q : Nat}

theorem OnlyInstance.of_srb_eq (hp : t.params = s.params) (hq : t.hostq = s.hostq) (ht : t.turns = s.turns)
    (hports : t.ports = s.ports) (hh : t.host = s.host) (he : t.srb = s.srb) : OnlyInstance sel s t :=
  ⟨hp, hq, ht, hports, hh, fun _ _ => by rw [he]⟩

theorem OnlyInstance.refl : OnlyInstance sel s s := .of_srb_eq rfl rfl rfl rfl rfl rfl

theorem OnlyInstance.raise {c : FaultCode} {w : Word} : OnlyInstance sel s (s.raise c w) :=
  .of_srb_eq rfl rfl rfl rfl rfl rfl

theorem OnlyInstance.of_set {rb : RingBuffer} (hp : t.params = s.params) (hq : t.hostq = s.hostq)
    (ht : t.turns = s.turns) (hports : t.ports = s.ports) (hh : t.host = s.host) (he : t.srb = s.srb.set sel rb) :
    OnlyInstance sel s t :=
  ⟨hp, hq, ht, hports, hh, fun _ hk => by rw [he, List.getElem?_set_ne hk.symm]⟩

theorem OnlyPort.of_ports_eq (hp : t.params = s.params) (hq : t.hostq = s.hostq) (ht : t.turns = s.turns)
    (hr : t.srb = s.srb) (he : t.ports = s.ports) : OnlyPort sel s t :=
  ⟨hp, hq, ht, hr, fun _ _ => by rw [he]⟩

theorem OnlyPort.refl : OnlyPort sel s s := .of_ports_eq rfl rfl rfl rfl rfl

theorem OnlyPort.raise {c : FaultCode} {w : Word} : OnlyPort sel s (s.raise c w) := .of_ports_eq rfl rfl rfl rfl rfl

theorem OnlyPort.of_set {x : Port} (hp : t.params = s.params) (hq : t.hostq = s.hostq) (ht : t.turns = s.turns)
    (hr : t.srb = s.srb) (he : t.ports = s.ports.set sel x) : OnlyPort sel s t :=
  ⟨hp, hq, ht, hr, fun _ hk => by rw [he, List.getElem?_set_ne hk.symm]⟩

/-! ## RB commands touch their ring buffer only (20_memory.md R84) -/

theorem issue_onlyInstance (h : issue s t = .next s') (ht : OnlyInstance sel s t) : OnlyInstance sel s s' := by
  obtain ⟨-, ⟨-, rfl⟩ | ⟨-, rfl⟩⟩ := issue_next.mp h
  · exact ht
  · exact .refl

theorem onInstance_onlyInstance {w : Word} {k : RingBuffer → State} (hk : ∀ rb, OnlyInstance sel s (k rb)) :
    OnlyInstance sel s (onInstance w sel s k) := by
  rcases onInstance_cases (w := w) (sel := sel) (s := s) (k := k) with e | ⟨rb, -, e⟩ <;> rw [e]
  · exact .raise
  · exact hk rb

theorem onAllocated_onlyInstance {w : Word} {k : RingBuffer → State} (hk : ∀ rb, OnlyInstance sel s (k rb)) :
    OnlyInstance sel s (onAllocated w sel s k) := by
  rcases onAllocated_cases (w := w) (sel := sel) (s := s) (k := k) with ⟨c, e⟩ | ⟨rb, -, -, e⟩ <;> rw [e]
  · exact .raise
  · exact hk rb

theorem finishRb_onlyInstance {w : Word} {r : Except FaultCode (RingBuffer × Result)} :
    OnlyInstance sel s (finishRb w sel s r) := by
  unfold finishRb
  split
  · exact .raise
  · exact .of_set rfl rfl rfl rfl rfl rfl

/-- An RB command whose whole effect is an operation on its ring buffer. -/
theorem issue_finishRb_onlyInstance {w : Word} {r : RingBuffer → Except FaultCode (RingBuffer × Result)}
    (h : issue s (onAllocated w sel s fun rb => finishRb w sel s (r rb)) = .next s') : OnlyInstance sel s s' :=
  issue_onlyInstance h (onAllocated_onlyInstance fun _ => finishRb_onlyInstance)

theorem execRbInit_onlyInstance {cap : Nat} (h : execRbInit sel cap s = .next s') : OnlyInstance sel s s' := by
  refine issue_onlyInstance h (onInstance_onlyInstance fun rb => ?_)
  split
  · exact .raise
  · exact .of_set rfl rfl rfl rfl rfl rfl

theorem execRbAt_onlyInstance {index : Nat} (h : execRbAt sel index s = .next s') : OnlyInstance sel s s' := by
  refine issue_onlyInstance h (onAllocated_onlyInstance fun rb => ?_)
  split
  · exact .raise
  · exact .of_srb_eq rfl rfl rfl rfl rfl rfl

theorem exec_rb_onlyInstance {i : Instr} (hi : rbSelector i = some sel) (h : exec i s = .next s') :
    OnlyInstance sel s s' := by
  cases i with
  | rbInit => cases hi; exact execRbInit_onlyInstance h
  | rbAt => cases hi; exact execRbAt_onlyInstance h
  | rbDeinit | rbClear | rbAppend | rbAppendOne | rbGet | rbConsume | rbContigTailSpace | rbAdvanceTail =>
    cases hi; exact issue_finishRb_onlyInstance h
  | _ => cases hi

/-! ## UART commands touch their port only (20_memory.md R84) -/

theorem issue_onlyPort (h : issue s t = .next s') (ht : OnlyPort sel s t) : OnlyPort sel s s' := by
  obtain ⟨-, ⟨-, rfl⟩ | ⟨-, rfl⟩⟩ := issue_next.mp h
  · exact ht
  · exact .refl

theorem onPort_onlyPort {w : Word} {k : Port → State} (hk : ∀ p, OnlyPort sel s (k p)) :
    OnlyPort sel s (onPort w sel s k) := by
  rcases onPort_cases (w := w) (sel := sel) (s := s) (k := k) with e | ⟨p, -, e⟩ <;> rw [e]
  · exact .raise
  · exact hk p

theorem onConfigured_onlyPort {w : Word} {k : Port → State} (hk : ∀ p, OnlyPort sel s (k p)) :
    OnlyPort sel s (onConfigured w sel s k) := by
  rcases onConfigured_cases (w := w) (sel := sel) (s := s) (k := k) with ⟨c, e⟩ | ⟨p, -, -, e⟩ <;> rw [e]
  · exact .raise
  · exact hk p

theorem configureRun_onlyPort {c : PortCfg} {p : Port} : OnlyPort sel s (configureRun sel c p s) := by
  unfold configureRun
  simp only
  split <;> exact .of_set rfl rfl rfl rfl rfl

theorem execUartConfigure_onlyPort {c : CfgWords} (h : execUartConfigure sel c s = .next s') :
    OnlyPort sel s s' := by
  refine issue_onlyPort h (onPort_onlyPort fun p => ?_)
  split
  · exact .refl
  · split
    · exact .of_ports_eq rfl rfl rfl rfl rfl
    · split
      · exact .of_ports_eq rfl rfl rfl rfl rfl
      · exact configureRun_onlyPort

theorem execUartDeinit_onlyPort (h : execUartDeinit sel s = .next s') : OnlyPort sel s s' := by
  refine issue_onlyPort h (onConfigured_onlyPort fun p => ?_)
  split
  · exact .refl
  · exact .of_set rfl rfl rfl rfl rfl

theorem execUartSetRxEnabled_onlyPort {b : Bool} (h : execUartSetRxEnabled sel b s = .next s') :
    OnlyPort sel s s' :=
  issue_onlyPort h (onConfigured_onlyPort fun _ => .of_set rfl rfl rfl rfl rfl)

/-- A write step touches its port and the HOST, whatever the HOST held before it. -/
theorem writeStep_onlyPort {w : Word} {rem : List Byte} {total : Nat} {p : Port} (hs : HostState) :
    OnlyPort sel s (writeStep w sel rem total p { s with host := hs }) := by
  unfold writeStep
  simp only
  split
  · exact .of_ports_eq rfl rfl rfl rfl rfl
  · split
    · exact .of_ports_eq rfl rfl rfl rfl rfl
    · split <;> exact .of_set rfl rfl rfl rfl rfl

theorem execUartWrite_onlyPort {data : List Byte} (h : execUartWrite sel data s = .next s') :
    OnlyPort sel s s' := by
  refine issue_onlyPort h (onConfigured_onlyPort fun p => ?_)
  split
  · exact .of_ports_eq rfl rfl rfl rfl rfl
  · exact writeStep_onlyPort _

theorem execUartRead_onlyPort {max : Nat} (h : execUartRead sel max s = .next s') : OnlyPort sel s s' := by
  refine issue_onlyPort h (onConfigured_onlyPort fun p => ?_)
  split
  · exact .raise
  · exact .of_set rfl rfl rfl rfl rfl

theorem execUartFlush_onlyPort (h : execUartFlush sel s = .next s') : OnlyPort sel s s' := by
  refine issue_onlyPort h (onConfigured_onlyPort fun p => ?_)
  unfold flushStep
  split
  · exact .of_ports_eq rfl rfl rfl rfl rfl
  · exact .of_set rfl rfl rfl rfl rfl

theorem execUartGetStats_onlyPort (h : execUartGetStats sel s = .next s') : OnlyPort sel s s' :=
  issue_onlyPort h (onConfigured_onlyPort fun _ => .of_ports_eq rfl rfl rfl rfl rfl)

theorem exec_uart_onlyPort {i : Instr} (hi : uartSelector i = some sel) (h : exec i s = .next s') :
    OnlyPort sel s s' := by
  cases i with
  | uartConfigure => cases hi; exact execUartConfigure_onlyPort h
  | uartDeinit => cases hi; exact execUartDeinit_onlyPort h
  | uartSetRxEnabled => cases hi; exact execUartSetRxEnabled_onlyPort h
  | uartWrite => cases hi; exact execUartWrite_onlyPort h
  | uartRead => cases hi; exact execUartRead_onlyPort h
  | uartFlush => cases hi; exact execUartFlush_onlyPort h
  | uartGetStats => cases hi; exact execUartGetStats_onlyPort h
  | _ => cases hi

/-! ## Agents touch their port only (20_memory.md R84) -/

theorem OnlyAgentPort.refl : OnlyAgentPort sel s s := ⟨.refl, rfl, rfl, rfl⟩

theorem OnlyAgentPort.raise {c : FaultCode} {w : Word} : OnlyAgentPort sel s (s.raise c w) := ⟨.raise, rfl, rfl, rfl⟩

theorem OnlyAgentPort.setPort {x : Port} : OnlyAgentPort sel s (s.setPort sel x) :=
  ⟨.of_set rfl rfl rfl rfl rfl, rfl, rfl, rfl⟩

theorem agentStep_onlyAgentPort {w : Word} {en : Port → Bool} {k : Port → State}
    (h : agentStep w sel s en k = .next s') (hk : ∀ p, OnlyAgentPort sel s (k p)) : OnlyAgentPort sel s s' := by
  obtain ⟨-, ⟨-, rfl⟩ | ⟨p, -, -, rfl⟩ | ⟨-, -, -, rfl⟩⟩ := agentStep_next h
  · exact .raise
  · exact hk p
  · exact .refl

theorem execEvDispatch_onlyAgentPort (h : execEvDispatch sel s = .next s') : OnlyAgentPort sel s s' := by
  refine agentStep_onlyAgentPort h fun p => ?_
  split
  · exact .raise
  · exact ⟨.of_set rfl rfl rfl rfl rfl, rfl, rfl, rfl⟩

theorem exec_event_onlyAgentPort {i : Instr} (hi : eventSelector i = some sel) (h : exec i s = .next s') :
    OnlyAgentPort sel s s' := by
  obtain rfl | rfl | ⟨b, rfl⟩ | rfl | rfl | ⟨l, rfl⟩ | rfl := eventSelector_cases hi
  case inr.inl => exact execEvDispatch_onlyAgentPort h
  all_goals exact agentStep_onlyAgentPort h fun _ => .setPort

/-! ## Every instruction selects one ring buffer or one port -/

/-- An instruction is an RB command, a UART command or an agent's event. -/
theorem selector_cases (i : Instr) :
    (∃ sel, rbSelector i = some sel) ∨ (∃ sel, uartSelector i = some sel) ∨ ∃ sel, eventSelector i = some sel := by
  cases i <;> simp [rbSelector, uartSelector, eventSelector]

/-- No instruction changes the parameters, the queue of commands or the turns. -/
theorem exec_keeps_input {i : Instr} (h : exec i s = .next s') :
    s'.params = s.params ∧ s'.hostq = s.hostq ∧ s'.turns = s.turns := by
  obtain ⟨sel, hi⟩ | ⟨sel, hi⟩ | ⟨sel, hi⟩ := selector_cases i
  · have f := exec_rb_onlyInstance hi h
    exact ⟨f.params, f.hostq, f.turns⟩
  · have f := exec_uart_onlyPort hi h
    exact ⟨f.params, f.hostq, f.turns⟩
  · have f := exec_event_onlyAgentPort hi h
    exact ⟨f.params, f.hostq, f.turns⟩

/-- Settles O59: each family of instructions changes its own target, and no instruction its input. -/
theorem instructionsTouchOnlyTheirTarget : Obligations.InstructionsTouchOnlyTheirTarget := by
  unfold Obligations.InstructionsTouchOnlyTheirTarget
  intro i s s' h
  obtain ⟨hp, hq, ht⟩ := exec_keeps_input h
  refine ⟨hp, hq, ht, fun sel hi => ?_, fun sel hi => ?_, fun sel hi => ?_⟩
  · have f := exec_rb_onlyInstance hi h
    exact ⟨f.ports, f.host, f.others⟩
  · have f : OnlyPort sel s s' :=
      hi.elim (exec_uart_onlyPort · h) fun he => (exec_event_onlyAgentPort he h).toOnlyPort
    exact ⟨f.srb, f.others⟩
  · have f := exec_event_onlyAgentPort hi h
    exact ⟨f.host, f.results, f.refused⟩

/-! ## What an agent's step does to its own port -/

/-- The port an agent steps on stays as it is while the agent is not enabled, and else is what its step leaves there:
a relation that holds in both cases holds between its record before and after. -/
theorem agentStep_own_port {R : Port → Port → Prop} {w : Word} {en : Port → Bool} {k : Port → State} {p : Port}
    (h : agentStep w q s en k = .next s') (hp : s.ports[q]? = some p) (hrefl : en p = false → R p p)
    (hk : en p = true → ∃ y, (k p).ports = s.ports.set q y ∧ R p y) : ∃ p', s'.ports[q]? = some p' ∧ R p p' := by
  obtain ⟨-, ⟨hn, -⟩ | ⟨x, hx, he, rfl⟩ | ⟨x, hx, he, rfl⟩⟩ := agentStep_next h
  · simp [hn] at hp
  · obtain rfl : x = p := by simpa [hx] using hp
    obtain ⟨y, hy, hR⟩ := hk he
    exact ⟨y, by rw [hy, ← State.setPort_ports, State.setPort_getElem? hp, if_pos rfl], hR⟩
  · obtain rfl : x = p := by simpa [hx] using hp
    exact ⟨x, hp, hrefl he⟩

/-- The same for an agent that only replaces its port's record. -/
theorem agentStep_setPort_own_port {R : Port → Port → Prop} {w : Word} {en : Port → Bool} {f : Port → Port} {p : Port}
    (h : agentStep w q s en (fun x => s.setPort q (f x)) = .next s') (hp : s.ports[q]? = some p)
    (hrefl : en p = false → R p p) (hf : en p = true → R p (f p)) : ∃ p', s'.ports[q]? = some p' ∧ R p p' :=
  agentStep_own_port h hp hrefl fun he => ⟨f p, rfl, hf he⟩

/-- The same for the dispatcher and its micro-step. -/
theorem execEvDispatch_own_port {R : Port → Port → Prop} {p : Port} (h : execEvDispatch q s = .next s')
    (hp : s.ports[q]? = some p) (hrefl : R p p)
    (hk : ∀ y d, dispatchMicro s.params s.draws p = .ok (y, d) → R p y) : ∃ p', s'.ports[q]? = some p' ∧ R p p' := by
  refine agentStep_own_port h hp (fun _ => hrefl) fun _ => ?_
  split
  · exact ⟨p, (set_self_of_getElem? hp).symm, hrefl⟩
  · exact ⟨_, rfl, hk _ _ ‹_›⟩

/-! ## The transmit side of a port -/

/-- What the bytes on their way out are read from: wire, shifter, TX FIFO, frame and TX ring buffer. -/
def txSide (p : Port) : List Byte × Option Byte × List Byte × Frame × RingBuffer :=
  (p.wireOut, p.dev.txsh, p.dev.txf, p.dev.frame, p.tx)

/-- All bytes of a port on their way out, oldest first, as the wire shows them. -/
def txStream (p : Port) : List Byte := txAhead p ++ txBehind p

theorem txStream_congr {p p' : Port} (h : txSide p' = txSide p) : txStream p' = txStream p := by
  simp only [txSide, Prod.mk.injEq] at h
  obtain ⟨hw, hsh, hf, hfr, htx⟩ := h
  simp only [txStream, txAhead, txBehind, hw, hsh, hf, hfr, htx]

@[simp] theorem isrCount_txSide (p : Port) : txSide (isrCount p) = txSide p := rfl
@[simp] theorem isrRxOvf_txSide (P : Params) (st : Word) (p : Port) : txSide (isrRxOvf P st p) = txSide p := by
  unfold isrRxOvf
  split
  · cases P.ovfResetFifo <;> rfl
  · rfl
@[simp] theorem isrCtsChg_txSide (st : Word) (p : Port) : txSide (isrCtsChg st p) = txSide p := by
  unfold isrCtsChg; split <;> rfl
@[simp] theorem isrRxData_txSide (st : Word) (p : Port) : txSide (isrRxData st p) = txSide p := by
  unfold isrRxData; split <;> rfl
@[simp] theorem isrTxSpace_txSide (st : Word) (p : Port) : txSide (isrTxSpace st p) = txSide p := by
  unfold isrTxSpace; split <;> rfl
@[simp] theorem isrSchedule_txSide (st : Word) (p : Port) : txSide (isrSchedule st p) = txSide p := rfl
@[simp] theorem isrAck_txSide (st : Word) (p : Port) : txSide (isrAck st p) = txSide p := rfl

theorem isrRun_txSide (P : Params) (p : Port) : txSide (isrRun P p) = txSide p := by simp [isrRun]

theorem lineRx_txSide (P : Params) (b : Byte) (p : Port) : txSide { p with dev := lineRx P b p.dev } = txSide p := by
  unfold lineRx; split <;> rfl

/-- The shifter takes its byte from the head of the TX FIFO, right behind it (44_line_flow.md R232). -/
theorem lineTxLoad_txStream {p : Port} (he : txLoadEnabled p = true) :
    txStream { p with dev := lineTxLoad p.dev } = txStream p := by
  have hsh : p.dev.txsh = none := by simp_all [txLoadEnabled]
  simp only [txStream, txAhead, txBehind, lineTxLoad, hsh]
  cases p.dev.txf <;> simp

/-- The shifter's byte moves to the end of the wire, right ahead of it (44_line_flow.md R233). -/
theorem lineTxDone_txStream (p : Port) : txStream (lineTxDone p) = txStream p := by
  simp [txStream, txAhead, txBehind, lineTxDone]

/-! ## The dispatcher and the bytes on their way out -/

/-- Get's span and what it leaves not in flight are, in order, what was not in flight (41_ringbuffer.md R137). -/
theorem rbGet_bytes_append (max : Nat) (rb : RingBuffer) :
    (rbGet max rb).2.bytes ++ (rbContents (rbGet max rb).1).drop (rbGet max rb).1.inFlight =
      (rbContents rb).drop rb.inFlight := by
  have hn : (rbGet max rb).1.inFlight = rb.inFlight + (rbGet max rb).2.n := rfl
  rw [rbGet_bytes, rbGet_contents, hn, ← List.drop_drop, List.take_append_drop]

theorem rbConsume_inFlight {len : Nat} {rb rb' : RingBuffer} (e : rbConsume len rb = .ok rb') :
    rb.inFlight = len + rb'.inFlight := by
  unfold rbConsume at e
  split at e; · cases e
  split at e; · cases e
  cases e
  unfold rbEmptyReset
  split <;> simp only <;> omega

/-- Consume removes bytes in flight only (41_ringbuffer.md R138). -/
theorem rbConsume_drop_inFlight {len : Nat} {rb rb' : RingBuffer} (e : rbConsume len rb = .ok rb') :
    (rbContents rb').drop rb'.inFlight = (rbContents rb).drop rb.inFlight := by
  rw [rbConsume_contents e, List.drop_drop, rbConsume_inFlight e]

/-- The bytes RX_FC may send (43_dispatch.md R204), as the wire will show them: one XOFF or XON, under software flow
control. -/
def ControlSent (P : Params) (p : Port) (control : List Byte) : Prop :=
  p.cfg.rxFlowControl = .software ∧
    (control = [P.xoffChar &&& dmask p.dev.frame] ∨ control = [P.xonChar &&& dmask p.dev.frame])

/-- RX_FC puts its control byte behind the TX FIFO and ahead of the TX ring buffer (43_dispatch.md R204). -/
theorem dispatchRxFc_txStream (P : Params) (p : Port) : ∃ control,
    txStream (dispatchRxFc P p) = txAhead p ++ control ++ txBehind p ∧ (control = [] ∨ ControlSent P p control) := by
  unfold dispatchRxFc
  split
  · rename_i hs
    exact ⟨_, by simp [txStream, txAhead, txBehind, writeByte], .inr ⟨(sendsXoff_iff.mp hs).1, .inl rfl⟩⟩
  · split
    · rename_i hs
      exact ⟨_, by simp [txStream, txAhead, txBehind, writeByte], .inr ⟨(sendsXon_iff.mp hs).1, .inr rfl⟩⟩
    · exact ⟨[], by simp [txStream, txAhead, txBehind], .inl rfl⟩

theorem dispatchTxTop_txStream (P : Params) (p : Port) : txStream (dispatchTxTop P p) = txStream p := by
  unfold dispatchTxTop
  split
  · simp only [txStream, txAhead, txBehind, writeBytes_eq]
    rw [← rbGet_bytes_append (P.txFifoCap - txFifoLen p.dev) p.tx]
    simp
  · rfl

theorem dispatchTxConsume_txStream {n : Nat} {p p' : Port} (h : dispatchTxConsume n p = .ok p') :
    txStream p' = txStream p := by
  unfold dispatchTxConsume at h
  split at h
  · cases h
  · rename_i tx e
    cases h
    simp only [txStream, txAhead, txBehind, rbConsume_drop_inFlight e]

theorem readByte_txSide (d : Draws) (p : Port) : txSide { p with dev := (readByte d p.dev).2.2 } = txSide p := by
  unfold readByte; split <;> rfl

theorem dispatchRxMove_txSide {d d' : Draws} {p p' : Port} (h : dispatchRxMove d p = .ok (p', d')) :
    txSide p' = txSide p := by
  simp only [dispatchRxMove] at h
  split at h <;> cases h
  exact readByte_txSide d p

theorem dispatchRxTop_txSide {P : Params} {d d' : Draws} {p p' : Port} (h : dispatchRxTop P d p = .ok (p', d')) :
    txSide p' = txSide p := by
  simp only [dispatchRxTop] at h
  split at h
  · exact dispatchRxMove_txSide h
  · split at h <;> cases h <;> rfl

theorem dispatchLinger_txSide (P : Params) (d : Draws) (p : Port) : txSide (dispatchLinger P d p).1 = txSide p := by
  unfold dispatchLinger
  split
  · rfl
  · simp only
    split <;> rfl

/-- RX_FC alone puts a byte among those on their way out (43_dispatch.md R204). -/
theorem dispatchMicro_txStream {P : Params} {d d' : Draws} {p p' : Port} (hd : p.dphase ≠ .rxFc)
    (h : dispatchMicro P d p = .ok (p', d')) : txStream p' = txStream p := by
  unfold dispatchMicro at h
  split at h
  · -- IDLE
    cases h; rfl
  · -- RX_TOP
    exact txStream_congr (dispatchRxTop_txSide h)
  · -- LINGER
    have e := dispatchLinger_txSide P d p
    rw [Except.ok.inj h] at e
    exact txStream_congr e
  · -- RX_FC
    exact absurd ‹_› hd
  · -- TX_TOP
    cases h; exact dispatchTxTop_txStream P p
  · -- TX_CONSUME
    rename_i n _
    rcases hc : dispatchTxConsume n p with c | x <;> rw [hc] at h <;> cases h
    exact dispatchTxConsume_txStream hc
  · -- BOTTOM
    cases h; rfl

/-- What a micro-step does to the bytes on their way out. -/
theorem dispatchMicro_txStream_control {P : Params} {d d' : Draws} {p p' : Port}
    (h : dispatchMicro P d p = .ok (p', d')) : ∃ control, txStream p' = txAhead p ++ control ++ txBehind p ∧
      (control = [] ∨ p.dphase = .rxFc ∧ ControlSent P p control) := by
  by_cases hd : p.dphase = .rxFc
  · obtain ⟨control, e, hc⟩ := dispatchRxFc_txStream P p
    simp only [dispatchMicro, hd] at h
    cases h
    exact ⟨control, e, hc.imp_right fun hs => ⟨hd, hs⟩⟩
  · exact ⟨[], by simpa [txStream] using dispatchMicro_txStream hd h, .inl rfl⟩

/-! ## Bytes on their way out keep their order -/

/-- No agent's event but the dispatcher's changes the bytes of its port on their way out. -/
theorem exec_event_txStream {i : Instr} {p : Port} (hi : eventSelector i = some q) (hd : i ≠ .evDispatch q)
    (h : exec i s = .next s') (hp : s.ports[q]? = some p) :
    ∃ p', s'.ports[q]? = some p' ∧ txStream p' = txStream p := by
  have own : ∀ {w en} {f : Port → Port}, agentStep w q s en (fun x => s.setPort q (f x)) = .next s' →
      (en p = true → txStream (f p) = txStream p) → ∃ p', s'.ports[q]? = some p' ∧ txStream p' = txStream p :=
    fun h hf => agentStep_setPort_own_port (R := fun x y => txStream y = txStream x) h hp (fun _ => rfl) hf
  obtain rfl | rfl | ⟨b, rfl⟩ | rfl | rfl | ⟨l, rfl⟩ | rfl := eventSelector_cases hi
  · exact own h fun _ => txStream_congr (isrRun_txSide _ p)
  · exact absurd rfl hd
  · exact own h fun _ => txStream_congr (lineRx_txSide _ b p)
  · exact own h lineTxLoad_txStream
  · exact own h fun _ => lineTxDone_txStream p
  · exact own h fun _ => rfl
  · exact own h fun _ => rfl

/-- Settles O54: only RX_FC puts a byte between those ahead and those behind; every other step moves bytes along. -/
theorem txBytesKeepOrder : Obligations.TxBytesKeepOrder := by
  unfold Obligations.TxBytesKeepOrder
  intro s s' i sel q p _ hi h hp _
  by_cases hq : q = sel
  · subst hq
    by_cases hd : i = .evDispatch q
    · subst hd
      obtain ⟨p', hp', control, e, hc⟩ := execEvDispatch_own_port (R := fun x y => ∃ control,
          txStream y = txAhead x ++ control ++ txBehind x ∧
          (control = [] ∨ x.dphase = .rxFc ∧ ControlSent s.params x control))
        h hp ⟨[], by simp [txStream], .inl rfl⟩ fun _ _ hm => dispatchMicro_txStream_control hm
      exact ⟨p', control, hp', e, hc.imp_right fun hs => ⟨rfl, hs⟩⟩
    · obtain ⟨p', hp', e⟩ := exec_event_txStream hi hd h hp
      exact ⟨p', [], hp', by simpa [txStream] using e, .inl rfl⟩
  · exact ⟨p, [], by rw [(exec_event_onlyAgentPort hi h).others q hq, hp], by simp, .inl rfl⟩

/-! ## The dispatcher and the bytes on their way in -/

/-- RX_TOP moves the head of a sound RX FIFO to the end of the RX ring buffer (43_dispatch.md R202). -/
theorem dispatchRxMove_rxStream {d d' : Draws} {p p' : Port} (hl : p.rx.live) (hc : p.dev.rxCorrupt = false)
    (hne : p.dev.rxf ≠ []) (h : dispatchRxMove d p = .ok (p', d')) : rxStream p' = rxStream p := by
  obtain ⟨b, f, hf⟩ := List.exists_cons_of_ne_nil hne
  simp only [dispatchRxMove, readByte_sound hc hf] at h
  split at h
  · cases h
  · rename_i rx e
    cases h
    simp only [rxStream, rbAppend_contents hl e, hf, List.append_assoc, List.singleton_append]

theorem dispatchRxTop_rxStream {P : Params} {d d' : Draws} {p p' : Port} (hl : p.rx.live)
    (hc : p.dev.rxCorrupt = false) (h : dispatchRxTop P d p = .ok (p', d')) : rxStream p' = rxStream p := by
  simp only [dispatchRxTop, rxFifoLen_eq, hc, Bool.false_eq_true, if_false] at h
  split at h
  · rename_i hm
    exact dispatchRxMove_rxStream hl hc (List.ne_nil_of_length_pos hm.2) h
  · split at h <;> cases h <;> rfl

theorem rxStream_congr {p p' : Port} (h : p'.rx = p.rx ∧ p'.dev.rxf = p.dev.rxf) : rxStream p' = rxStream p := by
  simp only [rxStream, h.1, h.2]

theorem dispatchMicro_rxStream {P : Params} {d d' : Draws} {p p' : Port} (hl : p.rx.live)
    (hc : p.dev.rxCorrupt = false) (h : dispatchMicro P d p = .ok (p', d')) : rxStream p' = rxStream p := by
  unfold dispatchMicro at h
  split at h
  · -- IDLE
    cases h; rfl
  · -- RX_TOP
    exact dispatchRxTop_rxStream hl hc h
  · -- LINGER
    obtain ⟨hrx, hdev⟩ := dispatchLinger_frame P d p
    rw [Except.ok.inj h] at hrx hdev
    exact rxStream_congr ⟨hrx, by rw [hdev]⟩
  · -- RX_FC
    cases h; exact rxStream_congr (dispatchRxFc_frame P p)
  · -- TX_TOP
    cases h; exact rxStream_congr (dispatchTxTop_frame P p)
  · -- TX_CONSUME
    rename_i n _
    rcases hx : dispatchTxConsume n p with c | x <;> rw [hx] at h <;> cases h
    obtain ⟨hrx, hdev⟩ := dispatchTxConsume_frame hx
    exact rxStream_congr ⟨hrx, by rw [hdev]⟩
  · -- BOTTOM
    cases h; rfl

/-! ## Bytes on their way in keep their order -/

/-- An arriving byte goes behind the RX FIFO, or is lost at a full one (44_line_flow.md R231). -/
theorem lineRx_rxStream (P : Params) (b : Byte) (p : Port) : rxStream { p with dev := lineRx P b p.dev } =
    rxStream p ++ if p.dev.rxf.length < P.rxFifoCap then [b &&& dmask p.dev.frame] else [] := by
  unfold lineRx
  split <;> simp [rxStream]

/-- What an event brings in on port `q`: the byte of a line event on it, where the RX FIFO has space. -/
def arriving (P : Params) (q : Nat) (p : Port) : Instr → List Byte
  | .evLineRx sel b => if sel = q ∧ p.dev.rxf.length < P.rxFifoCap then [b &&& dmask p.dev.frame] else []
  | _ => []

/-- Nothing arrives on port `q` by another port's event. -/
theorem arriving_other {P : Params} {p : Port} {i : Instr} (hi : eventSelector i = some sel) (hq : q ≠ sel) :
    arriving P q p i = [] := by
  unfold arriving
  split
  · cases hi
    exact if_neg fun h => hq h.1.symm
  · rfl

theorem lineEnabled_up {p : Port} (hu : p.phase ≠ .uninit) : lineEnabled p = true := decide_eq_true hu

/-- What an event other than EV_ISR does to the bytes of its port on their way in. -/
theorem exec_event_rxStream {i : Instr} {p : Port} (hi : eventSelector i = some q) (hd : i ≠ .evIsr q)
    (hl : p.rx.live) (hc : p.dev.rxCorrupt = false) (hu : p.phase ≠ .uninit) (h : exec i s = .next s')
    (hp : s.ports[q]? = some p) :
    ∃ p', s'.ports[q]? = some p' ∧ rxStream p' = rxStream p ++ arriving s.params q p i := by
  have same : ∀ {w en} {f : Port → Port}, agentStep w q s en (fun x => s.setPort q (f x)) = .next s' →
      rxStream (f p) = rxStream p → ∃ p', s'.ports[q]? = some p' ∧ rxStream p' = rxStream p ++ [] :=
    fun h hf => agentStep_setPort_own_port (R := fun x y => rxStream y = rxStream x ++ []) h hp (fun _ => by simp)
      fun _ => by simpa using hf
  obtain rfl | rfl | ⟨b, rfl⟩ | rfl | rfl | ⟨l, rfl⟩ | rfl := eventSelector_cases hi
  · exact absurd rfl hd
  · exact execEvDispatch_own_port (R := fun x y => rxStream y = rxStream x ++ []) h hp (by simp)
      fun _ _ hm => by simpa using dispatchMicro_rxStream hl hc hm
  · refine agentStep_setPort_own_port (R := fun x y => rxStream y = rxStream x ++ arriving s.params q x (.evLineRx q b))
      h hp (fun he => ?_) fun _ => ?_
    · simp [lineEnabled_up hu] at he
    · simp only [lineRx_rxStream, arriving, true_and]
  all_goals exact same h rfl

/-- Settles O55: a micro-step moves bytes from the RX FIFO's head to the ring buffer's end, an arriving byte joins at
the FIFO's end, and no other event touches either. -/
theorem rxBytesKeepOrder : Obligations.RxBytesKeepOrder := by
  unfold Obligations.RxBytesKeepOrder
  intro s s' i sel q p hs hi h hp hu hc hd
  obtain ⟨-, -, -, -, -, hports, -⟩ := hs
  obtain ⟨-, -, ⟨hl, -⟩, -⟩ := Port.up_of_sound (hports p (List.mem_of_getElem? hp)) hu
  suffices ∃ p', s'.ports[q]? = some p' ∧ rxStream p' = rxStream p ++ arriving s.params q p i from this
  by_cases hq : q = sel
  · subst hq
    exact exec_event_rxStream hi hd hl hc hu h hp
  · exact ⟨p, by rw [(exec_event_onlyAgentPort hi h).others q hq, hp], by simp [arriving_other hi hq]⟩

end Sys2Proof.Machine
end

section
/-! PROOFS. The family of 30_encoding.md: the round trips of the encoder and the decoder (R100 to R105, R112), what a
word from the HOST is rejected for (R102, R104, R106, R107), what a turn runs, and the selectors (R101). -/

namespace Sys2Proof

open Sys2Proof.Claims Sys2Proof.Laws

/-! ## From an instruction to its frame and back -/

/-- The frame of a well-formed instruction decodes to it: the family FrameRoundTrip, over every constructor. -/
theorem decodeFrame_encode : ∀ i : Instr, FrameRoundTrip.Statement i
  | .rbInit sel cap => FrameRoundTrip.rbInit sel cap
  | .rbDeinit sel => FrameRoundTrip.rbDeinit sel
  | .rbClear sel => FrameRoundTrip.rbClear sel
  | .rbAppend sel data => FrameRoundTrip.rbAppend sel data
  | .rbAppendOne sel b => FrameRoundTrip.rbAppendOne sel b
  | .rbAt sel index => FrameRoundTrip.rbAt sel index
  | .rbGet sel max => FrameRoundTrip.rbGet sel max
  | .rbConsume sel len => FrameRoundTrip.rbConsume sel len
  | .rbContigTailSpace sel => FrameRoundTrip.rbContigTailSpace sel
  | .rbAdvanceTail sel data => FrameRoundTrip.rbAdvanceTail sel data
  | .uartConfigure sel c => FrameRoundTrip.uartConfigure sel c
  | .uartDeinit sel => FrameRoundTrip.uartDeinit sel
  | .uartSetRxEnabled sel b => FrameRoundTrip.uartSetRxEnabled sel b
  | .uartWrite sel data => FrameRoundTrip.uartWrite sel data
  | .uartRead sel max => FrameRoundTrip.uartRead sel max
  | .uartFlush sel => FrameRoundTrip.uartFlush sel
  | .uartGetStats sel => FrameRoundTrip.uartGetStats sel
  | .evIsr sel => FrameRoundTrip.evIsr sel
  | .evDispatch sel => FrameRoundTrip.evDispatch sel
  | .evLineRx sel b => FrameRoundTrip.evLineRx sel b
  | .evLineTxLoad sel => FrameRoundTrip.evLineTxLoad sel
  | .evLineTxDone sel => FrameRoundTrip.evLineTxDone sel
  | .evCts sel level => FrameRoundTrip.evCts sel level
  | .evRxTimeout sel => FrameRoundTrip.evRxTimeout sel

/-- Settles O1: the decoder on bytes reads the frame, and the frame decodes to its instruction. -/
theorem encodeThenDecode : Obligations.EncodeThenDecode := by
  unfold Obligations.EncodeThenDecode
  intro i hi
  rw [encode, decode_encode_eq, decodeFrame_encode i hi]

/-! ## Must-be-0 bits of IMM (30_encoding.md R103) -/

/-- A number of `k + n` bits whose upper `n` bits are 0 is a number of `k` bits. -/
theorem lt_two_pow_of_and_shiftLeft_eq_zero {k n x : Nat} (hx : x < 2 ^ (k + n))
    (h : x &&& (2 ^ n - 1) <<< k = 0) : x < 2 ^ k := by
  have hlt : x >>> k < 2 ^ n := by
    rw [Nat.shiftRight_eq_div_pow]
    exact Nat.div_lt_of_lt_mul (by rwa [← pow_add])
  have hz : x >>> k = 0 := by
    have := congrArg (· >>> k) h
    simpa [Nat.shiftRight_and_distrib, Nat.shiftLeft_shiftRight, Nat.and_two_pow_sub_one_eq_mod,
      Nat.mod_eq_of_lt hlt] using this
  rw [Nat.shiftRight_eq_div_pow] at hz
  exact (Nat.div_eq_zero_iff_lt (Nat.two_pow_pos k)).mp hz

/-! ## From a frame to its instruction and back -/

/-- Each word of a configuration payload, read and written again, is its four bytes. -/
theorem wordBytes_payloadWord {payload : List Byte} {k : Nat} (h : 4 * k + 4 ≤ payload.length) :
    wordBytes (payloadWord payload k) = (payload.drop (4 * k)).take 4 := by
  rw [payloadWord, wordBytes_wordOfBytes]
  apply List.ext_getElem
  · simp; omega
  · intro j hj _
    simp only [List.length_cons, List.length_nil] at hj
    interval_cases j <;> simp <;> rw [List.getElem?_eq_getElem (by omega), Option.getD_some]

/-- The 24 bytes of a configuration payload come back from its six words. -/
theorem CfgWords.toBytes_ofBytes {payload : List Byte} (h : payload.length = 24) :
    (CfgWords.ofBytes payload).toBytes = payload := by
  have word : ∀ k < 6, wordBytes (payloadWord payload k) = (payload.drop (4 * k)).take 4 :=
    fun k hk => wordBytes_payloadWord (by omega)
  calc (CfgWords.ofBytes payload).toBytes
    _ = payload.take 24 := by simp [CfgWords.toBytes, CfgWords.ofBytes, word, ← List.take_add]
    _ = payload := List.take_of_length_le h.le

/-- A row gives back what it was built from: the instruction it builds from fields that pass its checks is well formed,
and its command word and payload are those fields. -/
def OpRow.RoundTrips (r : OpRow) : Prop :=
  ∀ (sel imm : Nat) (payload : List Byte), sel < 64 → imm < 65536 → imm &&& r.immZero = 0 →
    payload.length = r.payload.length imm →
    (r.build sel imm payload).wellFormed = true ∧ encodeWord (r.build sel imm payload) = commandWord r.op sel imm ∧
    encodePayload (r.build sel imm payload) = payload

namespace OpRow.RoundTrips

/-- A row whose instruction has SEL alone: every bit of IMM must be 0. -/
theorem ofSel {op : Nat} {m : String} (f : Nat → Instr) (hs : ∀ sel, (f sel).wellFormed = selFits sel)
    (hw : ∀ sel, encodeWord (f sel) = commandWord op sel 0) (hp : ∀ sel, encodePayload (f sel) = []) :
    RoundTrips ⟨op, m, 0xFFFF, .none, fun sel _ _ => f sel⟩ := by
  intro sel imm payload hsel himm hz hl
  have h0 : imm < 2 ^ 0 := lt_two_pow_of_and_shiftLeft_eq_zero (n := 16) himm hz
  obtain rfl : imm = 0 := by omega
  exact ⟨by simpa [hs, selFits] using hsel, hw sel, by rw [hp, List.eq_nil_of_length_eq_zero hl]⟩

/-- A row whose instruction has a 16-bit number and no payload. -/
theorem ofImm {op : Nat} {m : String} (f : Nat → Nat → Instr)
    (hs : ∀ sel imm, (f sel imm).wellFormed = (selFits sel && immFits imm))
    (hw : ∀ sel imm, encodeWord (f sel imm) = commandWord op sel imm)
    (hp : ∀ sel imm, encodePayload (f sel imm) = []) :
    RoundTrips ⟨op, m, 0, .none, fun sel imm _ => f sel imm⟩ := by
  intro sel imm payload hsel himm _ hl
  exact ⟨by simp [hs, selFits, immFits, hsel, himm], hw sel imm, by rw [hp, List.eq_nil_of_length_eq_zero hl]⟩

/-- A row whose instruction has a payload of IMM bytes. -/
theorem ofData {op : Nat} {m : String} (f : Nat → List Byte → Instr)
    (hs : ∀ sel data, (f sel data).wellFormed = (selFits sel && immFits data.length))
    (hw : ∀ sel data, encodeWord (f sel data) = commandWord op sel data.length)
    (hp : ∀ sel data, encodePayload (f sel data) = data) :
    RoundTrips ⟨op, m, 0, .immBytes, fun sel _ data => f sel data⟩ := by
  intro sel imm payload hsel himm _ hl
  obtain rfl : payload.length = imm := hl
  exact ⟨by simp [hs, selFits, immFits, hsel, himm], hw sel payload, hp sel payload⟩

/-- A row whose instruction has a byte: the upper half of IMM must be 0. -/
theorem ofByte {op : Nat} {m : String} (f : Nat → Byte → Instr) (hs : ∀ sel b, (f sel b).wellFormed = selFits sel)
    (hw : ∀ sel b, encodeWord (f sel b) = commandWord op sel b.toNat)
    (hp : ∀ sel b, encodePayload (f sel b) = []) :
    RoundTrips ⟨op, m, 0xFF00, .none, fun sel imm _ => f sel (BitVec.ofNat 8 imm)⟩ := by
  intro sel imm payload hsel himm hz hl
  have hb : imm < 2 ^ 8 := lt_two_pow_of_and_shiftLeft_eq_zero (n := 8) himm hz
  exact ⟨by simpa [hs, selFits] using hsel, by simp only [hw, BitVec.toNat_ofNat, Nat.mod_eq_of_lt hb],
    by rw [hp, List.eq_nil_of_length_eq_zero hl]⟩

/-- A row whose instruction has one bit: every bit of IMM but bit 0 must be 0. -/
theorem ofBit {op : Nat} {m : String} (f : Nat → Bool → Instr) (hs : ∀ sel b, (f sel b).wellFormed = selFits sel)
    (hw : ∀ sel b, encodeWord (f sel b) = commandWord op sel b.toNat)
    (hp : ∀ sel b, encodePayload (f sel b) = []) :
    RoundTrips ⟨op, m, 0xFFFE, .none, fun sel imm _ => f sel (imm.testBit 0)⟩ := by
  intro sel imm payload hsel himm hz hl
  have hb : imm < 2 ^ 1 := lt_two_pow_of_and_shiftLeft_eq_zero (n := 15) himm hz
  have ht : (imm.testBit 0).toNat = imm := by rw [Nat.toNat_testBit]; omega
  exact ⟨by simpa [hs, selFits] using hsel, by simp only [hw, ht], by rw [hp, List.eq_nil_of_length_eq_zero hl]⟩

/-- The row of UART_CONFIGURE: its payload is six words. -/
theorem uartConfigure {m : String} :
    RoundTrips ⟨0x10, m, 0xFFFF, .sixWords, fun sel _ p => .uartConfigure sel (CfgWords.ofBytes p)⟩ := by
  intro sel imm payload hsel himm hz hl
  have h0 : imm < 2 ^ 0 := lt_two_pow_of_and_shiftLeft_eq_zero (n := 16) himm hz
  obtain rfl : imm = 0 := by omega
  exact ⟨decide_eq_true hsel, rfl, CfgWords.toBytes_ofBytes hl⟩

theorem of_mem_rbRows : ∀ r ∈ rbRows, r.RoundTrips := by
  simp only [rbRows, List.forall_mem_cons]
  exact ⟨ofImm .rbInit (fun _ _ => rfl) (fun _ _ => rfl) (fun _ _ => rfl),
    ofSel .rbDeinit (fun _ => rfl) (fun _ => rfl) (fun _ => rfl),
    ofSel .rbClear (fun _ => rfl) (fun _ => rfl) (fun _ => rfl),
    ofData .rbAppend (fun _ _ => rfl) (fun _ _ => rfl) (fun _ _ => rfl),
    ofByte .rbAppendOne (fun _ _ => rfl) (fun _ _ => rfl) (fun _ _ => rfl),
    ofImm .rbAt (fun _ _ => rfl) (fun _ _ => rfl) (fun _ _ => rfl),
    ofImm .rbGet (fun _ _ => rfl) (fun _ _ => rfl) (fun _ _ => rfl),
    ofImm .rbConsume (fun _ _ => rfl) (fun _ _ => rfl) (fun _ _ => rfl),
    ofSel .rbContigTailSpace (fun _ => rfl) (fun _ => rfl) (fun _ => rfl),
    ofData .rbAdvanceTail (fun _ _ => rfl) (fun _ _ => rfl) (fun _ _ => rfl), List.forall_mem_nil _⟩

theorem of_mem_uartRows : ∀ r ∈ uartRows, r.RoundTrips := by
  simp only [uartRows, List.forall_mem_cons]
  exact ⟨uartConfigure,
    ofSel .uartDeinit (fun _ => rfl) (fun _ => rfl) (fun _ => rfl),
    ofBit .uartSetRxEnabled (fun _ _ => rfl) (fun _ _ => rfl) (fun _ _ => rfl),
    ofData .uartWrite (fun _ _ => rfl) (fun _ _ => rfl) (fun _ _ => rfl),
    ofImm .uartRead (fun _ _ => rfl) (fun _ _ => rfl) (fun _ _ => rfl),
    ofSel .uartFlush (fun _ => rfl) (fun _ => rfl) (fun _ => rfl),
    ofSel .uartGetStats (fun _ => rfl) (fun _ => rfl) (fun _ => rfl), List.forall_mem_nil _⟩

theorem of_mem_eventRows : ∀ r ∈ eventRows, r.RoundTrips := by
  simp only [eventRows, List.forall_mem_cons]
  exact ⟨ofSel .evIsr (fun _ => rfl) (fun _ => rfl) (fun _ => rfl),
    ofSel .evDispatch (fun _ => rfl) (fun _ => rfl) (fun _ => rfl),
    ofByte .evLineRx (fun _ _ => rfl) (fun _ _ => rfl) (fun _ _ => rfl),
    ofSel .evLineTxLoad (fun _ => rfl) (fun _ => rfl) (fun _ => rfl),
    ofSel .evLineTxDone (fun _ => rfl) (fun _ => rfl) (fun _ => rfl),
    ofBit .evCts (fun _ _ => rfl) (fun _ _ => rfl) (fun _ _ => rfl),
    ofSel .evRxTimeout (fun _ => rfl) (fun _ => rfl) (fun _ => rfl), List.forall_mem_nil _⟩

/-- Every row of the opcode map gives back what it was built from. -/
theorem of_mem_opTable {r : OpRow} (h : r ∈ opTable) : r.RoundTrips := by
  rw [opTable, List.mem_append, List.mem_append] at h
  exact h.elim (·.elim (of_mem_rbRows r) (of_mem_uartRows r)) (of_mem_eventRows r)

end OpRow.RoundTrips

/-- The row found for a word is a row of the opcode map, of the word's OP. -/
theorem mem_of_rowOf {w : Word} {r : OpRow} (h : rowOf w = some r) : r ∈ opTable ∧ r.op = opField w :=
  ⟨List.mem_of_find?_eq_some h, by simpa using List.find?_some h⟩

/-- Everything a frame that decodes has passed (30_encoding.md R112). -/
theorem decodeFrame_ok {w : Word} {payload : List Byte} {i : Instr} (h : decodeFrame w payload = .ok i) :
    ∃ r, rowOf w = some r ∧ subField w = 0 ∧ immField w &&& r.immZero = 0 ∧
      payload.length = r.payload.length (immField w) ∧ r.build (selField w) (immField w) payload = i := by
  unfold decodeFrame at h
  split at h
  · cases h
  · rename_i r hr
    split at h
    · cases h
    · split at h
      · cases h
      · rename_i hz hl
        rw [not_or, not_not, not_not] at hz
        exact ⟨r, hr, hz.1, hz.2, not_not.mp hl, Except.ok.inj h⟩

/-- A frame that decodes is the frame of a well-formed instruction. -/
theorem encode_of_decodeFrame {w : Word} {payload : List Byte} {i : Instr} (h : decodeFrame w payload = .ok i) :
    i.wellFormed = true ∧ encodeWord i = w ∧ encodePayload i = payload := by
  obtain ⟨r, hr, hsub, hz, hl, rfl⟩ := decodeFrame_ok h
  obtain ⟨hmem, hop⟩ := mem_of_rowOf hr
  obtain ⟨hwf, hword, hp⟩ := OpRow.RoundTrips.of_mem_opTable hmem (selField w) (immField w) payload
    (bitField_lt w 20 6) (bitField_lt w 0 16) hz hl
  exact ⟨hwf, by rw [hword, hop, commandWord_fields hsub], hp⟩

/-- Bytes that decode are a command word and its payload. -/
theorem decode_ok {bs : List Byte} {i : Instr} (h : decode bs = .ok i) :
    ∃ w payload, bs = wordBytes w ++ payload ∧ decodeFrame w payload = .ok i := by
  unfold decode at h
  split at h
  · exact ⟨_, _, by rw [wordBytes_wordOfBytes]; rfl, h⟩
  · cases h

/-- Settles O2: every row of the opcode map gives back the fields it was built from, and a word with SUB = 0 is the
word of its fields. -/
theorem decodeThenEncode : Obligations.DecodeThenEncode := by
  unfold Obligations.DecodeThenEncode
  intro bs i h
  obtain ⟨w, payload, rfl, hd⟩ := decode_ok h
  obtain ⟨hwf, hword, hp⟩ := encode_of_decodeFrame hd
  exact ⟨hwf, by rw [encode, hword, hp]⟩

/-! ## The opcode map (30_encoding.md R105) -/

/-- The fields written in place are the word the encoder writes. -/
theorem wordOf_eq_commandWord {op sel imm : Nat} (hsel : sel < 64) (himm : imm < 65536) :
    wordOf op sel imm = commandWord op sel imm := by
  apply BitVec.eq_of_toNat_eq
  rw [wordOf, commandWord_toNat, BitVec.toNat_ofNat]
  omega

/-- An instruction's command word, its fields written in place, decodes with its payload to the instruction. -/
theorem decodeFrame_wordOf {op sel imm : Nat} (hsel : sel < 64) (himm : imm < 65536) (i : Instr)
    (hs : i.wellFormed = selFits sel ∨ i.wellFormed = (selFits sel && immFits imm))
    (hw : encodeWord i = commandWord op sel imm) :
    decodeFrame (wordOf op sel imm) (encodePayload i) = .ok i := by
  have hi : i.wellFormed = true := by obtain hs | hs := hs <;> simp [hs, selFits, immFits, hsel, himm]
  rw [wordOf_eq_commandWord hsel himm, ← hw, decodeFrame_encode i hi]

/-- The codes of the opcode map: the HOST's commands, then the agents' events. -/
theorem opTable_ops : opTable.map (·.op) = hostOps ++ [0x20, 0x21, 0x22, 0x23, 0x24, 0x25, 0x26] := rfl

/-- A word whose OP is outside the map has no row. -/
theorem rowOf_eq_none {w : Word} (h : opField w ∉ opTable.map (·.op)) : rowOf w = none := by
  refine List.find?_eq_none.mpr fun r hr he => h ?_
  rw [← beq_iff_eq.mp he]
  exact List.mem_map_of_mem hr

theorem decodeFrame_of_no_row {w : Word} {payload : List Byte} (h : rowOf w = none) :
    decodeFrame w payload = .error .illegalCommand := by rw [decodeFrame, h]

/-- Settles O3: each word of the map is the command word of its instruction, whose frame decodes to it. -/
theorem opcodeMapDecodes : Obligations.OpcodeMapDecodes := by
  unfold Obligations.OpcodeMapDecodes
  refine ⟨fun sel hsel => ?_, fun w payload hhost hevent => ?_⟩
  · have ofSel {op : Nat} := decodeFrame_wordOf (op := op) hsel (show 0 < 65536 by decide)
    refine ⟨fun n hn => ?_, fun data hd => ?_, fun b => ?_, fun b => ?_, fun c => ?_, ?_⟩
    · have ofImm {op : Nat} := decodeFrame_wordOf (op := op) hsel hn
      exact ⟨ofImm (.rbInit sel n) (.inr rfl) rfl, ofImm (.rbAt sel n) (.inr rfl) rfl,
        ofImm (.rbGet sel n) (.inr rfl) rfl, ofImm (.rbConsume sel n) (.inr rfl) rfl,
        ofImm (.uartRead sel n) (.inr rfl) rfl⟩
    · have ofData {op : Nat} := decodeFrame_wordOf (op := op) hsel hd
      exact ⟨ofData (.rbAppend sel data) (.inr rfl) rfl, ofData (.rbAdvanceTail sel data) (.inr rfl) rfl,
        ofData (.uartWrite sel data) (.inr rfl) rfl⟩
    · have ofByte {op : Nat} := decodeFrame_wordOf (op := op) hsel (show b.toNat < 65536 by omega)
      exact ⟨ofByte (.rbAppendOne sel b) (.inl rfl) rfl, ofByte (.evLineRx sel b) (.inl rfl) rfl⟩
    · have ofBit {op : Nat} := decodeFrame_wordOf (op := op) hsel (show b.toNat < 65536 by cases b <;> decide)
      exact ⟨ofBit (.uartSetRxEnabled sel b) (.inl rfl) rfl, ofBit (.evCts sel b) (.inl rfl) rfl⟩
    · exact ofSel (.uartConfigure sel c) (.inl rfl) rfl
    · exact ⟨ofSel (.rbDeinit sel) (.inl rfl) rfl, ofSel (.rbClear sel) (.inl rfl) rfl,
        ofSel (.rbContigTailSpace sel) (.inl rfl) rfl, ofSel (.uartDeinit sel) (.inl rfl) rfl,
        ofSel (.uartFlush sel) (.inl rfl) rfl, ofSel (.uartGetStats sel) (.inl rfl) rfl,
        ofSel (.evIsr sel) (.inl rfl) rfl, ofSel (.evDispatch sel) (.inl rfl) rfl,
        ofSel (.evLineTxLoad sel) (.inl rfl) rfl, ofSel (.evLineTxDone sel) (.inl rfl) rfl,
        ofSel (.evRxTimeout sel) (.inl rfl) rfl⟩
  · refine decodeFrame_of_no_row (rowOf_eq_none ?_)
    rw [opTable_ops, List.mem_append]
    exact not_or.mpr ⟨hhost, hevent⟩

/-- Settles O4: each sample is the decoder run on its bytes. -/
theorem sampleWordsDecode : Obligations.SampleWordsDecode := by
  unfold Obligations.SampleWordsDecode
  exact ⟨rfl, rfl, rfl, rfl, rfl, rfl⟩

/-! ## What a word from the HOST is rejected for (30_encoding.md R102, R104, R106, R107) -/

/-- A row whose code is below the event codes is one of the HOST's commands. -/
theorem op_mem_hostOps {r : OpRow} (h : r ∈ opTable) (hlt : r.op < firstEventOp) : r.op ∈ hostOps := by
  revert r; decide

/-- The HOST's codes are below the event codes. -/
theorem lt_firstEventOp_of_mem_hostOps {op : Nat} (h : op ∈ hostOps) : op < firstEventOp := by
  revert op; decide

/-- The must-be-0 bits of the table are those of 30_encoding.md R103. -/
theorem immZero_eq_mustBeZero {r : OpRow} (h : r ∈ opTable) (hop : r.op ∈ hostOps) : r.immZero = mustBeZero r.op := by
  revert r; decide

/-- The payloads of the table are those of 30_encoding.md R104. -/
theorem payload_eq {r : OpRow} (h : r ∈ opTable) (hop : r.op ∈ hostOps) : r.payload =
    if r.op ∈ [0x04, 0x0A, 0x13] then .immBytes else if r.op = 0x10 then .sixWords else .none := by
  revert r; decide

/-- The row of a HOST command's word. -/
theorem exists_rowOf {w : Word} (h : opField w ∈ hostOps) : ∃ r, rowOf w = some r := by
  rw [← Option.ne_none_iff_exists']
  intro hn
  have hmem : opField w ∈ opTable.map (·.op) := by rw [opTable_ops]; exact List.mem_append_left _ h
  obtain ⟨r, hr, he⟩ := List.mem_map.mp hmem
  exact List.find?_eq_none.mp hn r hr (beq_iff_eq.mpr he)

theorem payload_length_eq_requiredPayload {w : Word} {r : OpRow} (hr : rowOf w = some r) (h : opField w ∈ hostOps) :
    r.payload.length (immField w) = requiredPayload w := by
  obtain ⟨hmem, hop⟩ := mem_of_rowOf hr
  rw [payload_eq hmem (hop ▸ h), hop, requiredPayload]
  split
  · rfl
  · split <;> rfl

theorem isEventWord_of_mem_hostOps {w : Word} (h : opField w ∈ hostOps) : isEventWord w = false :=
  decide_eq_false (Nat.not_le.mpr (lt_firstEventOp_of_mem_hostOps h))

/-- A word that is illegal from the HOST is rejected as one, whatever its payload. -/
theorem decodeHost_illegal {w : Word} (h : illegalFromHost w) (payload : List Byte) :
    decodeHost w payload = .error .illegalCommand := by
  unfold decodeHost
  split
  · rfl
  · rename_i he
    unfold decodeFrame
    split
    · rfl
    · rename_i r hr
      obtain ⟨hmem, hop⟩ := mem_of_rowOf hr
      have hlt : r.op < firstEventOp := by simpa [isEventWord, hop] using he
      have hhost : r.op ∈ hostOps := op_mem_hostOps hmem hlt
      rw [if_pos]
      rw [immZero_eq_mustBeZero hmem hhost, hop]
      exact h.resolve_left (not_not.mpr (hop ▸ hhost))

/-- A legal word with a payload of a wrong length is rejected for it. -/
theorem decodeHost_payloadLength {w : Word} {payload : List Byte} (h : ¬ illegalFromHost w)
    (hl : payload.length ≠ requiredPayload w) : decodeHost w payload = .error .payloadLength := by
  rw [illegalFromHost, not_or, not_not] at h
  obtain ⟨hhost, hfields⟩ := h
  obtain ⟨r, hr⟩ := exists_rowOf hhost
  obtain ⟨hmem, hop⟩ := mem_of_rowOf hr
  rw [decodeHost, isEventWord_of_mem_hostOps hhost, if_neg Bool.false_ne_true, decodeFrame, hr]
  simp only
  rw [immZero_eq_mustBeZero hmem (hop ▸ hhost), hop, if_neg hfields, payload_length_eq_requiredPayload hr hhost,
    if_pos hl]

end Sys2Proof

namespace Sys2Proof.Machine

open Sys2Proof.Claims

variable {s : State} {c : Command} {q : List Command} {ts : List Turn} {w : Word} {i : Instr} {sel : Nat}

/-! ## The HOST's next command -/

theorem State.popCommand_cons (h : s.hostq = c :: q) : s.popCommand = { s with hostq := q } := by
  simp [State.popCommand, h]

theorem fetchCommand_rejected {r : Reject} (hq : s.hostq = c :: q) (hd : decodeHost c.word c.payload = .error r) :
    fetchCommand s = .done ({ s with hostq := q }.raise (Reject.fault r) c.word) := by
  simp [fetchCommand, hq, hd, State.popCommand_cons hq]

theorem fetchCommand_held (hq : s.hostq = c :: q) (hd : decodeHost c.word c.payload = .ok i)
    (hh : commandHolds i s = true) : fetchCommand s = .done s := by simp [fetchCommand, hq, hd, hh]

theorem fetchCommand_runs (hq : s.hostq = c :: q) (hd : decodeHost c.word c.payload = .ok i)
    (hh : commandHolds i s = false) : fetchCommand s = .run i { s with hostq := q } := by
  simp [fetchCommand, hq, hd, hh, State.popCommand_cons hq]

/-- A step in which the HOST's next command is rejected spends its turn and the command, and faults. -/
theorem step_rejected {r : Reject} (hr : ready s) (hq : s.hostq = c :: q) (ht : s.turns = .host :: ts)
    (hd : decodeHost c.word c.payload = .error r) :
    step s = .next (faulted { s with hostq := q, turns := ts } (Reject.fault r).code c.word) := by
  rw [step_running hr.1, fetch_host_idle ht hr.2, fetchCommand_rejected (s := { s with turns := ts }) hq hd]
  rfl

/-- Settles O5: decoding rejects the word, and the step faults. -/
theorem hostIllegalWordFaults : Obligations.HostIllegalWordFaults := by
  unfold Obligations.HostIllegalWordFaults
  intro s c q ts hr hq ht hi
  exact step_rejected hr hq ht (decodeHost_illegal hi c.payload)

/-- Settles O6: decoding rejects the payload, and the step faults. -/
theorem hostPayloadLengthFaults : Obligations.HostPayloadLengthFaults := by
  unfold Obligations.HostPayloadLengthFaults
  intro s c q ts hr hq ht hi hl
  exact step_rejected hr hq ht (decodeHost_payloadLength hi hl)

/-- Settles O7: the next command is fetched to run or, while it holds, left where it is. -/
theorem stepRunsHostCommand : Obligations.StepRunsHostCommand := by
  unfold Obligations.StepRunsHostCommand
  intro s c q ts i hr hq ht hd
  rw [step_running hr.1, fetch_host_idle ht hr.2]
  exact ⟨fun hh => by rw [fetchCommand_runs (s := { s with turns := ts }) hq hd hh],
    fun hh => by rw [fetchCommand_held (s := { s with turns := ts }) hq hd hh]⟩

/-! ## An agent's turn -/

theorem fetch_event (ht : s.turns = .agent w :: ts) (hd : decodeEvent w = some i) :
    fetch s = .run i { s with turns := ts } := by simp [fetch, ht, hd, State.popTurn_cons ht]

theorem fetch_illegal_event (ht : s.turns = .agent w :: ts) (hd : decodeEvent w = none)
    (he : isEventWord w = true) : fetch s = .done ({ s with turns := ts }.raise .illegalCommand w) := by
  simp [fetch, ht, hd, he, State.popTurn_cons ht]

theorem fetch_no_event (ht : s.turns = .agent w :: ts) (he : isEventWord w = false) : fetch s = .bad w := by
  simp [fetch, ht, decodeEvent, he]

/-- Settles O8: the word of an agent's turn is an event, an illegal event word, or no event's word. -/
theorem stepRunsAgentEvent : Obligations.StepRunsAgentEvent := by
  unfold Obligations.StepRunsAgentEvent
  intro s w ts hr ht
  rw [step_running hr]
  refine ⟨fun i hd => ?_, fun hop hd => ?_, fun hop => ?_⟩
  · rw [fetch_event ht hd]
  · rw [fetch_illegal_event ht hd (decide_eq_true hop)]
    rfl
  · rw [fetch_no_event ht (decide_eq_false (Nat.not_le.mpr hop))]

/-! ## Selectors (30_encoding.md R101) -/

/-- Every RB command is issued on the ring buffer it selects (41_ringbuffer.md R130). -/
theorem exec_rb_onInstance (h : rbSelector i = some sel) :
    ∃ k, exec i s = issue s (onInstance (encodeWord i) sel s k) := by
  cases i <;> cases h <;> exact ⟨_, rfl⟩

/-- Every UART command is issued on the port it selects (42_uart_host.md R170). -/
theorem exec_uart_onPort (h : uartSelector i = some sel) :
    ∃ k, exec i s = issue s (onPort (encodeWord i) sel s k) := by
  cases i <;> cases h <;> exact ⟨_, rfl⟩

/-- Every event is an agent's step on the port it selects (30_encoding.md R107). -/
theorem exec_event_agentStep (h : eventSelector i = some sel) :
    ∃ enabled k, exec i s = agentStep (encodeWord i) sel s enabled k := by
  obtain rfl | rfl | ⟨b, rfl⟩ | rfl | rfl | ⟨l, rfl⟩ | rfl := eventSelector_cases h <;> exact ⟨_, _, rfl⟩

/-- Settles O11: each family of instructions looks its selector up before anything else. -/
theorem selectorOutOfRangeFaults : Obligations.SelectorOutOfRangeFaults := by
  unfold Obligations.SelectorOutOfRangeFaults
  intro s i sel hr
  refine ⟨fun hi hh hsel => ?_, fun hi hh hsel => ?_, fun hi hsel => ?_⟩
  · obtain ⟨k, hk⟩ := exec_rb_onInstance (s := s) hi
    rw [hk, issue_ready hr hh, onInstance_none hsel]
    rfl
  · obtain ⟨k, hk⟩ := exec_uart_onPort (s := s) hi
    rw [hk, issue_ready hr hh, onPort_none hsel]
    rfl
  · obtain ⟨enabled, k, hk⟩ := exec_event_agentStep (s := s) hi
    rw [hk, agentStep_none hr hsel]
    rfl

end Sys2Proof.Machine
end

section
/-! PROOFS. The family of 41_ringbuffer.md: order and integrity over sequences of operations (R165), the ten RB commands
(R130 to R140), the invariant of the block (R160 to R164) and the driver's own calls, which never fault (R167). -/

namespace Sys2Proof.Machine

open Sys2Proof.Claims

variable {s s' t : State} {sel : Nat} {i : Instr} {w : Word} {rb rb' : RingBuffer} {data : List Byte} {len n : Nat}

/-! ## The outcome of each operation (41_ringbuffer.md R134 to R140) -/

/-- What answered ok through a map answered ok before it. -/
theorem ok_of_map_ok {ε α β : Type} {r : Except ε α} {f : α → β} {y : β} (h : r.map f = .ok y) :
    ∃ x, r = .ok x ∧ f x = y := by
  cases r with
  | error c => cases h
  | ok x => exact ⟨x, rfl, Except.ok.inj h⟩

theorem rbAppend_overrun (h : rb.avail < data.length) : rbAppend data rb = .error .rbOverrun := if_pos h

theorem rbAppend_ok (h : data.length ≤ rb.avail) :
    rbAppend data rb = .ok (rbCommit data (resvAfterAppend rb data) rb) := if_neg (by omega)

theorem rbAdvanceTail_noReservation (h : rb.resv = none) : rbAdvanceTail data rb = .error .rbNoReservation := by
  simp [rbAdvanceTail, h]

theorem rbAdvanceTail_overrun (h : rb.resv = some n) (hl : n < data.length) :
    rbAdvanceTail data rb = .error .rbOverrun := by simp [rbAdvanceTail, h, hl]

theorem rbAdvanceTail_ok (h : rb.resv = some n) (hl : data.length ≤ n) :
    rbAdvanceTail data rb = .ok (rbCommit data none rb) := by simp [rbAdvanceTail, h, Nat.not_lt.mpr hl]

theorem rbConsume_underrun (h : rb.used < len) : rbConsume len rb = .error .rbUnderrun := if_pos h

theorem rbConsume_notInFlight (h : len ≤ rb.used) (hf : rb.inFlight < len) :
    rbConsume len rb = .error .rbNotInFlight := by rw [rbConsume, if_neg (by omega), if_pos hf]

/-- Consume within the bytes in flight: what is left, and when the reservation is cancelled (41_ringbuffer.md R138). -/
theorem rbConsume_ok (h : len ≤ rb.used) (hf : len ≤ rb.inFlight) : ∃ rb', rbConsume len rb = .ok rb' ∧
    Removed rb rb' len ∧ rb'.inFlight = rb.inFlight - len ∧
    rb'.resv = if rb.used = len ∧ rb.tail ≠ 0 then none else rb.resv := by
  rw [rbConsume, if_neg (by omega), if_neg (by omega)]
  refine ⟨_, rfl, ?_⟩
  unfold rbEmptyReset
  split <;> rename_i he <;> simp only at he
  · have hlen : rb.used = len := by omega
    exact ⟨⟨rfl, rfl, rfl, rfl, rfl, fun _ => ⟨rfl, rfl⟩, fun hne => absurd he hne⟩, rfl, by simp [hlen]⟩
  · have hlen : rb.used ≠ len := by omega
    exact ⟨⟨rfl, rfl, rfl, rfl, rfl, fun h0 => absurd h0 he, fun _ => ⟨rfl, rfl⟩⟩, rfl, by simp [hlen]⟩

/-- Bytes that fit are committed: each is read back at its index, and no other index changes (41_ringbuffer.md R134,
R140). -/
theorem rbCommit_committed (h : rb.live) (hl : data.length ≤ rb.avail) (resv : Option Nat) :
    Committed rb (rbCommit data resv rb) data resv := by
  obtain ⟨-, -, -, hcap, -, -, -, -, -, -, -, hwf, -⟩ := h
  refine ⟨rfl, fun k b hk => ?_, fun a ha => Memory.read_writeRun_other data hwf ha⟩
  obtain ⟨hlt, rfl⟩ := List.getElem?_eq_some_iff.mp hk
  exact Memory.read_writeRun_at hwf (by omega) hlt

/-- A reservation is never more than the space (41_ringbuffer.md R164). -/
theorem RingBuffer.live.resv_le (h : rb.live) (hn : rb.resv = some n) : n ≤ rb.avail := by
  obtain ⟨-, -, -, -, -, -, -, -, -, hr, -⟩ := h
  simpa [hn] using hr

/-! ## Order and integrity over any sequence of operations (41_ringbuffer.md R165) -/

/-- The bytes taken out and then those held are `base` and then the bytes put in, over a live ring buffer. -/
def Conserves (base : List Byte) (t : RbTrace) : Prop := t.got ++ rbContents t.rb = base ++ t.put ∧ t.rb.live

/-- Bytes put in go behind those held, so they are conserved. -/
theorem Conserves.put {base : List Byte} {t : RbTrace} (h : Conserves base t) (hl : rb'.live)
    (hc : rbContents rb' = rbContents t.rb ++ data) : Conserves base { t with rb := rb', put := t.put ++ data } :=
  ⟨by rw [hc, ← List.append_assoc, h.1, List.append_assoc], hl⟩

/-- Bytes taken out are the first of those held, so they are conserved. -/
theorem Conserves.got {base : List Byte} {t : RbTrace} (h : Conserves base t) (hl : rb'.live)
    (hc : rbContents rb' = (rbContents t.rb).drop len) :
    Conserves base { t with rb := rb', got := t.got ++ (rbContents t.rb).take len } :=
  ⟨by rw [hc, List.append_assoc, List.take_append_drop, h.1], hl⟩

theorem Conserves.op {base : List Byte} {t t' : RbTrace} {o : RbOp} (h : Conserves base t) (e : t.op o = .ok t') :
    Conserves base t' := by
  cases o with
  | append | appendOne =>
    obtain ⟨rb', he, rfl⟩ := ok_of_map_ok e
    exact h.put (rbAppend_live h.2 he) (rbAppend_contents h.2 he)
  | advanceTail =>
    obtain ⟨rb', he, rfl⟩ := ok_of_map_ok e
    exact h.put (rbAdvanceTail_live h.2 he) (rbAdvanceTail_contents h.2 he)
  | consume =>
    obtain ⟨rb', he, rfl⟩ := ok_of_map_ok e
    exact h.got (rbConsume_live h.2 he) (rbConsume_contents he)
  | get =>
    obtain rfl := Except.ok.inj e
    exact ⟨h.1, rbGet_live h.2⟩
  | contigTailSpace =>
    obtain rfl := Except.ok.inj e
    exact ⟨h.1, rbContigTailSpace_live h.2⟩

theorem Conserves.ops {base : List Byte} {t t' : RbTrace} {os : List RbOp} (h : Conserves base t)
    (e : t.ops os = .ok t') : Conserves base t' := by
  induction os generalizing t with
  | nil => obtain rfl := Except.ok.inj e; exact h
  | cons o os ih =>
    rw [RbTrace.ops] at e
    split at e
    · exact ih (h.op ‹_›) e
    · cases e

/-- Settles O22: every operation conserves the bytes, so every sequence does. -/
theorem rbOrderAndIntegrity : Obligations.RbOrderAndIntegrity := by
  unfold Obligations.RbOrderAndIntegrity
  refine ⟨fun rb os t hl e => ?_, fun _ _ _ => rbGet_bytes⟩
  have h0 : Conserves (rbContents rb) { rb := rb, put := [], got := [] } := ⟨by simp, hl⟩
  exact h0.ops e

/-! ## A command on its ring buffer (41_ringbuffer.md R130) -/

theorem exec_onInstance {k : RingBuffer → State} (hi : exec i s = issue s (onInstance (encodeWord i) sel s k))
    (hr : ready s) (hrb : s.srb[sel]? = some rb) : exec i s = .next (k rb) := by
  rw [hi, issue_ready hr.1 hr.2, onInstance_some hrb]

theorem exec_onAllocated {k : RingBuffer → State} (hi : exec i s = issue s (onAllocated (encodeWord i) sel s k))
    (hr : ready s) (hrb : s.srb[sel]? = some rb) (ha : rb.alloc = true) : exec i s = .next (k rb) := by
  rw [hi, issue_ready hr.1 hr.2, onAllocated_some hrb ha]

/-- Every command that runs on an allocated ring buffer has the prologue of 41_ringbuffer.md R130. -/
theorem rbPrologue_of_onAllocated {f : Nat → Instr} {k : Nat → State → RingBuffer → State}
    (hf : ∀ sel s, exec (f sel) s = issue s (onAllocated (encodeWord (f sel)) sel s (k sel s))) : RbPrologue f := by
  intro s sel hr
  refine ⟨fun hsel => ?_, fun rb hrb ha => ?_⟩ <;> rw [hf, issue_ready hr.1 hr.2]
  · rw [onAllocated_none hsel]; rfl
  · rw [onAllocated_unallocated hrb ha]; rfl

/-! ## Bytes put in -/

/-- Settles O15: append faults without space, and else commits its bytes. -/
theorem rbAppendResult : Obligations.RbAppendResult := by
  unfold Obligations.RbAppendResult
  refine ⟨fun data => rbPrologue_of_onAllocated fun _ _ => rfl, fun s sel data rb hr hrb hl => ?_⟩
  rw [exec_onAllocated rfl hr hrb hl.1]
  refine ⟨fun h => ?_, fun h => ⟨_, rbCommit_committed hl h _, ?_⟩⟩
  · rw [rbAppend_overrun h]; rfl
  · rw [rbAppend_ok h]; rfl

/-- Settles O16: append_one is append of one byte. -/
theorem rbAppendOneResult : Obligations.RbAppendOneResult := by
  unfold Obligations.RbAppendOneResult
  refine ⟨fun b => rbPrologue_of_onAllocated fun _ _ => rfl, fun s sel b rb hr hrb hl => ?_⟩
  rw [exec_onAllocated rfl hr hrb hl.1]
  refine ⟨fun h => ?_, fun h => ⟨_, rbCommit_committed (data := [b]) hl h none, ?_⟩⟩
  · rw [rbAppendOne, rbAppend_overrun (by simp [h])]; rfl
  · rw [rbAppendOne, rbAppend_ok (data := [b]) h]; rfl

/-- Settles O21: advance_tail faults without a reservation or beyond it, and else commits its bytes, which fit since
the reservation does. -/
theorem rbAdvanceTailResult : Obligations.RbAdvanceTailResult := by
  unfold Obligations.RbAdvanceTailResult
  refine ⟨fun data => rbPrologue_of_onAllocated fun _ _ => rfl, fun s sel data rb hr hrb hl => ?_⟩
  rw [exec_onAllocated rfl hr hrb hl.1]
  refine ⟨fun hn => ?_, fun n hn h => ?_, fun n hn h => ⟨_, rbCommit_committed hl (h.trans (hl.resv_le hn)) none, ?_⟩⟩
  · rw [rbAdvanceTail_noReservation hn]; rfl
  · rw [rbAdvanceTail_overrun hn h]; rfl
  · rw [rbAdvanceTail_ok hn h]; rfl

/-- Settles O20: the reservation is the length the three cases give. -/
theorem rbContigTailSpaceResult : Obligations.RbContigTailSpaceResult := by
  unfold Obligations.RbContigTailSpaceResult
  refine ⟨rbPrologue_of_onAllocated fun _ _ => rfl, fun s sel n rb hr hrb ha hfull hback hfront => ?_⟩
  have hn : n = rbContigLen rb := by
    unfold rbContigLen
    split
    · exact hfull ‹_›
    · split
      · exact hback ‹_› ‹_›
      · exact hfront ‹_› (by omega)
  subst hn
  rw [exec_onAllocated rfl hr hrb ha]
  rfl

/-! ## Bytes read and taken out -/

/-- Settles O17: below `used` a stored byte, below `cap` a draw, beyond it the fault. -/
theorem rbAtResult : Obligations.RbAtResult := by
  unfold Obligations.RbAtResult
  refine ⟨fun index => rbPrologue_of_onAllocated fun _ _ => rfl, fun s sel index rb hr hrb ha => ?_⟩
  rw [exec_onAllocated rfl hr hrb ha, rbAt]
  refine ⟨fun h => ?_, fun h hc => ?_, fun h hc => ?_⟩
  · rw [if_pos h]; rfl
  · rw [if_neg (by omega), if_pos hc]; rfl
  · rw [if_neg (by omega), if_neg (by omega)]; rfl

/-- A run of reads that stops at the wrap point reads consecutive indices. -/
theorem Memory.readRun_of_le {cap a : Nat} {m : Memory} (h : n ≤ cap - a) :
    Memory.readRun cap m a n = (List.range n).map fun k => Memory.read m (a + k) := by
  refine List.map_congr_left fun k hk => ?_
  have hk : k < n := List.mem_range.mp hk
  rw [Nat.mod_eq_of_lt (by omega)]

/-- Settles O18: the span's length and start are the model's, and the span does not wrap. -/
theorem rbGetResult : Obligations.RbGetResult := by
  unfold Obligations.RbGetResult
  refine ⟨fun max => rbPrologue_of_onAllocated fun _ _ => rfl, ?_⟩
  rintro s sel max rb hr hrb ha _ _ rfl rfl
  rw [exec_onAllocated rfl hr hrb ha, ← Memory.readRun_of_le (cap := rb.cap) (by omega)]
  rfl

/-- Settles O19: consume faults beyond the bytes held or in flight, and else removes its bytes. -/
theorem rbConsumeResult : Obligations.RbConsumeResult := by
  unfold Obligations.RbConsumeResult
  refine ⟨fun len => rbPrologue_of_onAllocated fun _ _ => rfl, fun s sel len rb hr hrb ha => ?_⟩
  rw [exec_onAllocated rfl hr hrb ha]
  refine ⟨fun h => ?_, fun h hf => ?_, fun h hf => ?_⟩
  · rw [rbConsume_underrun h]; rfl
  · rw [rbConsume_notInFlight h hf]; rfl
  · obtain ⟨rb', e, hrem, hfl, hresv⟩ := rbConsume_ok h hf
    exact ⟨rb', hrem, hfl, hresv, by rw [e]; rfl⟩

/-! ## A ring buffer set up, emptied and freed -/

/-- Settles O12: the two faults come before the draw, which decides the rest. -/
theorem rbInitResult : Obligations.RbInitResult := by
  unfold Obligations.RbInitResult
  refine ⟨fun s sel cap hr hsel => ?_, fun s sel cap rb hr hrb => ?_⟩
  · have hi : exec (.rbInit sel cap) s = issue s (onInstance _ sel s _) := rfl
    rw [hi, issue_ready hr.1 hr.2, onInstance_none hsel]
    rfl
  · rw [exec_onInstance rfl hr hrb, rbInit]
    refine ⟨fun ha => ?_, fun ha hc => ?_, fun ha hc hd => ?_, fun ha hc hd => ⟨rbFresh cap, ⟨rfl, fun _ => rfl⟩, ?_⟩⟩
    · rw [if_pos ha]; rfl
    · simp only [ha, hc, if_true, Bool.false_eq_true, if_false]; rfl
    · simp only [ha, hc, hd, Bool.false_eq_true, if_false]
      rw [State.setRb_self (s := { s with draws := s.draws.pop }) hrb]
      rfl
    · simp only [ha, hc, hd, if_true, Bool.false_eq_true, if_false]; rfl

/-- Settles O13: the ring buffer is then unallocated. -/
theorem rbDeinitResult : Obligations.RbDeinitResult := by
  unfold Obligations.RbDeinitResult
  refine ⟨rbPrologue_of_onAllocated fun _ _ => rfl, fun s sel rb hr hrb ha => ⟨rbDeinit rb, rfl, rfl, ?_⟩⟩
  rw [exec_onAllocated rfl hr hrb ha]
  rfl

/-- Settles O14: the registers are those of an empty ring buffer over the same store. -/
theorem rbClearResult : Obligations.RbClearResult := by
  unfold Obligations.RbClearResult
  refine ⟨rbPrologue_of_onAllocated fun _ _ => rfl, fun s sel rb hr hrb ha => ?_⟩
  rw [exec_onAllocated rfl hr hrb ha]
  rfl

/-! ## The invariant under each update of the state (41_ringbuffer.md R160 to R164, 10_state.md R30, R46) -/

variable {p x : Port} {rem : List Byte} {total q : Nat}

theorem State.portUp_iff : s.portUp q = true ↔ ∃ p, s.ports[q]? = some p ∧ p.phase ≠ .uninit := by
  simp [State.portUp, Option.any_eq_true]

theorem State.portUp_setPort (h : s.portUp q = true) (hu : x.phase ≠ .uninit) :
    (s.setPort sel x).portUp q = true := by
  obtain ⟨p, hp, hpu⟩ := State.portUp_iff.mp h
  rw [State.portUp_iff, State.setPort_ports]
  by_cases hq : sel = q
  · subst hq
    obtain ⟨hlt, -⟩ := List.getElem?_eq_some_iff.mp hp
    exact ⟨x, List.getElem?_set_self hlt, hu⟩
  · exact ⟨p, by rw [List.getElem?_set_ne hq, hp], hpu⟩

theorem State.hostSound_idle (hh : s.host = .idle) : s.hostSound = true := by simp [State.hostSound, hh]

theorem State.hostSound_write (hh : s.host = .write q rem total) : s.hostSound = true ↔
    s.portUp q = true ∧ 0 < rem.length ∧ rem.length ≤ total ∧ total < 65536 := by
  simp [State.hostSound, hh, and_assoc]

theorem State.hostSound_flush (hh : s.host = .flush q) : s.hostSound = true ↔ s.portUp q = true := by
  simp [State.hostSound, hh]

/-- The HOST's command stays on a configured port while no port is shut down under it. -/
theorem State.hostSound_setPort (h : s.hostSound = true) (hu : s.host = .idle ∨ x.phase ≠ .uninit) :
    (s.setPort sel x).hostSound = true := by
  cases hh : s.host with
  | idle => exact hostSound_idle hh
  | write q rem total =>
    obtain ⟨hq, hrem⟩ := (hostSound_write hh).mp h
    exact (hostSound_write (s := s.setPort sel x) hh).mpr ⟨portUp_setPort hq (hu.resolve_left (by simp [hh])), hrem⟩
  | flush q =>
    have hq := (hostSound_flush hh).mp h
    exact (hostSound_flush (s := s.setPort sel x) hh).mpr (portUp_setPort hq (hu.resolve_left (by simp [hh])))

theorem State.sound.port (hs : s.sound) (hp : s.ports[sel]? = some p) : p.sound s.params := by
  obtain ⟨-, -, -, -, -, hports, -⟩ := hs
  exact hports p (List.mem_of_getElem? hp)

theorem State.sound.ringBuffer (hs : s.sound) (hrb : s.srb[sel]? = some rb) : rb.sound := by
  obtain ⟨-, -, -, -, hrbs, -⟩ := hs
  exact hrbs rb (List.mem_of_getElem? hrb)

theorem State.sound.hostSound (hs : s.sound) : s.hostSound = true := by
  obtain ⟨-, -, -, -, -, -, hhost, -⟩ := hs
  exact hhost

/-- A sound record may replace a port's, unless it shuts the port down under a command of the HOST. -/
theorem State.sound.setPort (hs : s.sound) (hx : x.sound s.params) (hu : s.host = .idle ∨ x.phase ≠ .uninit) :
    (s.setPort sel x).sound := by
  obtain ⟨hP, h1, h64, hrb64, hrbs, hports, hhost, hstop⟩ := hs
  refine ⟨hP, by simpa using h1, by simpa using h64, hrb64, hrbs, fun y hy => ?_, State.hostSound_setPort hhost hu,
    hstop⟩
  rcases List.mem_or_eq_of_mem_set hy with hy | rfl
  · exact hports y hy
  · exact hx

theorem State.sound.setRb (hs : s.sound) (hrb : rb.sound) : (s.setRb sel rb).sound := by
  obtain ⟨hP, h1, h64, hrb64, hrbs, hports, hhost, hstop⟩ := hs
  refine ⟨hP, h1, h64, by simpa using hrb64, fun y hy => ?_, hports, hhost, hstop⟩
  rcases List.mem_or_eq_of_mem_set hy with hy | rfl
  · exact hrbs y hy
  · exact hrb

theorem State.sound.withHost {hst : HostState} (hs : s.sound)
    (hh : State.hostSound { s with host := hst } = true) : State.sound { s with host := hst } := by
  obtain ⟨hP, h1, h64, hrb64, hrbs, hports, -, hstop⟩ := hs
  exact ⟨hP, h1, h64, hrb64, hrbs, hports, hh, hstop⟩

/-- Every fault code is one of 60_exceptions.md R260. -/
theorem FaultCode.code_range (c : FaultCode) : 1 ≤ c.code.toNat ∧ c.code.toNat ≤ 13 := by cases c <;> decide

theorem State.sound.raise (hs : s.sound) (hr : s.running) (c : FaultCode) (w : Word) : (s.raise c w).sound := by
  obtain ⟨hP, h1, h64, hrb64, hrbs, hports, hhost, -⟩ := hs
  exact ⟨hP, h1, h64, hrb64, hrbs, hports, hhost, fun _ => c.code_range, by simp [hr.2], by simp [hr.2]⟩

theorem State.sound.refuse (hs : s.sound) (hr : s.running) : (s.refuse refTxSwFc).sound := by
  obtain ⟨hP, h1, h64, hrb64, hrbs, hports, hhost, -⟩ := hs
  exact ⟨hP, h1, h64, hrb64, hrbs, hports, hhost, by simp [hr.1], fun _ => rfl, by simp [hr.1]⟩

/-- What the HOST received, its queue, the turns and the draws are no part of the invariant. -/
theorem State.sound.withInputs {d : Draws} {rs : List Result} {cs : List Command} {ts : List Turn} (hs : s.sound) :
    State.sound { s with draws := d, results := rs, hostq := cs, turns := ts } := hs

/-! ## The prologues keep the invariant -/

theorem issue_sound (h : issue s t = .next s') (hs : s.sound) (ht : s.running → s.host = .idle → t.sound) :
    s'.sound := by
  obtain ⟨hr, ⟨hh, rfl⟩ | ⟨-, rfl⟩⟩ := issue_next.mp h
  · exact ht hr hh
  · exact hs

theorem onInstance_sound {k : RingBuffer → State} (hs : s.sound) (hr : s.running) (hk : ∀ rb, rb.sound → (k rb).sound) :
    (onInstance w sel s k).sound := by
  rcases onInstance_cases (w := w) (sel := sel) (s := s) (k := k) with e | ⟨rb, hrb, e⟩ <;> rw [e]
  · exact hs.raise hr _ _
  · exact hk rb (hs.ringBuffer hrb)

/-- An allocated sound ring buffer is live. -/
theorem RingBuffer.live_of_sound (h : rb.sound) (ha : rb.alloc = true) : rb.live := by
  rcases h with rfl | h
  · cases ha
  · exact h

theorem onAllocated_sound {k : RingBuffer → State} (hs : s.sound) (hr : s.running) (hk : ∀ rb, rb.live → (k rb).sound) :
    (onAllocated w sel s k).sound := by
  rcases onAllocated_cases (w := w) (sel := sel) (s := s) (k := k) with ⟨c, e⟩ | ⟨rb, hrb, ha, e⟩ <;> rw [e]
  · exact hs.raise hr _ _
  · exact hk rb (RingBuffer.live_of_sound (hs.ringBuffer hrb) ha)

theorem onPort_sound {k : Port → State} (hs : s.sound) (hr : s.running)
    (hk : ∀ p, s.ports[sel]? = some p → (k p).sound) : (onPort w sel s k).sound := by
  rcases onPort_cases (w := w) (sel := sel) (s := s) (k := k) with e | ⟨p, hp, e⟩ <;> rw [e]
  · exact hs.raise hr _ _
  · exact hk p hp

theorem onConfigured_sound {k : Port → State} (hs : s.sound) (hr : s.running)
    (hk : ∀ p, s.ports[sel]? = some p → p.phase ≠ .uninit → (k p).sound) : (onConfigured w sel s k).sound := by
  rcases onConfigured_cases (w := w) (sel := sel) (s := s) (k := k) with ⟨c, e⟩ | ⟨p, hp, hu, e⟩ <;> rw [e]
  · exact hs.raise hr _ _
  · exact hk p hp hu

/-! ## RB commands keep the invariant (41_ringbuffer.md R160 to R164) -/

/-- An RB command whose operation leaves a live ring buffer sound. -/
theorem issue_finishRb_sound {r : RingBuffer → Except FaultCode (RingBuffer × Result)}
    (h : issue s (onAllocated w sel s fun rb => finishRb w sel s (r rb)) = .next s') (hs : s.sound)
    (hk : ∀ rb rb' res, rb.live → r rb = .ok (rb', res) → rb'.sound) : s'.sound := by
  refine issue_sound h hs fun hr _ => onAllocated_sound hs hr fun rb hl => ?_
  unfold finishRb
  split
  · exact hs.raise hr _ _
  · exact hs.setRb (hk rb _ _ hl ‹_›)

/-- The same for an operation that answers no result of its own. -/
theorem issue_finishRb_map_sound {r : RingBuffer → Except FaultCode RingBuffer} {res : Result}
    (h : issue s (onAllocated w sel s fun rb => finishRb w sel s ((r rb).map fun x => (x, res))) = .next s')
    (hs : s.sound) (hk : ∀ rb rb', rb.live → r rb = .ok rb' → rb'.live) : s'.sound := by
  refine issue_finishRb_sound h hs fun rb rb' _ hl e => ?_
  obtain ⟨_, he, ⟨⟩⟩ := ok_of_map_ok e
  exact .inr (hk rb rb' hl he)

theorem execRbInit_sound {cap : Nat} (h : execRbInit sel cap s = .next s') (hs : s.sound) (hc : cap ≤ Config.capMax) :
    s'.sound := by
  refine issue_sound h hs fun hr _ => onInstance_sound hs hr fun rb hrb => ?_
  split
  · exact hs.raise hr _ _
  · exact State.sound.setRb (s := { s with draws := _ }) hs (rbInit_sound hrb hc ‹_›)

theorem execRbAt_sound {index : Nat} (h : execRbAt sel index s = .next s') (hs : s.sound) : s'.sound := by
  refine issue_sound h hs fun hr _ => onAllocated_sound hs hr fun rb _ => ?_
  split
  · exact hs.raise hr _ _
  · exact hs.withInputs

/-- Every RB command keeps the invariant. -/
theorem exec_rb_sound (hi : rbSelector i = some sel) (hwf : i.wellFormed = true) (h : exec i s = .next s')
    (hs : s.sound) : s'.sound := by
  cases i with
  | rbInit sel cap =>
    simp only [Instr.wellFormed, immFits, Bool.and_eq_true, decide_eq_true_eq] at hwf
    exact execRbInit_sound h hs (Nat.le_of_lt_succ hwf.2)
  | rbAt => exact execRbAt_sound h hs
  | rbDeinit => exact issue_finishRb_sound h hs fun _ _ _ _ e => by cases e; exact .inl rfl
  | rbClear => exact issue_finishRb_sound h hs fun _ _ _ hl e => by cases e; exact .inr (rbClear_live hl)
  | rbGet => exact issue_finishRb_sound h hs fun _ _ _ hl e => by cases e; exact .inr (rbGet_live hl)
  | rbContigTailSpace =>
    exact issue_finishRb_sound h hs fun _ _ _ hl e => by cases e; exact .inr (rbContigTailSpace_live hl)
  | rbAppend | rbAppendOne => exact issue_finishRb_map_sound h hs fun _ _ => rbAppend_live
  | rbConsume => exact issue_finishRb_map_sound h hs fun _ _ => rbConsume_live
  | rbAdvanceTail => exact issue_finishRb_map_sound h hs fun _ _ => rbAdvanceTail_live
  | _ => cases hi

/-! ## Configured ports -/

/-- `x` is what a step that leaves a configured port configured made of its record. -/
def StaysUp (P : Params) (p x : Port) : Prop := x.up P ∧ x.phase = p.phase ∧ x.registered = p.registered

theorem Port.sound_of_up {P : Params} (hu : x.phase ≠ .uninit) (hreg : x.registered = true) (h : x.up P) :
    x.sound P := .inr ⟨hu, hreg, h⟩

theorem State.sound.setPort_staysUp (hs : s.sound) (hp : s.ports[sel]? = some p) (hu : p.phase ≠ .uninit)
    (hx : StaysUp s.params p x) : (s.setPort sel x).sound := by
  obtain ⟨hup, hph, hreg⟩ := hx
  have hxu : x.phase ≠ .uninit := by rw [hph]; exact hu
  exact hs.setPort (Port.sound_of_up hxu (by rw [hreg]; exact (Port.up_of_sound (hs.port hp) hu).1) hup) (.inr hxu)

theorem StaysUp.flags {P : Params} (h : p.up P) (en pend : Bool) :
    StaysUp P p { p with rxEnabled := en, dispatchPending := pend } := ⟨Port.up_flags h en pend p.phase, rfl, rfl⟩

/-! ## The driver's calls in a write, a read and a flush (41_ringbuffer.md R167, 42_uart_host.md R179 to R181) -/

/-- A configured port with its TX buffer replaced by a write step. -/
def Port.written (p : Port) (tx : RingBuffer) : Port :=
  { p with tx := tx, dispatchPending := true, phase := p.phase.started }

/-- Everything a write step does: nothing without space, else the append of bytes that fit, which does not fault; then
the HOST is done, or keeps the rest. -/
theorem writeStep_cases (w : Word) (sel : Nat) (rem : List Byte) (total : Nat) (p : Port) (s : State) :
    writeStep w sel rem total p s = s ∨
    ∃ k tx, 0 < k ∧ rbAppend (rem.take k) p.tx = .ok tx ∧
      (writeStep w sel rem total p s
          = { s.setPort sel (p.written tx) with host := .idle }.ret { Result.ok with v0 := BitVec.ofNat 32 total } ∨
        k < rem.length ∧ writeStep w sel rem total p s
          = { s.setPort sel (p.written tx) with host := .write sel (rem.drop k) total }) := by
  unfold writeStep
  simp only
  split <;> rename_i hk
  · exact .inl rfl
  · have hle : writeStepLen rem p ≤ rem.length ∧ writeStepLen rem p ≤ p.tx.avail := by unfold writeStepLen; omega
    have e := rbAppend_ok (data := rem.take (writeStepLen rem p)) (rb := p.tx) (by simp; omega)
    refine .inr ⟨_, _, Nat.pos_of_ne_zero hk, e, ?_⟩
    simp only [e]
    split
    · exact .inl rfl
    · exact .inr ⟨by omega, rfl⟩

/-- A write step of the HOST's command on a configured port keeps the invariant. -/
theorem writeStep_sound (hs : s.sound) (hp : s.ports[sel]? = some p) (hu : p.phase ≠ .uninit)
    (hh : s.host = .write sel rem total) : (writeStep w sel rem total p s).sound := by
  rcases writeStep_cases w sel rem total p s with e | ⟨k, tx, hk, ha, e⟩
  · rw [e]; exact hs
  obtain ⟨hreg, hup⟩ := Port.up_of_sound (hs.port hp) hu
  have hwu : (p.written tx).phase ≠ .uninit := by simp [Port.written, started_running hu]
  have hset : (s.setPort sel (p.written tx)).sound :=
    hs.setPort (Port.sound_of_up hwu hreg (Port.up_append hup ha)) (.inr hwu)
  rcases e with e | ⟨hlt, e⟩ <;> rw [e]
  · exact hset.withHost (State.hostSound_idle rfl)
  · obtain ⟨hq, -, hle, htot⟩ := (State.hostSound_write (s := s.setPort sel (p.written tx)) hh).mp hset.hostSound
    exact hset.withHost ((State.hostSound_write rfl).mpr ⟨hq, by simp; omega, by simp; omega, htot⟩)

theorem flushStep_sound (hs : s.sound) (hp : s.ports[sel]? = some p) (hu : p.phase ≠ .uninit) :
    (flushStep sel p s).sound := by
  unfold flushStep
  split
  · exact hs.withHost (State.hostSound_idle rfl)
  · exact hs.setPort_staysUp hp hu (.flags (Port.up_of_sound (hs.port hp) hu).2 _ _)

/-- The read of a configured port does not fault, and leaves the port up (42_uart_host.md R180). -/
theorem readSpans_up {P : Params} (h : p.up P) (max : Nat) (pend : List Byte → Bool) :
    ∃ rx out, readSpans p.rx.used max p.rx [] = .ok (rx, out) ∧
      StaysUp P p { p with rx := rx, dispatchPending := pend out } := by
  obtain ⟨hc, ⟨hrx, htx, hrc, htc, hrr, htr, hri, hti, hlg⟩, hd, hx⟩ := h
  obtain ⟨rx, e, hl, hfl, hresv, hcap, -, -⟩ := readSpans_ok (max := max) (out := []) hrx hri hrr le_rfl (Nat.zero_le _)
  exact ⟨rx, _, e, ⟨hc, ⟨hl, htx, hcap.trans hrc, htc, hresv, htr, hfl, hti, hlg⟩, hd, hx⟩, rfl, rfl⟩

/-! ## UART commands keep the invariant -/

theorem configureRun_sound {c : PortCfg} (hs : s.sound) (hh : s.host = .idle) (hd : p.dphase = .idle)
    (hc : cfgValid s.params c) : (configureRun sel c p s).sound := by
  unfold configureRun
  simp only
  split
  · exact State.sound.setPort (s := { s with draws := _ }) hs (configureApply_sound hc hd) (.inl hh)
  · exact State.sound.setPort (s := { s with draws := _ }) hs (portDown_sound hd) (.inl hh)

theorem execUartConfigure_sound {c : CfgWords} (h : execUartConfigure sel c s = .next s') (hs : s.sound) :
    s'.sound := by
  refine issue_sound h hs fun hr hh => onPort_sound hs hr fun p hp => ?_
  split
  · exact hs
  · rename_i hn
    split
    · exact hs.withInputs
    · split
      · exact hs.refuse hr
      · exact configureRun_sound hs hh (Port.idle_of_noHold (hs.port hp) (by simpa using hn))
          (validate_valid ‹_› ‹_›)

theorem execUartDeinit_sound (h : execUartDeinit sel s = .next s') (hs : s.sound) : s'.sound := by
  refine issue_sound h hs fun hr hh => onConfigured_sound hs hr fun p hp _ => ?_
  split
  · exact hs
  · rename_i hn
    exact hs.setPort (portDown_sound (Port.idle_of_noHold (hs.port hp) (by simpa using hn))) (.inl hh)

theorem execUartSetRxEnabled_sound {b : Bool} (h : execUartSetRxEnabled sel b s = .next s') (hs : s.sound) :
    s'.sound := by
  refine issue_sound h hs fun hr hh => onConfigured_sound hs hr fun p hp hu => ?_
  obtain ⟨hreg, hup⟩ := Port.up_of_sound (hs.port hp) hu
  have hxu : p.phase.started ≠ .uninit := by simp [started_running hu]
  exact hs.setPort (Port.sound_of_up hxu hreg (Port.up_flags hup b true _)) (.inl hh)

theorem execUartWrite_sound (h : execUartWrite sel data s = .next s') (hs : s.sound) (hl : data.length < 65536) :
    s'.sound := by
  refine issue_sound h hs fun hr _ => onConfigured_sound hs hr fun p hp hu => ?_
  split
  · exact hs.withInputs
  · have hup : s.portUp sel = true := State.portUp_iff.mpr ⟨p, hp, hu⟩
    exact writeStep_sound (hs.withHost ((State.hostSound_write rfl).mpr ⟨hup, by omega, le_rfl, hl⟩)) hp hu rfl

theorem execUartRead_sound {max : Nat} (h : execUartRead sel max s = .next s') (hs : s.sound) : s'.sound := by
  refine issue_sound h hs fun hr _ => onConfigured_sound hs hr fun p hp hu => ?_
  obtain ⟨rx, out, e, hx⟩ := readSpans_up (Port.up_of_sound (hs.port hp) hu).2 max
    fun out => p.dispatchPending || decide (out.length > 0)
  simp only [e]
  exact hs.setPort_staysUp hp hu hx

theorem execUartFlush_sound (h : execUartFlush sel s = .next s') (hs : s.sound) : s'.sound := by
  refine issue_sound h hs fun hr _ => onConfigured_sound hs hr fun p hp hu => ?_
  exact flushStep_sound (hs.withHost ((State.hostSound_flush rfl).mpr (State.portUp_iff.mpr ⟨p, hp, hu⟩))) hp hu

theorem execUartGetStats_sound (h : execUartGetStats sel s = .next s') (hs : s.sound) : s'.sound :=
  issue_sound h hs fun hr _ => onConfigured_sound hs hr fun _ _ _ => hs.withInputs

/-- Every UART command keeps the invariant. -/
theorem exec_uart_sound (hi : uartSelector i = some sel) (hwf : i.wellFormed = true) (h : exec i s = .next s')
    (hs : s.sound) : s'.sound := by
  cases i with
  | uartConfigure => exact execUartConfigure_sound h hs
  | uartDeinit => exact execUartDeinit_sound h hs
  | uartSetRxEnabled => exact execUartSetRxEnabled_sound h hs
  | uartWrite =>
    simp only [Instr.wellFormed, immFits, Bool.and_eq_true, decide_eq_true_eq] at hwf
    exact execUartWrite_sound h hs hwf.2
  | uartRead => exact execUartRead_sound h hs
  | uartFlush => exact execUartFlush_sound h hs
  | uartGetStats => exact execUartGetStats_sound h hs
  | _ => cases hi

/-! ## Agents keep the invariant, and do not fault (41_ringbuffer.md R167, 43_dispatch.md R209) -/

/-- `t` is `s` but for the draws and the record of port `sel`, which was and stays that of a configured port. -/
def StepsUp (sel : Nat) (s t : State) : Prop :=
  ∃ p x d, s.ports[sel]? = some p ∧ p.phase ≠ .uninit ∧ StaysUp s.params p x ∧
    t = { s with draws := d }.setPort sel x

theorem StepsUp.sound (h : StepsUp sel s t) (hs : s.sound) : t.sound := by
  obtain ⟨p, x, d, hp, hu, hx, rfl⟩ := h
  exact State.sound.setPort_staysUp (s := { s with draws := d }) hs hp hu hx

theorem StepsUp.running (h : StepsUp sel s t) (hr : s.running) : t.running := by
  obtain ⟨p, x, d, -, -, -, rfl⟩ := h
  exact hr

/-- An agent of a port of a sound block does nothing, or what it does while it is enabled. -/
theorem agentStep_stepsUp {en : Port → Bool} {k : Port → State} (hr : s.running) (hp : s.ports[sel]? = some p)
    (hk : en p = true → StepsUp sel s (k p)) :
    ∃ t, agentStep w sel s en k = .next t ∧ (t = s ∨ StepsUp sel s t) := by
  by_cases he : en p = true
  · exact ⟨k p, agentStep_enabled hr hp he, .inr (hk he)⟩
  · exact ⟨s, agentStep_disabled hr hp (by simpa using he), .inl rfl⟩

/-- An agent that only replaces its port's record, of a configured port. -/
theorem agentStep_setPort_stepsUp {en : Port → Bool} {f : Port → Port} (hs : s.sound) (hr : s.running)
    (hp : s.ports[sel]? = some p) (hen : en p = true → p.phase ≠ .uninit)
    (hf : p.up s.params → StaysUp s.params p (f p)) :
    ∃ t, agentStep w sel s en (fun x => s.setPort sel (f x)) = .next t ∧ (t = s ∨ StepsUp sel s t) :=
  agentStep_stepsUp hr hp fun he =>
    ⟨p, f p, s.draws, hp, hen he, hf (Port.up_of_sound (hs.port hp) (hen he)).2, rfl⟩

theorem execEvDispatch_stepsUp (hs : s.sound) (hr : s.running) (hp : s.ports[sel]? = some p) :
    ∃ t, execEvDispatch sel s = .next t ∧ (t = s ∨ StepsUp sel s t) := by
  refine agentStep_stepsUp hr hp fun he => ?_
  have hu : p.phase ≠ .uninit := of_decide_eq_true he
  obtain ⟨x, d, e, hx⟩ := dispatchMicro_up (Port.up_of_sound (hs.port hp) hu).2 s.draws
  simp only [e]
  exact ⟨p, x, d, hp, hu, hx, rfl⟩

theorem phase_of_lineEnabled (h : lineEnabled p = true) : p.phase ≠ .uninit := of_decide_eq_true h

theorem phase_of_isrEnabled (h : isrEnabled p = true) : p.phase ≠ .uninit := by
  simp only [isrEnabled, Bool.and_eq_true, decide_eq_true_eq] at h
  exact h.1.1

theorem lineEnabled_of_txLoadEnabled (h : txLoadEnabled p = true) : lineEnabled p = true := by
  simp only [txLoadEnabled, Bool.and_eq_true] at h
  exact h.1.1.1

theorem lineEnabled_of_txDoneEnabled (h : txDoneEnabled p = true) : lineEnabled p = true :=
  (Bool.and_eq_true_iff.mp h).1

theorem lineEnabled_of_rxTimeoutEnabled (h : rxTimeoutEnabled p = true) : lineEnabled p = true :=
  (Bool.and_eq_true_iff.mp h).1

/-- What an event of a port of a sound block does: nothing, or a step that leaves its port configured. -/
theorem exec_event_stepsUp (hi : eventSelector i = some sel) (hs : s.sound) (hr : s.running)
    (hp : s.ports[sel]? = some p) : ∃ t, exec i s = .next t ∧ (t = s ∨ StepsUp sel s t) := by
  obtain rfl | rfl | ⟨b, rfl⟩ | rfl | rfl | ⟨l, rfl⟩ | rfl := eventSelector_cases hi
  · exact agentStep_setPort_stepsUp hs hr hp phase_of_isrEnabled isrRun_up
  · exact execEvDispatch_stepsUp hs hr hp
  · exact agentStep_setPort_stepsUp hs hr hp phase_of_lineEnabled fun h => ⟨lineRx_up h b, rfl, rfl⟩
  · exact agentStep_setPort_stepsUp hs hr hp (fun he => phase_of_lineEnabled (lineEnabled_of_txLoadEnabled he))
      fun h => ⟨lineTxLoad_up h, rfl, rfl⟩
  · exact agentStep_setPort_stepsUp hs hr hp (fun he => phase_of_lineEnabled (lineEnabled_of_txDoneEnabled he))
      fun h => ⟨lineTxDone_up h, rfl, rfl⟩
  · exact agentStep_setPort_stepsUp hs hr hp phase_of_lineEnabled fun h => ⟨lineCts_up h l, rfl, rfl⟩
  · exact agentStep_setPort_stepsUp hs hr hp (fun he => phase_of_lineEnabled (lineEnabled_of_rxTimeoutEnabled he))
      fun h => ⟨rxTimeout_up h, rfl, rfl⟩

/-- Every event keeps the invariant. -/
theorem exec_event_sound (hi : eventSelector i = some sel) (hr : s.running) (h : exec i s = .next s') (hs : s.sound) :
    s'.sound := by
  cases hp : s.ports[sel]? with
  | none =>
    obtain ⟨enabled, k, hk⟩ := exec_event_agentStep (s := s) hi
    rw [hk, agentStep_none hr (List.getElem?_eq_none_iff.mp hp)] at h
    cases h
    exact hs.raise hr _ _
  | some p =>
    obtain ⟨t, e, ht⟩ := exec_event_stepsUp hi hs hr hp
    rw [e] at h
    cases h
    rcases ht with rfl | ht
    · exact hs
    · exact ht.sound hs

/-! ## The step keeps the invariant -/

theorem exec_sound (hwf : i.wellFormed = true) (hr : s.running) (h : exec i s = .next s') (hs : s.sound) :
    s'.sound := by
  obtain ⟨sel, hi⟩ | ⟨sel, hi⟩ | ⟨sel, hi⟩ := selector_cases i
  · exact exec_rb_sound hi hwf h hs
  · exact exec_uart_sound hi hwf h hs
  · exact exec_event_sound hi hr h hs

/-- The HOST's later step of a command keeps the invariant. -/
theorem hostContinue_sound (hs : s.sound) : (hostContinue s).sound := by
  unfold hostContinue
  split
  · exact hs
  · rename_i q rem total hh
    obtain ⟨hup, -⟩ := (State.hostSound_write hh).mp hs.hostSound
    obtain ⟨p, hp, hu⟩ := State.portUp_iff.mp hup
    simp only [hp]
    exact writeStep_sound hs hp hu hh
  · rename_i q hh
    obtain ⟨p, hp, hu⟩ := State.portUp_iff.mp ((State.hostSound_flush hh).mp hs.hostSound)
    simp only [hp]
    exact flushStep_sound hs hp hu

/-- A command the HOST issues is well formed (30_encoding.md R100, R104). -/
theorem wellFormed_of_decodeHost {w : Word} {payload : List Byte} (h : decodeHost w payload = .ok i) :
    i.wellFormed = true := by
  unfold decodeHost at h
  split at h
  · cases h
  · exact (encode_of_decodeFrame h).1

/-- An event an agent takes is well formed (30_encoding.md R107). -/
theorem wellFormed_of_decodeEvent (h : decodeEvent w = some i) : i.wellFormed = true := by
  unfold decodeEvent at h
  split at h
  · cases hd : decodeFrame w [] with
    | error r => rw [hd] at h; cases h
    | ok j =>
      rw [hd] at h
      cases h
      exact (encode_of_decodeFrame hd).1
  · cases h

/-- Settles O50: whatever a step does, it changes the state by updates that keep the invariant. -/
theorem stepKeepsSound : Obligations.StepKeepsSound := by
  unfold Obligations.StepKeepsSound
  intro s s' hs h
  have hpop : s.popTurn.sound := hs.withInputs
  obtain ⟨hr, ⟨-, rfl⟩ | ⟨-, -, rfl⟩ | ⟨-, -, -, rfl⟩ | ⟨c, r, -, -, -, -, rfl⟩ | ⟨c, i, -, -, -, -, -, rfl⟩ |
    ⟨c, i, -, -, -, hd, -, he⟩ | ⟨w, i, -, hd, he⟩ | ⟨w, -, -, -, rfl⟩⟩ := step_cases h
  · exact hs
  · exact hostContinue_sound hpop
  · exact hpop
  · exact State.sound.raise (s := s.popTurn.popCommand) hs.withInputs hr _ _
  · exact hpop
  · exact exec_sound (s := s.popTurn.popCommand) (wellFormed_of_decodeHost hd) hr he hs.withInputs
  · exact exec_sound (s := s.popTurn) (wellFormed_of_decodeEvent hd) hr he hpop
  · exact hpop.raise hr _ _

/-! ## The driver's calls never fault (41_ringbuffer.md R167) -/

/-- A command whose own step records no fault answers without one, or waits. -/
theorem issue_fault (hr : s.running) (ht : t.fault = s.fault) : ∃ u, issue s t = .next u ∧ u.fault = s.fault := by
  by_cases hh : s.host = .idle
  · exact ⟨t, issue_ready hr hh t, ht⟩
  · exact ⟨s, issue_next.mpr ⟨hr, .inr ⟨hh, rfl⟩⟩, rfl⟩

theorem issue_onConfigured_fault {k : Port → State} (hr : s.running) (hp : s.ports[sel]? = some p)
    (hu : p.phase ≠ .uninit) (hk : (k p).fault = s.fault) :
    ∃ u, issue s (onConfigured w sel s k) = .next u ∧ u.fault = s.fault :=
  issue_fault hr (by rw [onConfigured_some hp hu, hk])

theorem configureRun_fault {c : PortCfg} : (configureRun sel c p s).fault = s.fault := by
  unfold configureRun
  simp only
  split <;> rfl

theorem execUartConfigure_fault {c : CfgWords} (hr : s.running) (hp : s.ports[sel]? = some p) :
    ∃ u, execUartConfigure sel c s = .next u ∧ u.fault = s.fault := by
  refine issue_fault hr ?_
  rw [onPort_some hp]
  split
  · rfl
  · split
    · rfl
    · split
      · rfl
      · exact configureRun_fault

/-- A write step touches neither stop register. -/
theorem writeStep_stops : (writeStep w sel rem total p s).fault = s.fault ∧
    (writeStep w sel rem total p s).refused = s.refused := by
  rcases writeStep_cases w sel rem total p s with e | ⟨k, tx, -, -, e | ⟨-, e⟩⟩ <;> rw [e] <;> exact ⟨rfl, rfl⟩

/-- A flush step touches neither stop register. -/
theorem flushStep_stops : (flushStep sel p s).fault = s.fault ∧ (flushStep sel p s).refused = s.refused := by
  unfold flushStep; split <;> exact ⟨rfl, rfl⟩

/-- No UART command on a configured port of a sound block faults. -/
theorem exec_uart_fault (hi : uartSelector i = some sel) (hs : s.sound) (hr : s.running)
    (hp : s.ports[sel]? = some p) (hu : p.phase ≠ .uninit) : ∃ t, exec i s = .next t ∧ t.fault = s.fault := by
  cases i with
  | uartConfigure => cases hi; exact execUartConfigure_fault hr hp
  | uartDeinit => cases hi; exact issue_onConfigured_fault hr hp hu (by split <;> rfl)
  | uartSetRxEnabled | uartGetStats => cases hi; exact issue_onConfigured_fault hr hp hu rfl
  | uartWrite =>
    cases hi
    refine issue_onConfigured_fault hr hp hu ?_
    split
    · rfl
    · exact writeStep_stops.1
  | uartRead sel max =>
    cases hi
    obtain ⟨rx, out, e, -⟩ := readSpans_up (Port.up_of_sound (hs.port hp) hu).2 max fun _ => true
    exact issue_onConfigured_fault hr hp hu (by simp only [e]; rfl)
  | uartFlush => cases hi; exact issue_onConfigured_fault hr hp hu flushStep_stops.1
  | _ => cases hi

/-- The HOST's later step of a command touches neither stop register. -/
theorem hostContinue_stops : (hostContinue s).fault = s.fault ∧ (hostContinue s).refused = s.refused := by
  unfold hostContinue
  split
  · exact ⟨rfl, rfl⟩
  · split
    · exact ⟨rfl, rfl⟩
    · exact writeStep_stops
  · split
    · exact ⟨rfl, rfl⟩
    · exact flushStep_stops

/-- Settles O53: an event's step, a command's step and a later HOST step each meet their calls' preconditions. -/
theorem driverCallsNeverFault : Obligations.DriverCallsNeverFault := by
  unfold Obligations.DriverCallsNeverFault
  intro s hs hr
  refine ⟨fun i sel hi hsel => ?_, fun i sel hi hup => ?_, ?_⟩
  · obtain ⟨t, e, ht⟩ := exec_event_stepsUp hi hs hr (List.getElem?_eq_getElem hsel)
    refine ⟨t, e, ?_⟩
    rcases ht with rfl | ht
    · exact hr
    · exact ht.running hr
  · obtain ⟨p, hp, hu⟩ := State.portUp_iff.mp hup
    exact exec_uart_fault hi hs hr hp hu
  · obtain ⟨hfault, hrefused⟩ := hostContinue_stops (s := s)
    rw [State.running, hfault, hrefused]
    exact hr

end Sys2Proof.Machine
end

section
/-! PROOFS. The family of 42_uart_host.md: validation (R171), and the seven port commands (R170 to R184). -/

namespace Sys2Proof.Machine

open Sys2Proof.Claims

section

variable {P : Params} {c : CfgWords} {cfg : PortCfg} {n d : Nat}

/-! ## Fields and enumeration codes (30_encoding.md R108, R109) -/

theorem bitField_whole (w : Word) : bitField w 0 32 = w.toNat := by
  have := w.isLt
  rw [bitField_toNat]
  omega

/-- Code 3 is reserved, and every other 2-bit code is that of a parity. -/
theorem Parity.ofCode_cases (hn : n < 4) :
    n = 3 ∧ Parity.ofCode n = none ∨ n ≠ 3 ∧ ∃ x, Parity.ofCode n = some x ∧ parityCode x = n := by
  interval_cases n
  · exact .inr ⟨by decide, .none, rfl, rfl⟩
  · exact .inr ⟨by decide, .even, rfl, rfl⟩
  · exact .inr ⟨by decide, .odd, rfl, rfl⟩
  · exact .inl ⟨rfl, rfl⟩

/-- Code 3 is reserved, and every other 2-bit code is that of a number of stop bits. -/
theorem StopBits.ofCode_cases (hn : n < 4) :
    n = 3 ∧ StopBits.ofCode n = none ∨ n ≠ 3 ∧ ∃ x, StopBits.ofCode n = some x ∧ stopCode x = n := by
  interval_cases n
  · exact .inr ⟨by decide, .one, rfl, rfl⟩
  · exact .inr ⟨by decide, .oneHalf, rfl, rfl⟩
  · exact .inr ⟨by decide, .two, rfl, rfl⟩
  · exact .inl ⟨rfl, rfl⟩

/-- Code 3 is reserved, and every other 2-bit code is that of a flow control. -/
theorem FlowControl.ofCode_cases (hn : n < 4) :
    n = 3 ∧ FlowControl.ofCode n = none ∨ n ≠ 3 ∧ ∃ x, FlowControl.ofCode n = some x ∧ flowCode x = n := by
  interval_cases n
  · exact .inr ⟨by decide, .none, rfl, rfl⟩
  · exact .inr ⟨by decide, .hardware, rfl, rfl⟩
  · exact .inr ⟨by decide, .software, rfl, rfl⟩
  · exact .inl ⟨rfl, rfl⟩

theorem flowCode_ne_zero_iff (x : FlowControl) : flowCode x ≠ 0 ↔ x ≠ .none := by cases x <;> decide

theorem reservedBitSet_iff : reservedBitSet c = true ↔ bitField c.w1 12 20 ≠ 0 ∨ bitField c.w3 16 16 ≠ 0 := by
  simp only [reservedBitSet, Bool.or_eq_true, decide_eq_true_eq]

/-- Check 3 of 42_uart_host.md R171, as a range. -/
theorem notMem_dataBits_iff : n ∉ [5, 6, 7, 8] ↔ n < 5 ∨ n > 8 := by
  simp only [List.mem_cons, List.not_mem_nil, or_false]
  omega

/-! ## Validation runs its checks in order (42_uart_host.md R171) -/

/-- `r` answers the first check of `l` that fails, or, when none does, a record with property `Q`. -/
def AnswersFirst (Q : PortCfg → Prop) (l : List (Nat × Bool)) : Except Nat PortCfg → Prop
  | .error d => ((l.filter fun x => x.2).map fun x => x.1).head? = some d
  | .ok cfg => (l.filter fun x => x.2).map (fun x => x.1) = [] ∧ Q cfg

variable {Q : PortCfg → Prop} {l : List (Nat × Bool)} {r : Except Nat PortCfg} {b : Bool}

theorem AnswersFirst.done (h : Q cfg) : AnswersFirst Q [] (.ok cfg) := ⟨rfl, h⟩

theorem AnswersFirst.fails (hb : b = true) : AnswersFirst Q ((d, b) :: l) (.error d) := by
  simp [AnswersFirst, hb]

theorem AnswersFirst.passes (hb : b = false) (h : AnswersFirst Q l r) : AnswersFirst Q ((d, b) :: l) r := by
  subst hb
  cases r <;> exact h

/-- A check of the table and the branch of Validate that makes it. -/
theorem AnswersFirst.check {φ : Prop} [Decidable φ] (hb : b = true ↔ φ) (h : ¬φ → AnswersFirst Q l r) :
    AnswersFirst Q ((d, b) :: l) (if φ then .error d else r) := by
  by_cases hφ : φ
  · rw [if_pos hφ]
    exact .fails (hb.mpr hφ)
  · rw [if_neg hφ]
    exact .passes (Bool.eq_false_iff.mpr fun h => hφ (hb.mp h)) (h hφ)

/-- Settles O23: each branch of Validate makes the check of its row of the table. -/
theorem validateFirstFailingCheck : Obligations.ValidateFirstFailingCheck := by
  unfold Obligations.ValidateFirstFailingCheck
  intro P c
  suffices AnswersFirst (Holds c) (checks P c) (validate P c) by
    unfold AnswersFirst at this
    exact this
  refine .check (decide_eq_true_iff.trans reservedBitSet_iff.symm) fun _ =>
    .check (by rw [bitField_whole, decide_eq_true_iff]) fun _ =>
    .check (decide_eq_true_iff.trans notMem_dataBits_iff) fun _ => ?_
  obtain ⟨h3, e⟩ | ⟨h3, parity, e, hparity⟩ := Parity.ofCode_cases (bitField_lt c.w1 4 2) <;> simp only [e]
  · exact .fails (decide_eq_true h3)
  refine .passes (decide_eq_false h3) ?_
  obtain ⟨h3, e⟩ | ⟨h3, stop, e, hstop⟩ := StopBits.ofCode_cases (bitField_lt c.w1 6 2) <;> simp only [e]
  · exact .fails (decide_eq_true h3)
  refine .passes (decide_eq_false h3) ?_
  obtain ⟨h3, e⟩ | ⟨h3, rxfc, e, hrxfc⟩ := FlowControl.ofCode_cases (bitField_lt c.w1 8 2) <;> simp only [e]
  · exact .fails (decide_eq_true (.inl h3))
  obtain ⟨h3', e⟩ | ⟨h3', txfc, e, htxfc⟩ := FlowControl.ofCode_cases (bitField_lt c.w1 10 2) <;> simp only [e]
  · exact .fails (decide_eq_true (.inr h3'))
  refine .passes (decide_eq_false (by tauto)) ?_
  refine .check decide_eq_true_iff fun _ => .check ?_ fun _ => .check decide_eq_true_iff fun _ => .done ?_
  · rw [decide_eq_true_iff, ← hrxfc, flowCode_ne_zero_iff]
    rfl
  · exact ⟨bitField_whole _, rfl, hparity, hstop, hrxfc, htxfc, rfl, rfl, rfl, rfl, rfl, rfl, rfl⟩

end

variable {s : State} {sel : Nat} {i : Instr} {w : Word} {p : Port} {rb rb' rx : RingBuffer} {rem : List Byte}
  {total n m : Nat}

/-! ## The read loop (42_uart_host.md R180) -/

/-- A consume that does not fault removes its bytes, which were held (41_ringbuffer.md R138). -/
theorem rbConsume_removed {len : Nat} (e : rbConsume len rb = .ok rb') : len ≤ rb.used ∧ Removed rb rb' len := by
  rcases Nat.lt_or_ge rb.used len with hu | hu
  · rw [rbConsume_underrun hu] at e; cases e
  rcases Nat.lt_or_ge rb.inFlight len with hf | hf
  · rw [rbConsume_notInFlight hu hf] at e; cases e
  obtain ⟨_, e', hrem, -⟩ := rbConsume_ok hu hf
  rw [e] at e'
  cases e'
  exact ⟨hu, hrem⟩

theorem removed_zero (h : rb.live) : Removed rb rb 0 := by
  obtain ⟨-, -, -, -, -, hh, -, -, he, -⟩ := h
  exact ⟨rfl, rfl, rfl, rfl, rfl, he, fun _ => ⟨(Nat.mod_eq_of_lt hh).symm, rfl⟩⟩

/-- Removing twice removes the sum. -/
theorem removed_add (h : Removed rb rb' m) (h' : Removed rb' rx n) : Removed rb rx (m + n) := by
  obtain ⟨ha, hc, hst, hu, hav, -, hne⟩ := h
  obtain ⟨ha', hc', hst', hu', hav', he', hne'⟩ := h'
  refine ⟨ha'.trans ha, hc'.trans hc, hst'.trans hst, by omega, by omega, fun h0 => he' (by omega), fun h0 => ?_⟩
  obtain ⟨hh, ht⟩ := hne (by omega)
  obtain ⟨hh', ht'⟩ := hne' (by omega)
  exact ⟨by rw [hh', hh, hc, Nat.mod_add_mod, Nat.add_assoc], ht'.trans ht⟩

/-- The read loop removes the bytes it hands out. -/
theorem readSpans_removed {fuel max : Nat} {out out' : List Byte} (hl : rb.live)
    (e : readSpans fuel max rb out = .ok (rx, out')) :
    ∃ n, out'.length = out.length + n ∧ Removed rb rx n := by
  induction fuel generalizing rb out with
  | zero =>
    cases e
    exact ⟨0, rfl, removed_zero hl⟩
  | succ fuel ih =>
    rw [readSpans] at e
    split at e
    · split at e
      · cases e
      · rename_i rb' hc
        obtain ⟨n, hlen, hrem⟩ := ih (rbConsume_live (rbGet_live hl) hc) e
        have hspan : Removed rb rb' (rbGet (max - out.length) rb).2.n := (rbConsume_removed hc).2
        refine ⟨_, ?_, removed_add hspan hrem⟩
        rw [hlen, List.length_append, Nat.add_assoc]
        simp [rbGet]
    · cases e
      exact ⟨0, rfl, removed_zero hl⟩

/-! ## A command on its port (42_uart_host.md R170) -/

theorem exec_onPort {k : Port → State} (hi : exec i s = issue s (onPort (encodeWord i) sel s k)) (hr : ready s)
    (hp : s.ports[sel]? = some p) : exec i s = .next (k p) := by
  rw [hi, issue_ready hr.1 hr.2, onPort_some hp]

theorem exec_onConfigured {k : Port → State} (hi : exec i s = issue s (onConfigured (encodeWord i) sel s k))
    (hr : ready s) (hp : s.ports[sel]? = some p) (hu : p.phase ≠ .uninit) : exec i s = .next (k p) := by
  rw [hi, issue_ready hr.1 hr.2, onConfigured_some hp hu]

theorem exec_onConfigured_uninit {k : Port → State} (hi : exec i s = issue s (onConfigured (encodeWord i) sel s k))
    (hr : ready s) (hp : s.ports[sel]? = some p) (hu : p.phase = .uninit) :
    exec i s = .next (faulted s 0x05 (encodeWord i)) := by
  rw [hi, issue_ready hr.1 hr.2, onConfigured_uninit hp hu]
  rfl

/-- Every command that runs on a configured port has the prologue of 42_uart_host.md R170. -/
theorem uartPrologue_of_onConfigured {f : Nat → Instr} {k : Nat → State → Port → State}
    (hf : ∀ sel s, exec (f sel) s = issue s (onConfigured (encodeWord (f sel)) sel s (k sel s))) :
    UartPrologue f := by
  intro s sel hr
  refine ⟨fun hsel => ?_, fun p hp hu => exec_onConfigured_uninit (hf sel s) hr hp hu⟩
  rw [hf, issue_ready hr.1 hr.2, onConfigured_none hsel]
  rfl

/-- Every port command but configure runs on a configured port (42_uart_host.md R170). -/
theorem exec_uart_onConfigured (hi : uartSelector i = some sel) (hc : ∀ c, i ≠ .uartConfigure sel c) (s : State) :
    ∃ k, exec i s = issue s (onConfigured (encodeWord i) sel s k) := by
  cases i with
  | uartConfigure _ c => cases hi; exact absurd rfl (hc c)
  | _ => cases hi <;> exact ⟨_, rfl⟩

/-- Settles O31: the loop of read removes what it hands out, the front of the RX ring buffer up to `max` bytes. -/
theorem uartReadResult : Obligations.UartReadResult := by
  unfold Obligations.UartReadResult
  refine ⟨fun max => uartPrologue_of_onConfigured fun _ _ => rfl, fun s sel max p hr hp hu hl hresv hfl => ?_⟩
  obtain ⟨rx, e, -, hfl', hresv', -⟩ := readSpans_ok (max := max) (out := []) hl hfl hresv le_rfl (Nat.zero_le _)
  simp only [List.nil_append, List.length_nil, Nat.sub_zero] at e
  obtain ⟨n, hn, hrem⟩ := readSpans_removed hl e
  have hlen : ((rbContents p.rx).take max).length = min max p.rx.used := by simp
  obtain rfl : n = min max p.rx.used := by simpa [hlen] using hn.symm
  refine ⟨rx, hrem, hfl', hresv', ?_⟩
  rw [exec_onConfigured rfl hr hp hu]
  simp only [e, hlen]
  rfl

/-! ## The write step (42_uart_host.md R179) -/

theorem writeStep_noSpace (h : p.tx.avail = 0) : writeStep w sel rem total p s = s := by
  simp [writeStep, writeStepLen, h]

/-- A write step with space: the bytes that fit are appended, and the HOST is done or keeps the rest. -/
theorem writeStep_gives (hl : p.tx.live) (hu : p.phase ≠ .uninit) (hne : rem ≠ []) (ha : p.tx.avail ≠ 0) :
    WriteStepGives s (writeStep w sel rem total p s) sel p rem total (min rem.length p.tx.avail) := by
  have hpos : 0 < rem.length := List.length_pos_of_ne_nil hne
  have hlen : (rem.take (min rem.length p.tx.avail)).length = min rem.length p.tx.avail := by simp
  have hfit : (rem.take (min rem.length p.tx.avail)).length ≤ p.tx.avail := by omega
  have hresv : resvAfterAppend p.tx (rem.take (min rem.length p.tx.avail)) = none := if_pos (by omega)
  refine ⟨_, rbCommit_committed hl hfit none, ?_⟩
  have e := rbAppend_ok hfit
  rw [hresv] at e
  simp only [writeStep, writeStepLen, e, started_running hu]
  rw [if_neg (by omega)]
  split <;> rfl

theorem hostContinue_write (hh : s.host = .write sel rem total) (hp : s.ports[sel]? = some p) :
    hostContinue s = writeStep (commandWord 0x13 sel total) sel rem total p s := by simp [hostContinue, hh, hp]

/-- Settles O30: the issue step and every later step of a write are one write step. -/
theorem uartWriteResult : Obligations.UartWriteResult := by
  unfold Obligations.UartWriteResult
  refine ⟨fun data => uartPrologue_of_onConfigured fun _ _ => rfl, fun s sel data p hr hp hu hl => ?_⟩
  have issued : s.host = .idle → data ≠ [] → exec (.uartWrite sel data) s = .next
      (writeStep (encodeWord (.uartWrite sel data)) sel data data.length p
        { s with host := .write sel data data.length }) := by
    intro hh hne
    rw [exec_onConfigured rfl ⟨hr, hh⟩ hp hu, if_neg (by simpa using hne)]
  refine ⟨fun hh hd => ?_, fun hh hne ha => ?_, fun hh hne ha => ⟨_, ?_, issued hh hne⟩,
    fun total hh hne ha => ?_, fun total hh hne ha => ?_⟩
  · rw [exec_onConfigured rfl ⟨hr, hh⟩ hp hu, if_pos (by simp [hd])]
    rfl
  · rw [issued hh hne, writeStep_noSpace ha]
  · exact writeStep_gives (s := { s with host := .write sel data data.length }) hl hu hne ha
  · rw [hostContinue_write hh hp, writeStep_noSpace ha]
  · rw [hostContinue_write hh hp]
    exact writeStep_gives hl hu hne ha

/-! ## Flush, statistics, RX enable (42_uart_host.md R178, R181, R182) -/

theorem flushDone_iff : flushDone p = true ↔ p.tx.used = 0 ∧ p.dev.txf = [] ∧ p.dev.txsh = none := by
  simp [flushDone, transmissionComplete]

theorem hostContinue_flush (hh : s.host = .flush sel) (hp : s.ports[sel]? = some p) :
    hostContinue s = flushStep sel p s := by simp [hostContinue, hh, hp]

theorem flushStep_done (h : flushDone p = true) :
    flushStep sel p s = { s with host := .idle }.ret Result.ok := if_pos h

theorem flushStep_waits (h : ¬flushDone p = true) :
    flushStep sel p s = s.setPort sel { p with dispatchPending := true } := if_neg h

/-- Settles O32: the issue step and every later step of a flush are one flush step. -/
theorem uartFlushResult : Obligations.UartFlushResult := by
  unfold Obligations.UartFlushResult
  refine ⟨uartPrologue_of_onConfigured fun _ _ => rfl, fun s sel p hr hp hu => ?_⟩
  have issued (hh : s.host = .idle) :
      exec (.uartFlush sel) s = .next (flushStep sel p { s with host := .flush sel }) := by
    rw [exec_onConfigured rfl ⟨hr, hh⟩ hp hu]
  refine ⟨fun hh hused htxf htxsh => ?_, fun hh hused htxf htxsh => ?_, fun hleft => ?_⟩
  · rw [issued hh, flushStep_done (flushDone_iff.mpr ⟨hused, htxf, htxsh⟩), ← hh]
    rfl
  · rw [hostContinue_flush hh hp, flushStep_done (flushDone_iff.mpr ⟨hused, htxf, htxsh⟩)]
    rfl
  · have hnot : ¬flushDone p = true := by rw [flushDone_iff]; tauto
    refine ⟨fun hh => ?_, fun hh => ?_⟩
    · rw [issued hh, flushStep_waits hnot]
      rfl
    · rw [hostContinue_flush hh hp, flushStep_waits hnot]
      rfl

/-- Settles O33: the result holds the counters, and nothing else changes. -/
theorem uartGetStatsResult : Obligations.UartGetStatsResult := by
  unfold Obligations.UartGetStatsResult
  refine ⟨uartPrologue_of_onConfigured fun _ _ => rfl, fun s sel p hr hp hu => ?_⟩
  rw [exec_onConfigured rfl hr hp hu]
  rfl

/-- Settles O29: a configured port that is not running starts to run. -/
theorem uartSetRxEnabledResult : Obligations.UartSetRxEnabledResult := by
  unfold Obligations.UartSetRxEnabledResult
  refine ⟨fun b => uartPrologue_of_onConfigured fun _ _ => rfl, fun s sel b p hr hp hu => ?_⟩
  rw [exec_onConfigured rfl hr hp hu, started_running hu]
  rfl

/-! ## The hold for the dispatcher (42_uart_host.md R172, R177) -/

theorem holdsForDispatcher_iff : holdsForDispatcher p = true ↔ p.phase ≠ .uninit ∧ p.dphase ≠ .idle := by
  simp [holdsForDispatcher]

theorem holdsForDispatcher_of_noHold (h : noHold p) : ¬holdsForDispatcher p = true := by
  rw [holdsForDispatcher_iff]; tauto

theorem portDown_shutDown (p : Port) : ShutDown p (portDown p) := ⟨rfl, rfl, rfl, rfl, rfl⟩

/-- Settles O28: deinit holds while the dispatcher is mid-run, and else shuts the port down. -/
theorem uartDeinitResult : Obligations.UartDeinitResult := by
  unfold Obligations.UartDeinitResult
  refine ⟨uartPrologue_of_onConfigured fun _ _ => rfl, fun s sel p hr hp hu => ?_⟩
  rw [exec_onConfigured rfl hr hp hu]
  refine ⟨fun hd => ?_, fun hd => ⟨portDown p, portDown_shutDown p, ?_⟩⟩
  · rw [if_pos (holdsForDispatcher_iff.mpr ⟨hu, hd⟩)]
  · rw [if_neg (holdsForDispatcher_of_noHold (.inr hd))]
    rfl

theorem commandHolds_of_heldPort (hi : heldPort i = some sel) (hp : s.ports[sel]? = some p) :
    commandHolds i s = holdsForDispatcher p := by simp [commandHolds, hi, hp]

/-- A step in which the HOST's next command holds spends its turn, and nothing else changes (log 20). -/
theorem step_held {c : Command} {q : List Command} {ts : List Turn} (hr : ready s) (hq : s.hostq = c :: q)
    (ht : s.turns = .host :: ts) (hd : decodeHost c.word c.payload = .ok i) (hh : commandHolds i s = true) :
    step s = .next { s with turns := ts } := by
  rw [step_running hr.1, fetch_host_idle ht hr.2, fetchCommand_held (s := { s with turns := ts }) hq hd hh]

/-- Settles O27: both commands hold, in their own step and before it. -/
theorem configureAndDeinitWait : Obligations.ConfigureAndDeinitWait := by
  unfold Obligations.ConfigureAndDeinitWait
  intro s sel c p hr hp hu hd
  have hh : holdsForDispatcher p = true := holdsForDispatcher_iff.mpr ⟨hu, hd⟩
  refine ⟨?_, ?_, fun i k q ts hi hq ht hdec => step_held hr hq ht hdec ?_⟩
  · rw [exec_onPort rfl hr hp, if_pos hh]
  · rw [exec_onConfigured rfl hr hp hu, if_pos hh]
  · have hsel : heldPort i = some sel := by rcases hi with rfl | rfl <;> rfl
    rw [commandHolds_of_heldPort hsel hp, hh]

/-! ## Configure (42_uart_host.md R172 to R176) -/

variable {c : CfgWords} {cfg : PortCfg}

theorem execUartConfigure_rejected {d : Nat} (hr : ready s) (hp : s.ports[sel]? = some p) (hn : noHold p)
    (hv : validate s.params c = .error d) : exec (.uartConfigure sel c) s =
      .next (s.ret { Result.ok with status := .errValidation, detail := BitVec.ofNat 8 d }) := by
  rw [exec_onPort rfl hr hp, if_neg (holdsForDispatcher_of_noHold hn)]
  simp only [hv]

theorem execUartConfigure_refused (hr : ready s) (hp : s.ports[sel]? = some p) (hn : noHold p)
    (hv : validate s.params c = .ok cfg) (hs : cfg.txFlowControl = .software) :
    exec (.uartConfigure sel c) s = .next (s.refuse refTxSwFc) := by
  rw [exec_onPort rfl hr hp, if_neg (holdsForDispatcher_of_noHold hn)]
  simp only [hv, if_pos hs]

theorem execUartConfigure_runs (hr : ready s) (hp : s.ports[sel]? = some p) (hn : noHold p)
    (hv : validate s.params c = .ok cfg) (hs : cfg.txFlowControl ≠ .software) :
    exec (.uartConfigure sel c) s = .next (configureRun sel cfg p s) := by
  rw [exec_onPort rfl hr hp, if_neg (holdsForDispatcher_of_noHold hn)]
  simp only [hv, if_neg hs]

/-- Settles O24: the detail of validation is returned, and TX software flow control is refused. -/
theorem configureRejects : Obligations.ConfigureRejects := by
  unfold Obligations.ConfigureRejects
  intro s sel c p hr hp hn
  refine ⟨fun d hv => ?_, fun cfg hv hs => ?_⟩
  · rw [execUartConfigure_rejected hr hp hn hv]; rfl
  · rw [execUartConfigure_refused hr hp hn hv hs]; rfl

theorem configureRun_allocated {d : Draws} (h : configureAlloc s.draws = (true, d)) : configureRun sel cfg p s =
    ({ s with draws := d }.setPort sel (configureApply cfg p)).ret Result.ok := by simp [configureRun, h]

theorem configureRun_allocFailed {d : Draws} (h : configureAlloc s.draws = (false, d)) : configureRun sel cfg p s =
    ({ s with draws := d }.setPort sel (portDown p)).ret { Result.ok with status := .errAlloc } := by
  simp [configureRun, h, configureAllocFailed]

theorem configureAlloc_first_fails {d : Draws} (h : d.bool = false) : configureAlloc d = (false, d.pop) := by
  simp [configureAlloc, h]

theorem configureAlloc_first_succeeds {d : Draws} (h : d.bool = true) :
    configureAlloc d = (d.pop.bool, d.pop.pop) := if_pos h

theorem rbFresh_fresh (cap : Nat) : Fresh (rbFresh cap) cap := ⟨rfl, fun _ => rfl⟩

/-- Settles O25: both allocations succeed, and configure applies the record to the port. -/
theorem configureApplies : Obligations.ConfigureApplies := by
  unfold Obligations.ConfigureApplies
  intro s sel c cfg p hr hp hn hv hs h1 h2
  refine ⟨rbFresh cfg.rxBufSize, rbFresh cfg.txBufSize, rbFresh_fresh _, rbFresh_fresh _, ?_⟩
  rw [execUartConfigure_runs hr hp hn hv hs,
    configureRun_allocated (by rw [configureAlloc_first_succeeds h1, h2])]
  rfl

/-- Settles O26: either failing allocation shuts the port down, and a port that is shut down is not configured. -/
theorem configureAllocationFails : Obligations.ConfigureAllocationFails := by
  unfold Obligations.ConfigureAllocationFails
  intro s sel c cfg p hr hp hn hv hs
  refine ⟨portDown p, portDown_shutDown p, fun t i ht hp' hi hc => ?_, fun h1 => ?_, fun h1 h2 => ?_⟩
  · obtain ⟨k, hk⟩ := exec_uart_onConfigured hi hc t
    exact exec_onConfigured_uninit hk ht hp' rfl
  · rw [execUartConfigure_runs hr hp hn hv hs, configureRun_allocFailed (configureAlloc_first_fails h1)]
    rfl
  · rw [execUartConfigure_runs hr hp hn hv hs,
      configureRun_allocFailed (by rw [configureAlloc_first_succeeds h1, h2])]
    rfl

end Sys2Proof.Machine
end

section
/-! PROOFS. The family of 43_dispatch.md: the micro-steps of the dispatcher (R201 to R207), the events of an agent that
is not enabled (R200), and the owner of each counter (R211). Five statements have the names of the micro-steps they
speak of: the theorems that settle them stand under Dispatcher. -/

namespace Sys2Proof.Machine

open Sys2Proof.Claims

variable {s s' t : State} {sel q n : Nat} {i : Instr} {w : Word} {P : Params} {d d' : Draws} {p p' x : Port} {b : Byte}

/-! ## An agent that is not enabled (43_dispatch.md R200, 60_exceptions.md R269, R282) -/

/-- Every event is an agent's step that is enabled on a configured port only. -/
theorem exec_event_agentStep_configured (h : eventSelector i = some sel) (s : State) :
    ∃ enabled k, exec i s = agentStep (encodeWord i) sel s enabled k ∧ ∀ p, p.phase = .uninit → enabled p = false := by
  have disabled {en : Port → Bool} (hen : ∀ p, en p = true → p.phase ≠ .uninit) (p : Port) (hu : p.phase = .uninit) :
      en p = false := Bool.eq_false_iff.mpr fun he => hen p he hu
  obtain rfl | rfl | ⟨b, rfl⟩ | rfl | rfl | ⟨l, rfl⟩ | rfl := eventSelector_cases h
  · exact ⟨_, _, rfl, disabled fun _ => phase_of_isrEnabled⟩
  · exact ⟨_, _, rfl, disabled fun _ => of_decide_eq_true⟩
  · exact ⟨_, _, rfl, disabled fun _ => phase_of_lineEnabled⟩
  · exact ⟨_, _, rfl, disabled fun _ he => phase_of_lineEnabled (lineEnabled_of_txLoadEnabled he)⟩
  · exact ⟨_, _, rfl, disabled fun _ he => phase_of_lineEnabled (lineEnabled_of_txDoneEnabled he)⟩
  · exact ⟨_, _, rfl, disabled fun _ => phase_of_lineEnabled⟩
  · exact ⟨_, _, rfl, disabled fun _ he => phase_of_lineEnabled (lineEnabled_of_rxTimeoutEnabled he)⟩

theorem isrEnabled_no_cause (h : maskedStatus p = 0) : isrEnabled p = false := by simp [isrEnabled, h]

/-- Settles O34: no event is enabled on an UNINIT port, nor EV_ISR without a cause. -/
theorem disabledAgentDoesNotStep : Obligations.DisabledAgentDoesNotStep := by
  unfold Obligations.DisabledAgentDoesNotStep
  intro s sel p hr hp
  refine ⟨fun i hi hu => ?_, fun hm => agentStep_disabled hr hp (isrEnabled_no_cause hm)⟩
  obtain ⟨enabled, k, hk, hen⟩ := exec_event_agentStep_configured hi s
  rw [hk, agentStep_disabled hr hp (hen p hu)]

/-! ## A micro-step of the dispatcher (43_dispatch.md R200) -/

/-- EV_DISPATCH of a configured port replaces its record and the draws by what its micro-step answers. -/
theorem exec_evDispatch_ok (hr : s.running) (hp : s.ports[sel]? = some p) (hu : p.phase ≠ .uninit)
    (hm : dispatchMicro s.params s.draws p = .ok (x, d)) :
    exec (.evDispatch sel) s = .next (withPort { s with draws := d } sel x) := by
  refine (agentStep_enabled hr hp (decide_eq_true hu)).trans ?_
  simp only [hm]
  rfl

theorem dispatchMicro_idle (h : p.dphase = .idle) : dispatchMicro P d p = .ok (dispatchIdle p, d) := by
  simp [dispatchMicro, h]

theorem dispatchMicro_rxTop (h : p.dphase = .rxTop) : dispatchMicro P d p = dispatchRxTop P d p := by
  simp [dispatchMicro, h]

theorem dispatchMicro_linger (h : p.dphase = .linger) : dispatchMicro P d p = .ok (dispatchLinger P d p) := by
  simp [dispatchMicro, h]

theorem dispatchMicro_rxFc (h : p.dphase = .rxFc) : dispatchMicro P d p = .ok (dispatchRxFc P p, d) := by
  simp [dispatchMicro, h]

theorem dispatchMicro_txTop (h : p.dphase = .txTop) : dispatchMicro P d p = .ok (dispatchTxTop P p, d) := by
  simp [dispatchMicro, h]

theorem dispatchMicro_txConsume (h : p.dphase = .txConsume n) :
    dispatchMicro P d p = (dispatchTxConsume n p).map fun p' => (p', d) := by simp [dispatchMicro, h]

theorem dispatchMicro_bottom (h : p.dphase = .bottom) : dispatchMicro P d p = .ok (dispatchBottom p, d) := by
  simp [dispatchMicro, h]

/-- Settles O36: the micro-step of IDLE is the start of a run. -/
theorem dispatchIdleStartsRun : Obligations.DispatchIdleStartsRun := by
  unfold Obligations.DispatchIdleStartsRun
  intro s sel p hr hp hu hd
  exact exec_evDispatch_ok hr hp hu (dispatchMicro_idle hd)

/-! ## RX_TOP (43_dispatch.md R202) -/

theorem canReceive_iff : canReceive p = true ↔ p.rxEnabled = true ∧ 0 < p.rx.avail := by simp [canReceive]

/-- What read_byte answers where a byte is there: the FIFO's head, or a draw while it is corrupt; the head leaves the
FIFO either way (10_state.md R45). -/
theorem readByte_pops {v : Device} (h : v.rxCorrupt = true ∨ v.rxf ≠ []) :
    ∃ b d', readByte d v = (b, d', { v with rxf := v.rxf.tail }) ∧
      (v.rxCorrupt = false → v.rxf.head? = some b ∧ d' = d) ∧
      (v.rxCorrupt = true → b = d.byte ∧ d' = d.pop) := by
  by_cases hc : v.rxCorrupt = true
  · exact ⟨_, _, readByte_corrupt hc, by simp [hc], fun _ => ⟨rfl, rfl⟩⟩
  · obtain ⟨b, f, hf⟩ := List.exists_cons_of_ne_nil (h.resolve_left hc)
    exact ⟨b, d, by rw [readByte_sound (by simpa using hc) hf, hf]; rfl, fun _ => ⟨by rw [hf]; rfl, rfl⟩,
      fun h => absurd h hc⟩

/-- With space in the ring buffer the byte read is committed and counted. -/
theorem dispatchRxMove_ok {v : Device} (hav : 0 < p.rx.avail) (hb : readByte d p.dev = (b, d', v)) :
    dispatchRxMove d p = .ok ({ p with
      rx := rbCommit [b] none p.rx, dev := v, stats := { p.stats with rxBytes := p.stats.rxBytes + 1 } }, d') := by
  have e : rbAppendOne b p.rx = .ok (rbCommit [b] none p.rx) := rbAppend_ok (data := [b]) hav
  simp only [dispatchRxMove, hb, e]
  rfl

/-- The three ways out of RX_TOP, over the FIFO length and the draws that reading it leaves. -/
theorem dispatchRxTop_eq : dispatchRxTop P d p =
    if canReceive p = true ∧ 0 < (rxFifoLen P d p.dev).1 then dispatchRxMove (rxFifoLen P d p.dev).2 p
    else if canReceive p = true ∧ 0 < p.cfg.rxLingerMicros then
      .ok ({ p with dphase := .linger }, (rxFifoLen P d p.dev).2)
    else .ok ({ p with dphase := .rxFc }, (rxFifoLen P d p.dev).2) := rfl

/-- Settles O37: RX_TOP moves a byte when it can receive one; a byte it can read is there, since the length it read is
that of a sound FIFO or the FIFO is corrupt. -/
theorem Dispatcher.dispatchRxTop : Obligations.DispatchRxTop := by
  unfold Obligations.DispatchRxTop
  intro s sel p n d hr hp hu hd hl hn hdraws
  have hlen : rxFifoLen s.params s.draws p.dev = (n, d) := by rw [rxFifoLen_eq, hn, hdraws]
  have hm := dispatchMicro_rxTop (P := s.params) (d := s.draws) hd
  rw [dispatchRxTop_eq, hlen] at hm
  simp only [canReceive_iff] at hm
  refine ⟨fun hen hav hpos => ?_, fun hen hav h0 hlin => ?_, fun hout => ?_⟩
  · have hbyte : p.dev.rxCorrupt = true ∨ p.dev.rxf ≠ [] := by
      cases hc : p.dev.rxCorrupt with
      | true => exact .inl rfl
      | false =>
        rw [hn, hc] at hpos
        exact .inr (List.ne_nil_of_length_pos hpos)
    obtain ⟨b, d', hread, hsound, hcorrupt⟩ := readByte_pops (d := d) hbyte
    rw [if_pos ⟨⟨hen, hav⟩, hpos⟩, dispatchRxMove_ok hav hread] at hm
    exact ⟨_, b, d', rbCommit_committed (data := [b]) hl hav none, hsound, hcorrupt, exec_evDispatch_ok hr hp hu hm⟩
  · rw [if_neg (by omega), if_pos ⟨⟨hen, hav⟩, hlin⟩] at hm
    exact exec_evDispatch_ok hr hp hu hm
  · have hstay : ¬((p.rxEnabled = true ∧ 0 < p.rx.avail) ∧ 0 < n) ∧
        ¬((p.rxEnabled = true ∧ 0 < p.rx.avail) ∧ 0 < p.cfg.rxLingerMicros) := by
      rcases hout with he | ha | ⟨h0, hlin⟩
      · simp [he]
      · simp [ha]
      · omega
    obtain ⟨hmove, hlinger⟩ := hstay
    rw [if_neg hmove, if_neg hlinger] at hm
    exact exec_evDispatch_ok hr hp hu hm

/-! ## LINGER (43_dispatch.md R203) -/

theorem dispatchLinger_expired (h : d.bool = true) :
    dispatchLinger P d p = ({ p with dphase := .rxFc }, d.pop) := if_pos h

theorem dispatchLinger_polls (h : d.bool = false) (hlen : rxFifoLen P d.pop p.dev = (n, d')) :
    dispatchLinger P d p = if 0 < n then (dispatchLingerResume p, d') else (p, d') := by
  simp [dispatchLinger, h, hlen]

/-- Settles O38: the budget's draw, then the FIFO length, decide. -/
theorem Dispatcher.dispatchLinger : Obligations.DispatchLinger := by
  unfold Obligations.DispatchLinger
  intro s sel p n d hr hp hu hd hn hdraws
  have hlen : rxFifoLen s.params s.draws.pop p.dev = (n, d) := by rw [rxFifoLen_eq, hn, hdraws]
  have hm := dispatchMicro_linger (P := s.params) (d := s.draws) hd
  refine ⟨fun hb => ?_, fun hb hpos => ?_, fun hb h0 => ?_⟩
  · rw [dispatchLinger_expired hb] at hm
    exact exec_evDispatch_ok hr hp hu hm
  · rw [dispatchLinger_polls hb hlen, if_pos hpos] at hm
    exact exec_evDispatch_ok hr hp hu hm
  · rw [dispatchLinger_polls hb hlen, if_neg (by omega)] at hm
    rw [exec_evDispatch_ok hr hp hu hm]
    exact congrArg _ (State.setPort_self (s := { s with draws := d }) hp)

/-! ## RX_FC (43_dispatch.md R204) -/

theorem dispatchRxFc_xoff (h : sendsXoff P p = true) : dispatchRxFc P p =
    { p with dev := writeByte p.dev P.xoffChar, xoffSent := true, dphase := .txTop } := if_pos h

theorem dispatchRxFc_xon (hoff : ¬sendsXoff P p = true) (h : sendsXon P p = true) : dispatchRxFc P p =
    { p with dev := writeByte p.dev P.xonChar, xoffSent := false, dphase := .txTop } := by
  rw [dispatchRxFc, if_neg hoff, if_pos h]

theorem dispatchRxFc_none (hoff : ¬sendsXoff P p = true) (h : ¬sendsXon P p = true) :
    dispatchRxFc P p = { p with dphase := .txTop } := by rw [dispatchRxFc, if_neg hoff, if_neg h]

/-- Settles O39: the flag says which of the two control bytes may be due. -/
theorem Dispatcher.dispatchRxFc : Obligations.DispatchRxFc := by
  unfold Obligations.DispatchRxFc
  rintro s sel p _ hr hp hu hd rfl
  have hm := dispatchMicro_rxFc (P := s.params) (d := s.draws) hd
  simp only [decide_eq_true_eq, decide_eq_false_iff_not]
  refine ⟨fun hsw hsent hfull hspace => ?_, fun hsw hsent hlow hspace => ?_, fun hnone => ?_⟩
  · rw [dispatchRxFc_xoff (sendsXoff_iff.mpr ⟨hsw, hsent, hfull, hspace⟩)] at hm
    exact exec_evDispatch_ok hr hp hu hm
  · rw [dispatchRxFc_xon (by simp [sendsXoff_iff, hsent]) (sendsXon_iff.mpr ⟨hsw, hsent, hlow, hspace⟩)] at hm
    exact exec_evDispatch_ok hr hp hu hm
  · have hoff : ¬sendsXoff s.params p = true := by
      rw [sendsXoff_iff]
      rintro ⟨hsw, hsent, hfull, hspace⟩
      rcases hnone with h | h | ⟨-, h⟩ | ⟨h, -⟩
      · exact h hsw
      · exact h hspace
      · omega
      · simp [hsent] at h
    have hon : ¬sendsXon s.params p = true := by
      rw [sendsXon_iff]
      rintro ⟨hsw, hsent, hlow, hspace⟩
      rcases hnone with h | h | ⟨h, -⟩ | ⟨-, h⟩
      · exact h hsw
      · exact h hspace
      · simp [hsent] at h
      · omega
    rw [dispatchRxFc_none hoff hon] at hm
    exact exec_evDispatch_ok hr hp hu hm

/-! ## TX_TOP and TX_CONSUME (43_dispatch.md R205, R206) -/

/-- The span get gives, up to the TX FIFO's space, is copied behind the TX FIFO and becomes in flight. -/
theorem dispatchTxTop_copies (hused : 0 < p.tx.used) (hspace : p.dev.txf.length < P.txFifoCap)
    (hn : n = rbGetLen (P.txFifoCap - p.dev.txf.length) p.tx) : dispatchTxTop P p = { p with
      tx := { p.tx with inFlight := p.tx.inFlight + n }
      dev := { p.dev with txf := p.dev.txf ++
        (List.range n).map fun k => Memory.read p.tx.store (rbGetStart p.tx + k) }
      dphase := .txConsume n } := by
  obtain ⟨-, -, hwrap⟩ := rbGetLen_le (rb := p.tx) (max := P.txFifoCap - p.dev.txf.length)
  subst hn
  rw [dispatchTxTop, if_pos ⟨hused, Nat.sub_pos_of_lt hspace⟩, ← Memory.readRun_of_le hwrap]
  simp only [writeBytes_eq]
  rfl

theorem dispatchTxTop_done (h : p.tx.used = 0 ∨ P.txFifoCap ≤ p.dev.txf.length) :
    dispatchTxTop P p = { p with dphase := .bottom } := if_neg (by simp only [txFifoLen]; omega)

/-- Settles O40: the span is that of get, which does not wrap. -/
theorem Dispatcher.dispatchTxTop : Obligations.DispatchTxTop := by
  unfold Obligations.DispatchTxTop
  rintro s sel p _ n hr hp hu hd rfl hn
  have hm := dispatchMicro_txTop (P := s.params) (d := s.draws) hd
  refine ⟨fun hused hspace => ?_, fun hdone => ?_⟩
  · rw [dispatchTxTop_copies hused hspace hn] at hm
    exact exec_evDispatch_ok hr hp hu hm
  · rw [dispatchTxTop_done hdone] at hm
    exact exec_evDispatch_ok hr hp hu hm

theorem dispatchTxConsume_ok {tx : RingBuffer} (h : rbConsume n p.tx = .ok tx) : dispatchTxConsume n p = .ok { p with
    tx := tx, stats := { p.stats with txBytes := p.stats.txBytes + BitVec.ofNat 32 n }, dphase := .txTop } := by
  rw [dispatchTxConsume, h]
  rfl

/-- Settles O41: the bytes in flight are held, so consume removes them and none is left in flight. -/
theorem Dispatcher.dispatchTxConsume : Obligations.DispatchTxConsume := by
  unfold Obligations.DispatchTxConsume
  rintro s sel n p hr hp hu hd ⟨-, -, -, -, hle, -⟩ hfl hresv
  obtain ⟨tx, e, hrem, hfl', hresv'⟩ := rbConsume_ok (rb := p.tx) (hfl ▸ hle) hfl.ge
  have hm := dispatchMicro_txConsume (P := s.params) (d := s.draws) hd
  rw [dispatchTxConsume_ok e] at hm
  exact ⟨tx, hrem, by omega, by simpa [hresv] using hresv', exec_evDispatch_ok hr hp hu hm⟩

/-! ## BOTTOM (43_dispatch.md R207, R210) -/

/-- The enables after BOTTOM, bit by bit: the two data enables are recomputed, the others keep their value. -/
theorem dispatchBottom_intEna {k : Nat} (hk : k < 4) : (dispatchBottom p).dev.intEna.getLsbD k =
    if k = txSpace then txPending p else if k = rxData then canReceive p else p.dev.intEna.getLsbD k := by
  simp only [dispatchBottom, setInterruptEnable_getLsbD, setBit_getLsbD _ _ _ _ (show k < 32 by omega),
    readIntEna_getLsbD, hk, decide_true, Bool.true_and]

/-- Settles O42: each enable bit after BOTTOM is the one asked for. -/
theorem dispatchBottomRearms : Obligations.DispatchBottomRearms := by
  unfold Obligations.DispatchBottomRearms
  intro s sel p hr hp hu hd
  exact ⟨(dispatchBottom p).dev.intEna, dispatchBottom_intEna (by decide), dispatchBottom_intEna (by decide),
    dispatchBottom_intEna (by decide), dispatchBottom_intEna (by decide),
    exec_evDispatch_ok hr hp hu (dispatchMicro_bottom hd)⟩

/-! ## The counters of each owner (43_dispatch.md R211) -/

/-- The counters the dispatcher owns. -/
def Stats.ofDispatcher (c : Stats) : Word × Word × Word := (c.rxBytes, c.rxLingerConts, c.txBytes)

/-- The counters the interrupt top half owns. -/
def Stats.ofIsr (c : Stats) : Word × Word × Word × Word × Word :=
  (c.ints, c.rxInts, c.rxOverflows, c.txInts, c.txThrottles)

theorem Stats.ofDispatcher_ne_iff {c c' : Stats} : c'.ofDispatcher ≠ c.ofDispatcher ↔
    c'.rxBytes ≠ c.rxBytes ∨ c'.rxLingerConts ≠ c.rxLingerConts ∨ c'.txBytes ≠ c.txBytes := by
  simp only [Stats.ofDispatcher, ne_eq, Prod.mk.injEq, not_and_or]

theorem Stats.ofIsr_ne_iff {c c' : Stats} : c'.ofIsr ≠ c.ofIsr ↔
    c'.ints ≠ c.ints ∨ c'.rxInts ≠ c.rxInts ∨ c'.rxOverflows ≠ c.rxOverflows ∨ c'.txInts ≠ c.txInts ∨
      c'.txThrottles ≠ c.txThrottles := by
  simp only [Stats.ofIsr, ne_eq, Prod.mk.injEq, not_and_or]

@[simp] theorem isrCount_ofDispatcher (p : Port) :
    (isrCount p).stats.ofDispatcher = p.stats.ofDispatcher := rfl
@[simp] theorem isrRxOvf_ofDispatcher (P : Params) (st : Word) (p : Port) :
    (isrRxOvf P st p).stats.ofDispatcher = p.stats.ofDispatcher := by unfold isrRxOvf; split <;> rfl
@[simp] theorem isrCtsChg_ofDispatcher (st : Word) (p : Port) :
    (isrCtsChg st p).stats.ofDispatcher = p.stats.ofDispatcher := by unfold isrCtsChg; split <;> rfl
@[simp] theorem isrRxData_ofDispatcher (st : Word) (p : Port) :
    (isrRxData st p).stats.ofDispatcher = p.stats.ofDispatcher := by unfold isrRxData; split <;> rfl
@[simp] theorem isrTxSpace_ofDispatcher (st : Word) (p : Port) :
    (isrTxSpace st p).stats.ofDispatcher = p.stats.ofDispatcher := by unfold isrTxSpace; split <;> rfl
@[simp] theorem isrSchedule_ofDispatcher (st : Word) (p : Port) :
    (isrSchedule st p).stats.ofDispatcher = p.stats.ofDispatcher := rfl
@[simp] theorem isrAck_ofDispatcher (st : Word) (p : Port) :
    (isrAck st p).stats.ofDispatcher = p.stats.ofDispatcher := rfl

theorem isrRun_ofDispatcher (P : Params) (p : Port) :
    (isrRun P p).stats.ofDispatcher = p.stats.ofDispatcher := by simp [isrRun]

theorem dispatchRxMove_ofIsr (h : dispatchRxMove d p = .ok (p', d')) : p'.stats.ofIsr = p.stats.ofIsr := by
  simp only [dispatchRxMove] at h
  split at h <;> cases h
  rfl

theorem dispatchRxTop_ofIsr (h : dispatchRxTop P d p = .ok (p', d')) : p'.stats.ofIsr = p.stats.ofIsr := by
  rw [dispatchRxTop_eq] at h
  split at h
  · exact dispatchRxMove_ofIsr h
  · split at h <;> cases h <;> rfl

theorem dispatchLinger_ofIsr (P : Params) (d : Draws) (p : Port) :
    (dispatchLinger P d p).1.stats.ofIsr = p.stats.ofIsr := by
  unfold dispatchLinger
  split
  · rfl
  · simp only
    split <;> rfl

theorem dispatchRxFc_stats (P : Params) (p : Port) : (dispatchRxFc P p).stats = p.stats := by
  unfold dispatchRxFc
  split
  · rfl
  · split <;> rfl

theorem dispatchTxTop_stats (P : Params) (p : Port) : (dispatchTxTop P p).stats = p.stats := by
  unfold dispatchTxTop; split <;> rfl

theorem dispatchTxConsume_ofIsr (h : dispatchTxConsume n p = .ok p') : p'.stats.ofIsr = p.stats.ofIsr := by
  unfold dispatchTxConsume at h
  split at h <;> cases h
  rfl

/-- No micro-step changes a counter of the interrupt top half. -/
theorem dispatchMicro_ofIsr (h : dispatchMicro P d p = .ok (p', d')) : p'.stats.ofIsr = p.stats.ofIsr := by
  cases hd : p.dphase with
  | idle => rw [dispatchMicro_idle hd] at h; cases h; rfl
  | rxTop => exact dispatchRxTop_ofIsr (dispatchMicro_rxTop hd ▸ h)
  | linger =>
    rw [dispatchMicro_linger hd] at h
    have e := dispatchLinger_ofIsr P d p
    rwa [Except.ok.inj h] at e
  | rxFc => rw [dispatchMicro_rxFc hd] at h; cases h; rw [dispatchRxFc_stats]
  | txTop => rw [dispatchMicro_txTop hd] at h; cases h; rw [dispatchTxTop_stats]
  | txConsume n =>
    obtain ⟨_, e, ⟨⟩⟩ := ok_of_map_ok (dispatchMicro_txConsume hd ▸ h)
    exact dispatchTxConsume_ofIsr e
  | bottom => rw [dispatchMicro_bottom hd] at h; cases h; rfl

/-! ## The HOST's steps and the counters -/

/-- The counters of every port. -/
def State.counters (s : State) : List Stats := s.ports.map (·.stats)

theorem State.counters_setPort (hp : s.ports[sel]? = some p) (hx : x.stats = p.stats) :
    (s.setPort sel x).counters = s.counters := by
  have hq : (s.ports.map (·.stats))[sel]? = some x.stats := by simp [hp, hx]
  rw [State.counters, State.setPort_ports, List.map_set, set_self_of_getElem? hq, State.counters]

/-- Where the counters of every port are as before, those of each port are. -/
theorem State.stats_of_counters (h : t.counters = s.counters) (hp : s.ports[q]? = some p)
    (hp' : t.ports[q]? = some p') : p'.stats = p.stats := by
  have e : t.counters[q]? = s.counters[q]? := by rw [h]
  simpa [State.counters, hp, hp'] using e

theorem issue_counters (h : issue s t = .next s') (ht : t.counters = s.counters) : s'.counters = s.counters := by
  obtain ⟨-, ⟨-, rfl⟩ | ⟨-, rfl⟩⟩ := issue_next.mp h
  · exact ht
  · rfl

theorem issue_onConfigured_counters {k : Port → State} (h : issue s (onConfigured w sel s k) = .next s')
    (hk : ∀ p, s.ports[sel]? = some p → (k p).counters = s.counters) : s'.counters = s.counters := by
  refine issue_counters h ?_
  rcases onConfigured_cases (w := w) (sel := sel) (s := s) (k := k) with ⟨c, e⟩ | ⟨p, hp, -, e⟩ <;> rw [e]
  · rfl
  · exact hk p hp

theorem writeStep_counters {rem : List Byte} {total : Nat} (hp : s.ports[sel]? = some p) :
    (writeStep w sel rem total p s).counters = s.counters := by
  have hset (tx : RingBuffer) := State.counters_setPort (x := p.written tx) hp rfl
  rcases writeStep_cases w sel rem total p s with e | ⟨k, tx, -, -, e | ⟨-, e⟩⟩ <;> rw [e]
  · exact hset tx
  · exact hset tx

theorem flushStep_counters (hp : s.ports[sel]? = some p) : (flushStep sel p s).counters = s.counters := by
  unfold flushStep
  split
  · rfl
  · exact State.counters_setPort hp rfl

theorem hostContinue_counters : (hostContinue s).counters = s.counters := by
  unfold hostContinue
  split
  · rfl
  · split
    · rfl
    · exact writeStep_counters ‹_›
  · split
    · rfl
    · exact flushStep_counters ‹_›

/-- A configure keeps the counters of a port that was configured before (42_uart_host.md R173, R174). -/
theorem execUartConfigure_counters {c : CfgWords} (h : execUartConfigure sel c s = .next s')
    (hp : s.ports[sel]? = some p) (hu : p.phase ≠ .uninit) : s'.counters = s.counters := by
  have applied (cfg : PortCfg) : (configureApply cfg p).stats = p.stats := if_neg hu
  refine issue_counters h ?_
  rw [onPort_some hp]
  split
  · rfl
  · split
    · rfl
    · split
      · rfl
      · unfold configureRun
        simp only
        split
        · exact State.counters_setPort (s := { s with draws := _ }) hp (applied _)
        · exact State.counters_setPort (s := { s with draws := _ }) hp rfl

/-- No UART command but configure changes a counter. -/
theorem exec_uart_counters (hi : uartSelector i = some sel) (hc : ∀ c, i ≠ .uartConfigure sel c)
    (h : exec i s = .next s') : s'.counters = s.counters := by
  cases i with
  | uartConfigure _ c => cases hi; exact absurd rfl (hc c)
  | uartDeinit =>
    refine issue_onConfigured_counters h fun p hp => ?_
    split
    · rfl
    · cases hi; exact State.counters_setPort hp rfl
  | uartSetRxEnabled =>
    exact issue_onConfigured_counters h fun p hp => State.counters_setPort hp rfl
  | uartWrite sel data =>
    refine issue_onConfigured_counters h fun p hp => ?_
    split
    · rfl
    · exact writeStep_counters (s := { s with host := .write sel data data.length }) hp
  | uartRead =>
    refine issue_onConfigured_counters h fun p hp => ?_
    split
    · rfl
    · exact State.counters_setPort hp rfl
  | uartFlush sel =>
    exact issue_onConfigured_counters h fun p hp => flushStep_counters (s := { s with host := .flush sel }) hp
  | uartGetStats => exact issue_onConfigured_counters h fun _ _ => rfl
  | _ => cases hi

/-! ## Who changes a counter (43_dispatch.md R211) -/

/-- No event but those of the interrupt top half and the dispatcher changes a counter. -/
theorem exec_line_stats (hi : eventSelector i = some sel) (hisr : i ≠ .evIsr sel) (hd : i ≠ .evDispatch sel)
    (h : exec i s = .next s') (hp : s.ports[q]? = some p) (hp' : s'.ports[q]? = some p') : p'.stats = p.stats := by
  obtain rfl | rfl | ⟨b, rfl⟩ | rfl | rfl | ⟨l, rfl⟩ | rfl := eventSelector_cases hi
  · exact absurd rfl hisr
  · exact absurd rfl hd
  all_goals
    exact agentStep_related (R := fun x y => y.stats = x.stats) h (fun _ => rfl) (fun _ _ => ⟨_, rfl, rfl⟩) hp hp'

/-- Everything an instruction can do to the counters of port `q`. -/
theorem exec_stats (h : exec i s = .next s') (hp : s.ports[q]? = some p) (hp' : s'.ports[q]? = some p') :
    p'.stats = p.stats ∨ (p.phase = .uninit ∧ ∃ c, i = .uartConfigure q c) ∨
    (i = .evDispatch q ∧ p'.stats.ofIsr = p.stats.ofIsr) ∨
    (i = .evIsr q ∧ p'.stats.ofDispatcher = p.stats.ofDispatcher) := by
  have untouched (e : s'.ports[q]? = s.ports[q]?) : p'.stats = p.stats := by
    obtain rfl : p' = p := by simpa [hp, hp'] using e
    rfl
  obtain ⟨sel, hi⟩ | ⟨sel, hi⟩ | ⟨sel, hi⟩ := selector_cases i
  · exact .inl (untouched (by rw [(exec_rb_onlyInstance hi h).ports]))
  · by_cases hq : q = sel
    · subst hq
      by_cases hc : ∃ c, i = .uartConfigure q c
      · by_cases hu : p.phase = .uninit
        · exact .inr (.inl ⟨hu, hc⟩)
        · obtain ⟨c, rfl⟩ := hc
          exact .inl (State.stats_of_counters (execUartConfigure_counters h hp hu) hp hp')
      · exact .inl (State.stats_of_counters (exec_uart_counters hi (not_exists.mp hc) h) hp hp')
    · exact .inl (untouched ((exec_uart_onlyPort hi h).others q hq))
  · by_cases hq : q = sel
    · subst hq
      by_cases hd : i = .evDispatch q
      · subst hd
        exact .inr (.inr (.inl ⟨rfl, execEvDispatch_related (R := fun x y => y.stats.ofIsr = x.stats.ofIsr) h
          (fun _ => rfl) (fun _ _ _ => dispatchMicro_ofIsr) hp hp'⟩))
      · by_cases hisr : i = .evIsr q
        · subst hisr
          exact .inr (.inr (.inr ⟨rfl, agentStep_related (R := fun x y => y.stats.ofDispatcher = x.stats.ofDispatcher) h
            (fun _ => rfl) (fun x _ => ⟨_, rfl, isrRun_ofDispatcher s.params x⟩) hp hp'⟩))
        · exact .inl (exec_line_stats hi hisr hd h hp hp')
    · exact .inl (untouched ((exec_event_onlyAgentPort hi h).others q hq))

/-- The words of the agents' events are those of event instructions (30_encoding.md R107). -/
theorem isEventWord_encodeWord (i : Instr) : isEventWord (encodeWord i) = (eventSelector i).isSome := by
  cases i <;> simp [isEventWord, encodeWord, eventSelector, firstEventOp, opField_commandWord]

/-- What the HOST issues is no agent's event. -/
theorem eventSelector_of_decodeHost {payload : List Byte} (h : decodeHost w payload = .ok i) :
    eventSelector i = none := by
  unfold decodeHost at h
  split at h
  · cases h
  · rename_i he
    obtain ⟨-, hw, -⟩ := encode_of_decodeFrame h
    rw [← hw, isEventWord_encodeWord] at he
    simpa using he

/-- What an agent's turn runs is an event. -/
theorem eventSelector_of_decodeEvent (h : decodeEvent w = some i) : (eventSelector i).isSome = true := by
  unfold decodeEvent at h
  split at h
  · rename_i he
    cases hd : decodeFrame w [] with
    | error r => rw [hd] at h; cases h
    | ok j =>
      rw [hd] at h
      cases h
      obtain ⟨-, hw, -⟩ := encode_of_decodeFrame hd
      rwa [← hw, isEventWord_encodeWord] at he
  · cases h

/-- Everything a step can do to the counters of port `q`. -/
theorem step_stats (h : step s = .next s') (hp : s.ports[q]? = some p) (hp' : s'.ports[q]? = some p') :
    p'.stats = p.stats ∨ (p.phase = .uninit ∧ ∃ c, turnIssues s q (.uartConfigure q c)) ∨
    (turnIsDispatch s q ∧ p'.stats.ofIsr = p.stats.ofIsr) ∨
    (turnIsIsr s q ∧ p'.stats.ofDispatcher = p.stats.ofDispatcher) := by
  have keeps (e : s'.counters = s.counters) : p'.stats = p.stats := State.stats_of_counters e hp hp'
  obtain ⟨-, ⟨-, rfl⟩ | ⟨-, -, rfl⟩ | ⟨-, -, -, rfl⟩ | ⟨c, r, -, -, -, -, rfl⟩ | ⟨c, i, -, -, -, -, -, rfl⟩ |
    ⟨c, i, ht, hh, hq, hd, -, he⟩ | ⟨w, i, ht, hd, he⟩ | ⟨w, -, -, -, rfl⟩⟩ := step_cases h
  · exact .inl (keeps rfl)
  · exact .inl (keeps hostContinue_counters)
  · exact .inl (keeps rfl)
  · exact .inl (keeps rfl)
  · exact .inl (keeps rfl)
  · have hev := eventSelector_of_decodeHost hd
    obtain e | ⟨hu, c', rfl⟩ | ⟨rfl, -⟩ | ⟨rfl, -⟩ := exec_stats he hp hp'
    · exact .inl e
    · exact .inr (.inl ⟨hu, c', ht, hh, ⟨c, hq, hd⟩, rfl⟩)
    · cases hev
    · cases hev
  · have hev := eventSelector_of_decodeEvent hd
    obtain e | ⟨-, c', rfl⟩ | ⟨rfl, e⟩ | ⟨rfl, e⟩ := exec_stats he hp hp'
    · exact .inl e
    · cases hev
    · exact .inr (.inr (.inl ⟨⟨w, ht, hd⟩, e⟩))
    · exact .inr (.inr (.inr ⟨⟨w, ht, hd⟩, e⟩))
  · exact .inl (keeps rfl)

/-- Settles O58: a step that changes a counter is the owner's, or a configure from UNINIT. -/
theorem countersHaveOneOwner : Obligations.CountersHaveOneOwner := by
  unfold Obligations.CountersHaveOneOwner
  intro s s' q p p' h hp hp'
  rw [← Stats.ofDispatcher_ne_iff, ← Stats.ofIsr_ne_iff]
  obtain e | hc | ⟨ht, e⟩ | ⟨ht, e⟩ := step_stats h hp hp'
  · exact ⟨fun hn => absurd (congrArg _ e) hn, fun hn => absurd (congrArg _ e) hn⟩
  · exact ⟨fun _ => .inr hc, fun _ => .inr hc⟩
  · exact ⟨fun _ => .inl ht, fun hn => absurd e hn⟩
  · exact ⟨fun hn => absurd e hn, fun _ => .inl ht⟩

end Sys2Proof.Machine
end

section
/-! PROOFS. The family of 44_line_flow.md: the line's events (R231 to R235), RTS_OUT (R236), and XOFF sent once
(R240). -/

namespace Sys2Proof.Machine

open Sys2Proof.Claims

variable {s s' t : State} {sel q n : Nat} {i : Instr} {w : Word} {P : Params} {d d' : Draws} {p p' x y : Port}
  {v : Device} {b : Byte} {level : Bool}

/-! ## Bytes arriving (44_line_flow.md R231) -/

theorem lineRx_space (h : v.rxf.length < P.rxFifoCap) :
    lineRx P b v = { v with rxf := v.rxf ++ [b &&& dmask v.frame] } := if_pos h

theorem lineRx_full (h : P.rxFifoCap ≤ v.rxf.length) :
    lineRx P b v = { v with ovfLatch := true, rxCorrupt := v.rxCorrupt || P.ovfResetFifo } := if_neg (by omega)

/-- Settles O43: the FIFO's length decides. -/
theorem lineRxResult : Obligations.LineRxResult := by
  unfold Obligations.LineRxResult
  intro s sel b p hr hp hu
  have hrun : exec (.evLineRx sel b) s = .next (withPort s sel { p with dev := lineRx s.params b p.dev }) :=
    agentStep_enabled hr hp (lineEnabled_up hu)
  refine ⟨fun hspace => ?_, fun hfull => ?_⟩
  · rw [hrun, lineRx_space hspace]
    rfl
  · rw [hrun, lineRx_full hfull]

/-! ## The TX shifter (44_line_flow.md R232, R233) -/

theorem ctsBlocks_iff : ctsBlocks p = true ↔ p.cfg.txFlowControl = .hardware ∧ p.dev.ctsIn = true := by
  simp [ctsBlocks]

theorem txLoadEnabled_iff (hu : p.phase ≠ .uninit) : txLoadEnabled p = true ↔
    p.dev.txf ≠ [] ∧ p.dev.txsh = none ∧ ¬(p.cfg.txFlowControl = .hardware ∧ p.dev.ctsIn = true) := by
  rw [← ctsBlocks_iff]
  simp [txLoadEnabled, lineEnabled_up hu, and_assoc]

/-- Settles O44: CTS, the FIFO and the shifter decide whether the line steps. -/
theorem lineTxLoadResult : Obligations.LineTxLoadResult := by
  unfold Obligations.LineTxLoadResult
  intro s sel p hr hp hu
  refine ⟨fun b f htxf hsh hcts => ?_, fun hblocked => ?_⟩
  · have he : txLoadEnabled p = true := (txLoadEnabled_iff hu).mpr ⟨by simp [htxf], hsh, hcts⟩
    refine (agentStep_enabled hr hp he).trans ?_
    simp only [lineTxLoad, htxf]
    rfl
  · refine agentStep_disabled hr hp (Bool.eq_false_iff.mpr fun he => ?_)
    obtain ⟨hne, hsh, hcts⟩ := (txLoadEnabled_iff hu).mp he
    rcases hblocked with hempty | hbusy | hblocks
    · exact hne hempty
    · exact hbusy hsh
    · exact hcts hblocks

theorem txDoneEnabled_up (hu : p.phase ≠ .uninit) : txDoneEnabled p = p.dev.txsh.isSome := by
  simp [txDoneEnabled, lineEnabled_up hu]

/-- Settles O45: the shifter alone decides. -/
theorem lineTxDoneResult : Obligations.LineTxDoneResult := by
  unfold Obligations.LineTxDoneResult
  intro s sel p hr hp hu
  refine ⟨fun b hsh => ?_, fun hsh => agentStep_disabled hr hp (by rw [txDoneEnabled_up hu, hsh]; rfl)⟩
  refine (agentStep_enabled hr hp (by rw [txDoneEnabled_up hu, hsh]; rfl)).trans ?_
  simp only [lineTxDone, hsh]
  rfl

/-! ## CTS and the receive timeout (44_line_flow.md R234, R235) -/

theorem lineCts_change (h : level ≠ v.ctsIn) : lineCts level v = { v with ctsIn := level, ctsLatch := true } := by
  simp [lineCts, h]

theorem lineCts_repeat (h : level = v.ctsIn) : lineCts level v = v := by simp [lineCts, h]

/-- Settles O46: a repeated level writes back what is there. -/
theorem lineCtsResult : Obligations.LineCtsResult := by
  unfold Obligations.LineCtsResult
  intro s sel level p hr hp hu
  have hrun : exec (.evCts sel level) s = .next (s.setPort sel { p with dev := lineCts level p.dev }) :=
    agentStep_enabled hr hp (lineEnabled_up hu)
  refine ⟨fun hne => ?_, fun heq => ?_⟩
  · rw [hrun, lineCts_change hne]
    rfl
  · rw [hrun, lineCts_repeat heq, State.setPort_self hp]

theorem intRaw_rxData (hu : p.phase ≠ .uninit) : (intRaw p).getLsbD 0 = rxDataRaw p := by
  simp only [intRaw_up hu, wordOfBits_getLsbD]
  simp

theorem rxTimeoutEnabled_up (hu : p.phase ≠ .uninit) : rxTimeoutEnabled p = !p.dev.rxf.isEmpty := by
  simp [rxTimeoutEnabled, lineEnabled_up hu]

/-- Settles O47: the RX FIFO decides, and the latch is a cause of RX_DATA. -/
theorem lineRxTimeoutResult : Obligations.LineRxTimeoutResult := by
  unfold Obligations.LineRxTimeoutResult
  rintro s sel p _ hr hp hu rfl
  refine ⟨fun hne => ⟨agentStep_enabled hr hp ?_, ?_⟩, fun hempty => agentStep_disabled hr hp ?_⟩
  · simpa [rxTimeoutEnabled_up hu] using hne
  · rw [intRaw_rxData (by exact hu), rxDataRaw_iff]
    exact .inr rfl
  · simp [rxTimeoutEnabled_up hu, hempty]

/-! ## RTS_OUT (44_line_flow.md R236) -/

/-- Settles O48: the conditions of rts_hold, read as propositions. -/
theorem rtsOutIsRtsHold : Obligations.RtsOutIsRtsHold := by
  unfold Obligations.RtsOutIsRtsHold
  intro P p
  simp only [rtsOut, rtsHold, Bool.and_eq_true, Bool.or_eq_true, Bool.not_eq_true', decide_eq_true_eq, ge_iff_le,
    and_assoc]

/-! ## The software flow-control flag and the dispatcher (43_dispatch.md R204, 44_line_flow.md R240) -/

/-- RX_FC saw the threshold reached and sent XOFF. -/
def SendsXoff (P : Params) (x y : Port) : Prop :=
  x.dphase = .rxFc ∧ x.cfg.rxFlowControl = .software ∧ x.xoffSent = false ∧ y.xoffSent = true ∧
    x.cfg.rxFifoFcThresh ≤ x.rx.used ∧ y.dev.txf = x.dev.txf ++ [P.xoffChar]

/-- RX_FC saw the ring buffer below XON_LOW and sent XON. -/
def SendsXon (P : Params) (x y : Port) : Prop :=
  x.dphase = .rxFc ∧ x.cfg.rxFlowControl = .software ∧ x.xoffSent = true ∧ y.xoffSent = false ∧
    x.rx.used < xonLow P x.cfg ∧ y.dev.txf = x.dev.txf ++ [P.xonChar]

/-- The flag stays, and RX_FC puts nothing in the TX FIFO. -/
def SendsNoControl (x y : Port) : Prop :=
  y.xoffSent = x.xoffSent ∧ (x.dphase = .rxFc → y.dev.txf = x.dev.txf)

/-- RX_FC sends one of the two control bytes, or none. -/
theorem dispatchRxFc_sends (hd : p.dphase = .rxFc) : SendsXoff P p (dispatchRxFc P p) ∨
    SendsXon P p (dispatchRxFc P p) ∨ SendsNoControl p (dispatchRxFc P p) := by
  by_cases hoff : sendsXoff P p = true
  · obtain ⟨hsw, hsent, hfull, -⟩ := sendsXoff_iff.mp hoff
    rw [dispatchRxFc_xoff hoff]
    exact .inl ⟨hd, hsw, hsent, rfl, hfull, rfl⟩
  · by_cases hon : sendsXon P p = true
    · obtain ⟨hsw, hsent, hlow, -⟩ := sendsXon_iff.mp hon
      rw [dispatchRxFc_xon hoff hon]
      exact .inr (.inl ⟨hd, hsw, hsent, rfl, hlow, rfl⟩)
    · rw [dispatchRxFc_none hoff hon]
      exact .inr (.inr ⟨rfl, fun _ => rfl⟩)

theorem dispatchRxTop_xoffSent (h : dispatchRxTop P d p = .ok (p', d')) : p'.xoffSent = p.xoffSent := by
  rw [dispatchRxTop_eq] at h
  split at h
  · simp only [dispatchRxMove] at h
    split at h <;> cases h
    rfl
  · split at h <;> cases h <;> rfl

theorem dispatchLinger_xoffSent (P : Params) (d : Draws) (p : Port) :
    (dispatchLinger P d p).1.xoffSent = p.xoffSent := by
  unfold dispatchLinger
  split
  · rfl
  · simp only
    split <;> rfl

theorem dispatchTxTop_xoffSent (P : Params) (p : Port) : (dispatchTxTop P p).xoffSent = p.xoffSent := by
  unfold dispatchTxTop; split <;> rfl

theorem dispatchTxConsume_xoffSent (h : dispatchTxConsume n p = .ok p') : p'.xoffSent = p.xoffSent := by
  unfold dispatchTxConsume at h
  split at h <;> cases h
  rfl

/-- No micro-step but RX_FC writes the flag. -/
theorem dispatchMicro_xoffSent (hd : p.dphase ≠ .rxFc) (h : dispatchMicro P d p = .ok (p', d')) :
    p'.xoffSent = p.xoffSent := by
  cases hp : p.dphase with
  | idle => rw [dispatchMicro_idle hp] at h; cases h; rfl
  | rxTop => exact dispatchRxTop_xoffSent (dispatchMicro_rxTop hp ▸ h)
  | linger =>
    rw [dispatchMicro_linger hp] at h
    have e := dispatchLinger_xoffSent P d p
    rwa [Except.ok.inj h] at e
  | rxFc => exact absurd hp hd
  | txTop => rw [dispatchMicro_txTop hp] at h; cases h; exact dispatchTxTop_xoffSent P p
  | txConsume n =>
    obtain ⟨_, e, ⟨⟩⟩ := ok_of_map_ok (dispatchMicro_txConsume hp ▸ h)
    exact dispatchTxConsume_xoffSent e
  | bottom => rw [dispatchMicro_bottom hp] at h; cases h; rfl

theorem dispatchMicro_sends (h : dispatchMicro P d p = .ok (p', d')) :
    SendsXoff P p p' ∨ SendsXon P p p' ∨ SendsNoControl p p' := by
  by_cases hd : p.dphase = .rxFc
  · rw [dispatchMicro_rxFc hd] at h
    cases h
    exact dispatchRxFc_sends hd
  · exact .inr (.inr ⟨dispatchMicro_xoffSent hd h, fun he => absurd he hd⟩)

/-- The step of a DISPATCH(q) turn is the dispatcher's. -/
theorem exec_evDispatch_of_turn (ht : turnIsDispatch s q) (h : step s = .next s') :
    exec (.evDispatch q) s.popTurn = .next s' := by
  obtain ⟨w, hw, hd⟩ := ht
  obtain ⟨ts, hts⟩ := List.head?_eq_some_iff.mp hw
  rwa [step_running (step_cases h).1, fetch_event hts hd, ← State.popTurn_cons hts] at h

/-- What the step of a DISPATCH(q) turn does to port `q`. -/
theorem step_sends (ht : turnIsDispatch s q) (h : step s = .next s') (hp : s.ports[q]? = some p)
    (hp' : s'.ports[q]? = some p') : SendsXoff s.params p p' ∨ SendsXon s.params p p' ∨ SendsNoControl p p' :=
  execEvDispatch_related (R := fun x y => SendsXoff s.params x y ∨ SendsXon s.params x y ∨ SendsNoControl x y)
    (exec_evDispatch_of_turn ht h) (fun _ => .inr (.inr ⟨rfl, fun _ => rfl⟩)) (fun _ _ _ => dispatchMicro_sends) hp hp'

/-! ## What a step does to every port: a relation between the records before and after -/

/-- `R` holds between every port's record in `s` and its record in `t`. -/
def PortsRelated (R : Port → Port → Prop) (s t : State) : Prop :=
  ∀ ⦃q : Nat⦄ ⦃p p' : Port⦄, s.ports[q]? = some p → t.ports[q]? = some p' → R p p'

section
variable {R : Port → Port → Prop}

theorem PortsRelated.of_ports_eq (hR : ∀ x, R x x) (he : t.ports = s.ports) : PortsRelated R s t := by
  intro q p p' hp hp'
  obtain rfl : p = p' := by simpa [he, hp] using hp'
  exact hR p

theorem PortsRelated.of_set (hR : ∀ x, R x x) (hp : s.ports[sel]? = some p) (he : t.ports = s.ports.set sel y)
    (hy : R p y) : PortsRelated R s t := by
  intro q x x' hx hx'
  rw [he, ← State.setPort_ports, State.setPort_getElem? hp] at hx'
  split at hx' <;> rename_i hq
  · subst hq
    obtain rfl : p = x := by simpa [hp] using hx
    obtain rfl : y = x' := by simpa using hx'
    exact hy
  · obtain rfl : x = x' := by simpa [hx] using hx'
    exact hR x

theorem issue_portsRelated (hR : ∀ x, R x x) (h : issue s t = .next s') (ht : PortsRelated R s t) :
    PortsRelated R s s' := by
  obtain ⟨-, ⟨-, rfl⟩ | ⟨-, rfl⟩⟩ := issue_next.mp h
  · exact ht
  · exact .of_ports_eq hR rfl

/-- A command on a configured port, over what it does there. -/
theorem issue_onConfigured_portsRelated {k : Port → State} (hR : ∀ x, R x x)
    (h : issue s (onConfigured w sel s k) = .next s')
    (hk : ∀ p, s.ports[sel]? = some p → PortsRelated R s (k p)) : PortsRelated R s s' := by
  refine issue_portsRelated hR h ?_
  rcases onConfigured_cases (w := w) (sel := sel) (s := s) (k := k) with ⟨c, e⟩ | ⟨p, hp, -, e⟩ <;> rw [e]
  · exact .of_ports_eq hR rfl
  · exact hk p hp

/-- A command that selects its port and may find it UNINIT. -/
theorem issue_onPort_portsRelated {k : Port → State} (hR : ∀ x, R x x)
    (h : issue s (onPort w sel s k) = .next s')
    (hk : ∀ p, s.ports[sel]? = some p → PortsRelated R s (k p)) : PortsRelated R s s' := by
  refine issue_portsRelated hR h ?_
  rcases onPort_cases (w := w) (sel := sel) (s := s) (k := k) with e | ⟨p, hp, e⟩ <;> rw [e]
  · exact .of_ports_eq hR rfl
  · exact hk p hp

end

/-! ## The HOST's steps on a configured port (42_uart_host.md R178 to R182) -/

/-- `y` is `x` but for what the HOST writes of a configured port: RX enable, schedule request, phase and the two ring
buffers. -/
def HostWrites (x y : Port) : Prop :=
  y = { x with rxEnabled := y.rxEnabled, dispatchPending := y.dispatchPending, phase := y.phase, rx := y.rx,
               tx := y.tx }

theorem HostWrites.refl (x : Port) : HostWrites x x := rfl

theorem HostWrites.xoffSent (h : HostWrites x y) : y.xoffSent = x.xoffSent := by rw [h]

theorem writeStep_hostWrites {rem : List Byte} {total : Nat} (hp : s.ports[sel]? = some p) :
    PortsRelated HostWrites s (writeStep w sel rem total p s) := by
  rcases writeStep_cases w sel rem total p s with e | ⟨k, tx, -, -, e | ⟨-, e⟩⟩ <;> rw [e]
  · exact .of_ports_eq HostWrites.refl rfl
  · exact .of_set HostWrites.refl hp rfl rfl
  · exact .of_set HostWrites.refl hp rfl rfl

theorem flushStep_hostWrites (hp : s.ports[sel]? = some p) : PortsRelated HostWrites s (flushStep sel p s) := by
  unfold flushStep
  split
  · exact .of_ports_eq HostWrites.refl rfl
  · exact .of_set HostWrites.refl hp rfl rfl

theorem hostContinue_hostWrites (s : State) : PortsRelated HostWrites s (hostContinue s) := by
  unfold hostContinue
  split
  · exact .of_ports_eq HostWrites.refl rfl
  · split
    · exact .of_ports_eq HostWrites.refl rfl
    · exact writeStep_hostWrites ‹_›
  · split
    · exact .of_ports_eq HostWrites.refl rfl
    · exact flushStep_hostWrites ‹_›

/-- Every UART command but configure and deinit leaves the rest of a port as it is. -/
theorem exec_uart_hostWrites (hi : uartSelector i = some sel) (hc : ∀ c, i ≠ .uartConfigure sel c)
    (hd : i ≠ .uartDeinit sel) (h : exec i s = .next s') : PortsRelated HostWrites s s' := by
  cases i with
  | uartConfigure _ c => cases hi; exact absurd rfl (hc c)
  | uartDeinit => cases hi; exact absurd rfl hd
  | uartSetRxEnabled =>
    exact issue_onConfigured_portsRelated HostWrites.refl h fun p hp => .of_set HostWrites.refl hp rfl rfl
  | uartWrite sel data =>
    refine issue_onConfigured_portsRelated HostWrites.refl h fun p hp => ?_
    split
    · exact .of_ports_eq HostWrites.refl rfl
    · exact writeStep_hostWrites (s := { s with host := .write sel data data.length }) hp
  | uartRead =>
    refine issue_onConfigured_portsRelated HostWrites.refl h fun p hp => ?_
    split
    · exact .of_ports_eq HostWrites.refl rfl
    · exact .of_set HostWrites.refl hp rfl rfl
  | uartFlush sel =>
    exact issue_onConfigured_portsRelated HostWrites.refl h fun p hp =>
      flushStep_hostWrites (s := { s with host := .flush sel }) hp
  | uartGetStats =>
    exact issue_onConfigured_portsRelated HostWrites.refl h fun _ _ => .of_ports_eq HostWrites.refl rfl
  | _ => cases hi

/-! ## The flag outside the dispatcher (42_uart_host.md R173, R174, R177) -/

/-- The flag stays, or is cleared. -/
def XoffKeptOrCleared (x y : Port) : Prop := y.xoffSent = x.xoffSent ∨ y.xoffSent = false

theorem XoffKeptOrCleared.refl (x : Port) : XoffKeptOrCleared x x := .inl rfl

theorem execUartConfigure_xoff {c : CfgWords} (h : execUartConfigure sel c s = .next s') :
    PortsRelated XoffKeptOrCleared s s' := by
  refine issue_onPort_portsRelated XoffKeptOrCleared.refl h fun p hp => ?_
  split
  · exact .of_ports_eq XoffKeptOrCleared.refl rfl
  · split
    · exact .of_ports_eq XoffKeptOrCleared.refl rfl
    · split
      · exact .of_ports_eq XoffKeptOrCleared.refl rfl
      · unfold configureRun
        simp only
        split <;> exact .of_set XoffKeptOrCleared.refl hp rfl (.inr rfl)

theorem execUartDeinit_xoff (h : execUartDeinit sel s = .next s') : PortsRelated XoffKeptOrCleared s s' := by
  refine issue_onConfigured_portsRelated XoffKeptOrCleared.refl h fun p hp => ?_
  split
  · exact .of_ports_eq XoffKeptOrCleared.refl rfl
  · exact .of_set XoffKeptOrCleared.refl hp rfl (.inr rfl)

theorem isrRun_xoffSent (P : Params) (p : Port) : (isrRun P p).xoffSent = p.xoffSent := by
  simp [isrRun, isrAck, isrSchedule, isrTxSpace, isrRxData, isrCtsChg, isrRxOvf, isrCount, apply_ite Port.xoffSent]

/-- No event but the dispatcher's writes the flag. -/
theorem exec_event_xoffSent (hi : eventSelector i = some sel) (hd : i ≠ .evDispatch sel) (h : exec i s = .next s') :
    PortsRelated (fun x y => y.xoffSent = x.xoffSent) s s' := by
  intro q p p' hp hp'
  obtain rfl | rfl | ⟨b, rfl⟩ | rfl | rfl | ⟨l, rfl⟩ | rfl := eventSelector_cases hi
  case inr.inl => exact absurd rfl hd
  case inl =>
    exact agentStep_related (R := fun x y => y.xoffSent = x.xoffSent) h (fun _ => rfl)
      (fun x _ => ⟨_, rfl, isrRun_xoffSent s.params x⟩) hp hp'
  all_goals
    exact agentStep_related (R := fun x y => y.xoffSent = x.xoffSent) h (fun _ => rfl) (fun _ _ => ⟨_, rfl, rfl⟩) hp hp'

/-- Configure or deinit of port `q`. -/
def Reconfigures (q : Nat) (i : Instr) : Prop := (∃ c, i = .uartConfigure q c) ∨ i = .uartDeinit q

/-- Everything an instruction other than EV_DISPATCH of port `q` can do to the port's flag. -/
theorem exec_xoffSent (hd : i ≠ .evDispatch q) (h : exec i s = .next s') (hp : s.ports[q]? = some p)
    (hp' : s'.ports[q]? = some p') :
    p'.xoffSent = p.xoffSent ∨ (uartSelector i = some q ∧ Reconfigures q i ∧ p'.xoffSent = false) := by
  have untouched (e : s'.ports[q]? = s.ports[q]?) : p'.xoffSent = p.xoffSent := by
    obtain rfl : p' = p := by simpa [hp, hp'] using e
    rfl
  obtain ⟨sel, hi⟩ | ⟨sel, hi⟩ | ⟨sel, hi⟩ := selector_cases i
  · exact .inl (untouched (by rw [(exec_rb_onlyInstance hi h).ports]))
  · by_cases hq : q = sel
    · subst hq
      by_cases hc : Reconfigures q i
      · have hx : XoffKeptOrCleared p p' := by
          obtain ⟨c, rfl⟩ | rfl := hc
          · exact execUartConfigure_xoff h hp hp'
          · exact execUartDeinit_xoff h hp hp'
        exact hx.imp_right fun e => ⟨hi, hc, e⟩
      · obtain ⟨hc, hdeinit⟩ := not_or.mp hc
        exact .inl (exec_uart_hostWrites hi (not_exists.mp hc) hdeinit h hp hp').xoffSent
    · exact .inl (untouched ((exec_uart_onlyPort hi h).others q hq))
  · by_cases hq : q = sel
    · subst hq
      exact .inl (exec_event_xoffSent hi hd h hp hp')
    · exact .inl (untouched ((exec_event_onlyAgentPort hi h).others q hq))

/-- What a step that is not DISPATCH(q)'s does to the flag of port `q`: a configure or deinit may clear it. -/
theorem step_xoffSent (ht : ¬turnIsDispatch s q) (h : step s = .next s') (hp : s.ports[q]? = some p)
    (hp' : s'.ports[q]? = some p') :
    p'.xoffSent = p.xoffSent ∨ ((∃ i, turnIssues s q i ∧ Reconfigures q i) ∧ p'.xoffSent = false) := by
  have untouched (e : s'.ports = s.ports) : p'.xoffSent = p.xoffSent := by
    obtain rfl : p' = p := by simpa [e, hp] using hp'.symm
    rfl
  obtain ⟨-, ⟨-, rfl⟩ | ⟨-, -, rfl⟩ | ⟨-, -, -, rfl⟩ | ⟨c, r, -, -, -, -, rfl⟩ | ⟨c, i, -, -, -, -, -, rfl⟩ |
    ⟨c, i, hhost, hidle, hq, hd, -, he⟩ | ⟨w, i, hw, hd, he⟩ | ⟨w, -, -, -, rfl⟩⟩ := step_cases h
  · exact .inl (untouched rfl)
  · exact .inl (hostContinue_hostWrites s.popTurn hp hp').xoffSent
  · exact .inl (untouched rfl)
  · exact .inl (untouched rfl)
  · exact .inl (untouched rfl)
  · have hev := eventSelector_of_decodeHost hd
    have hne : i ≠ .evDispatch q := by rintro rfl; cases hev
    exact (exec_xoffSent hne he hp hp').imp_right fun ⟨hi, hc, e⟩ =>
      ⟨⟨i, ⟨hhost, hidle, ⟨c, hq, hd⟩, hi⟩, hc⟩, e⟩
  · have hne : i ≠ .evDispatch q := by rintro rfl; exact ht ⟨w, hw, hd⟩
    refine (exec_xoffSent hne he hp hp').imp_right fun ⟨_, hc, _⟩ => ?_
    have hev := eventSelector_of_decodeEvent hd
    obtain ⟨c, rfl⟩ | rfl := hc <;> cases hev
  · exact .inl (untouched rfl)

/-- Settles O56: in a DISPATCH(q) turn RX_FC alone writes the flag, with its control byte; in any other turn the flag
does not rise. -/
theorem xoffSentOnce : Obligations.XoffSentOnce := by
  unfold Obligations.XoffSentOnce
  intro s s' q p p' h hp hp'
  by_cases ht : turnIsDispatch s q
  · obtain ⟨hd, hsw, hx, hy, hfull, htxf⟩ | ⟨hd, hsw, hx, hy, hlow, htxf⟩ | ⟨hsame, htxf⟩ := step_sends ht h hp hp'
    · exact ⟨fun _ _ => ⟨ht, hd, hsw, hfull, htxf⟩, by simp [hx], by simp [hx, hy]⟩
    · exact ⟨by simp [hx], fun _ _ => .inl ⟨ht, hd, hsw, hlow, xonLow_le _ _, htxf⟩, by simp [hx, hy]⟩
    · exact ⟨by simp +contextual [hsame], by simp +contextual [hsame], fun _ _ => htxf⟩
  · obtain hsame | ⟨hc, hy⟩ := step_xoffSent ht h hp hp'
    · exact ⟨by simp +contextual [hsame], by simp +contextual [hsame], fun _ htd => absurd htd ht⟩
    · exact ⟨by simp [hy], fun _ _ => .inr hc, fun _ htd => absurd htd ht⟩

end Sys2Proof.Machine
end

section
/-! PROOFS. The family of 60_exceptions.md: the stopped block (R261, R262), the interrupt top half (R270), and the
enable bit as ownership token (R283). -/

namespace Sys2Proof.Machine

open Sys2Proof.Claims

variable {s s' : State} {sel q : Nat} {i : Instr} {P : Params} {st : Word} {d d' : Draws} {p p' x y : Port}
  {r t o c : Bool}

/-! ## The stopped block (60_exceptions.md R261, R262) -/

theorem step_stoppedByFault (h : s.fault.valid = true) : step s = .fault .stoppedByFault := if_pos h

theorem step_stoppedByRefusal (h : s.fault.valid = false) (h' : s.refused.valid = true) :
    step s = .fault .stoppedByRefusal := by simp [step, h, h']

/-- Every instruction, a command's issue step or an agent's event, runs only while the block does. -/
theorem exec_unlessStopped (i : Instr) (s : State) : ∃ t, exec i s = unlessStopped s t := by
  obtain ⟨sel, hi⟩ | ⟨sel, hi⟩ | ⟨sel, hi⟩ := selector_cases i
  · obtain ⟨_, e⟩ := exec_rb_onInstance (s := s) hi
    exact ⟨_, e⟩
  · obtain ⟨_, e⟩ := exec_uart_onPort (s := s) hi
    exact ⟨_, e⟩
  · obtain ⟨_, _, e⟩ := exec_event_agentStep (s := s) hi
    exact ⟨_, e⟩

/-- Settles O10: the step and every instruction look at FAULT and REFUSED first. -/
theorem stoppedBlockHasNoStep : Obligations.StoppedBlockHasNoStep := by
  unfold Obligations.StoppedBlockHasNoStep
  refine fun s => ⟨fun hf => ⟨step_stoppedByFault hf, fun i => ?_⟩,
    fun hf hx => ⟨step_stoppedByRefusal hf hx, fun i => ?_⟩⟩ <;> obtain ⟨t, e⟩ := exec_unlessStopped i s
  · rw [e, unlessStopped_fault hf]
  · rw [e, unlessStopped_refusal hf hx]

/-! ## The masked status (60_exceptions.md R267) -/

/-- The causes pending and enabled, as the four bits of the masked status. -/
theorem maskedStatus_bits (hu : p.phase ≠ .uninit) :
    (maskedStatus p).getLsbD rxData = (rxDataRaw p && p.dev.intEna.getLsbD 0) ∧
    (maskedStatus p).getLsbD txSpace = (txSpaceRaw p && p.dev.intEna.getLsbD 1) ∧
    (maskedStatus p).getLsbD rxOvf = (p.dev.ovfLatch && p.dev.intEna.getLsbD 2) ∧
    (maskedStatus p).getLsbD ctsChg = (p.dev.ctsLatch && p.dev.intEna.getLsbD 3) := by
  simp only [maskedStatus, BitVec.getLsbD_and, intRaw_up hu, wordOfBits_getLsbD, readIntEna_getLsbD]
  simp [rxData, txSpace, rxOvf, ctsChg]

theorem maskedStatus_ne_zero {k : Nat} (h : (maskedStatus p).getLsbD k = true) : maskedStatus p ≠ 0 := by
  intro e
  simp [e] at h

theorem isrEnabled_of_cause {k : Nat} (hu : p.phase ≠ .uninit) (hreg : p.registered = true)
    (h : (maskedStatus p).getLsbD k = true) : isrEnabled p = true := by
  simpa [isrEnabled, hu, hreg] using maskedStatus_ne_zero h

/-! ## What each cause does (60_exceptions.md R270) -/

theorem isrRxOvf_eq (h : st.getLsbD rxOvf = o) : isrRxOvf P st p = { p with
    stats := { p.stats with rxOverflows := p.stats.rxOverflows + (if o then 1 else 0) }
    dev := { p.dev with
      rxf := if o && P.ovfResetFifo then [] else p.dev.rxf
      rxCorrupt := p.dev.rxCorrupt && !(o && P.ovfResetFifo)
      toutLatch := p.dev.toutLatch && !(o && P.ovfResetFifo) } } := by
  subst h
  unfold isrRxOvf
  split <;> rename_i h
  · cases hq : P.ovfResetFifo <;> simp [h, counterAdd, resetRxFifo]
  · simp [h]

theorem isrCtsChg_eq (h : st.getLsbD ctsChg = c) : isrCtsChg st p = { p with
    stats := { p.stats with txThrottles := p.stats.txThrottles +
      (if c ∧ p.cfg.txFlowControl = .hardware ∧ p.dev.ctsIn = true ∧ 0 < p.tx.used then 1 else 0) } } := by
  subst h
  have hthrottle : (st.getLsbD ctsChg = true ∧ ctsBlocks p = true ∧ txPending p = true) ↔
      st.getLsbD ctsChg = true ∧ p.cfg.txFlowControl = .hardware ∧ p.dev.ctsIn = true ∧ 0 < p.tx.used := by
    simp [ctsBlocks_iff, txPending, and_assoc]
  simp only [isrCtsChg, hthrottle]
  split
  · rfl
  · simp

theorem isrRxData_eq (h : st.getLsbD rxData = r) : isrRxData st p = { p with
    stats := { p.stats with rxInts := p.stats.rxInts + (if r then 1 else 0) }
    dev := { p.dev with intEna := p.dev.intEna &&& (if r then 0b1110#4 else 0b1111#4) } } := by
  subst h
  unfold isrRxData
  split
  · simp [counterAdd, setInterruptEnable, readIntEna, disarm_rxData]
  · have hkeep : p.dev.intEna &&& 0b1111#4 = p.dev.intEna := BitVec.and_allOnes
    simp [hkeep]

theorem isrTxSpace_eq (h : st.getLsbD txSpace = t) : isrTxSpace st p = { p with
    stats := { p.stats with txInts := p.stats.txInts + (if t then 1 else 0) }
    dev := { p.dev with intEna := p.dev.intEna &&& (if t then 0b1101#4 else 0b1111#4) } } := by
  subst h
  unfold isrTxSpace
  split
  · simp [counterAdd, setInterruptEnable, readIntEna, disarm_txSpace]
  · have hkeep : p.dev.intEna &&& 0b1111#4 = p.dev.intEna := BitVec.and_allOnes
    simp [hkeep]

/-- One invocation of the top half, over the four bits of the masked status at its start. -/
theorem isrRun_eq (hr : (maskedStatus p).getLsbD rxData = r) (ht : (maskedStatus p).getLsbD txSpace = t)
    (ho : (maskedStatus p).getLsbD rxOvf = o) (hc : (maskedStatus p).getLsbD ctsChg = c) : isrRun P p = { p with
      dispatchPending := p.dispatchPending || r || t
      stats := { p.stats with
        ints := p.stats.ints + 1
        rxInts := p.stats.rxInts + (if r then 1 else 0)
        rxOverflows := p.stats.rxOverflows + (if o then 1 else 0)
        txInts := p.stats.txInts + (if t then 1 else 0)
        txThrottles := p.stats.txThrottles +
          (if c ∧ p.cfg.txFlowControl = .hardware ∧ p.dev.ctsIn = true ∧ 0 < p.tx.used then 1 else 0) }
      dev := { p.dev with
        rxf := if o && P.ovfResetFifo then [] else p.dev.rxf
        rxCorrupt := p.dev.rxCorrupt && !(o && P.ovfResetFifo)
        intEna := p.dev.intEna &&& (if r then 0b1110#4 else 0b1111#4) &&& (if t then 0b1101#4 else 0b1111#4)
        toutLatch := p.dev.toutLatch && !r && !(o && P.ovfResetFifo)
        ovfLatch := p.dev.ovfLatch && !o
        ctsLatch := p.dev.ctsLatch && !c } } := by
  simp only [isrRun, isrRxOvf_eq ho, isrCtsChg_eq hc, isrRxData_eq hr, isrTxSpace_eq ht, isrSchedule, isrAck,
    clearInterrupt, isrCount, hr, ht, ho, hc, Bool.and_right_comm _ (!r)]
  rfl

/-- Settles O35: the four causes are the bits of the masked status, one of which enables the invocation. -/
theorem isrHandlesPendingCauses : Obligations.IsrHandlesPendingCauses := by
  unfold Obligations.IsrHandlesPendingCauses
  rintro s sel p r t o c _ hrun hp hu hreg hr ht ho hc rfl hcause
  have hbits := maskedStatus_bits hu
  rw [← hr, ← ht, ← ho, ← hc] at hbits
  obtain ⟨er, et, eo, ec⟩ := hbits
  have he : isrEnabled p = true := by
    simp only [Bool.or_eq_true] at hcause
    obtain ((rfl | rfl) | rfl) | rfl := hcause
    · exact isrEnabled_of_cause hu hreg er
    · exact isrEnabled_of_cause hu hreg et
    · exact isrEnabled_of_cause hu hreg eo
    · exact isrEnabled_of_cause hu hreg ec
  refine (agentStep_enabled hrun hp he).trans ?_
  rw [isrRun_eq er et eo ec]
  rfl

/-! ## The data enables (60_exceptions.md R283) -/

/-- No data enable of the port rises. -/
def NoDataEnableRises (x y : Port) : Prop :=
  ∀ b < 2, y.dev.intEna.getLsbD b = true → x.dev.intEna.getLsbD b = true

theorem NoDataEnableRises.of_intEna_eq (h : y.dev.intEna = x.dev.intEna) : NoDataEnableRises x y :=
  fun _ _ hb => h ▸ hb

theorem NoDataEnableRises.refl (x : Port) : NoDataEnableRises x x := .of_intEna_eq rfl

theorem HostWrites.noDataEnableRises (h : HostWrites x y) : NoDataEnableRises x y :=
  .of_intEna_eq (by rw [h])

/-- Configure leaves the informational enables only (42_uart_host.md R173). -/
theorem configureApply_noDataEnableRises (cfg : PortCfg) (p : Port) : NoDataEnableRises p (configureApply cfg p) := by
  intro b hb h
  have hoff : informationalEnables.getLsbD b = false := by
    unfold informationalEnables
    interval_cases b <;> rfl
  simp [configureApply, hoff] at h

/-- Deinit and a failed allocation leave no enable (42_uart_host.md R174, R177). -/
theorem portDown_noDataEnableRises (p : Port) : NoDataEnableRises p (portDown p) := by
  intro b _ h
  simp [portDown] at h

/-- The top half masks the enables (60_exceptions.md R270). -/
theorem isrRun_noDataEnableRises (P : Params) (p : Port) : NoDataEnableRises p (isrRun P p) := by
  intro b _ h
  rw [isrRun_eq rfl rfl rfl rfl] at h
  simp only [BitVec.getLsbD_and, Bool.and_eq_true] at h
  exact h.1.1

/-! ## The dispatcher and the enables -/

theorem dispatchRxMove_intEna (h : dispatchRxMove d p = .ok (p', d')) : p'.dev.intEna = p.dev.intEna := by
  have hread : (readByte d p.dev).2.2.intEna = p.dev.intEna := by
    unfold readByte; split <;> rfl
  simp only [dispatchRxMove] at h
  split at h <;> cases h
  exact hread

theorem dispatchRxTop_intEna (h : dispatchRxTop P d p = .ok (p', d')) : p'.dev.intEna = p.dev.intEna := by
  rw [dispatchRxTop_eq] at h
  split at h
  · exact dispatchRxMove_intEna h
  · split at h <;> cases h <;> rfl

theorem dispatchRxFc_intEna (P : Params) (p : Port) : (dispatchRxFc P p).dev.intEna = p.dev.intEna := by
  unfold dispatchRxFc
  split
  · rfl
  · split <;> rfl

theorem dispatchTxTop_intEna (P : Params) (p : Port) : (dispatchTxTop P p).dev.intEna = p.dev.intEna := by
  unfold dispatchTxTop
  split
  · simp
  · rfl

/-- No micro-step but BOTTOM writes INT_ENA. -/
theorem dispatchMicro_intEna (hd : p.dphase ≠ .bottom) (h : dispatchMicro P d p = .ok (p', d')) :
    p'.dev.intEna = p.dev.intEna := by
  cases hp : p.dphase with
  | idle => rw [dispatchMicro_idle hp] at h; cases h; rfl
  | rxTop => exact dispatchRxTop_intEna (dispatchMicro_rxTop hp ▸ h)
  | linger =>
    rw [dispatchMicro_linger hp] at h
    obtain ⟨-, hdev⟩ := dispatchLinger_frame P d p
    rw [Except.ok.inj h] at hdev
    rw [hdev]
  | rxFc => rw [dispatchMicro_rxFc hp] at h; cases h; exact dispatchRxFc_intEna P p
  | txTop => rw [dispatchMicro_txTop hp] at h; cases h; exact dispatchTxTop_intEna P p
  | txConsume n =>
    obtain ⟨_, e, ⟨⟩⟩ := ok_of_map_ok (dispatchMicro_txConsume hp ▸ h)
    rw [(dispatchTxConsume_frame e).2]
  | bottom => exact absurd hp hd

/-! ## Every other step and the enables -/

theorem execUartConfigure_noDataEnableRises {c : CfgWords} (h : execUartConfigure sel c s = .next s') :
    PortsRelated NoDataEnableRises s s' := by
  refine issue_onPort_portsRelated NoDataEnableRises.refl h fun p hp => ?_
  split
  · exact .of_ports_eq NoDataEnableRises.refl rfl
  · split
    · exact .of_ports_eq NoDataEnableRises.refl rfl
    · split
      · exact .of_ports_eq NoDataEnableRises.refl rfl
      · unfold configureRun
        simp only
        split
        · exact .of_set NoDataEnableRises.refl hp rfl (configureApply_noDataEnableRises _ p)
        · exact .of_set NoDataEnableRises.refl hp rfl (portDown_noDataEnableRises p)

theorem execUartDeinit_noDataEnableRises (h : execUartDeinit sel s = .next s') :
    PortsRelated NoDataEnableRises s s' := by
  refine issue_onConfigured_portsRelated NoDataEnableRises.refl h fun p hp => ?_
  split
  · exact .of_ports_eq NoDataEnableRises.refl rfl
  · exact .of_set NoDataEnableRises.refl hp rfl (portDown_noDataEnableRises p)

theorem exec_uart_noDataEnableRises (hi : uartSelector i = some sel) (h : exec i s = .next s') :
    PortsRelated NoDataEnableRises s s' := by
  by_cases hc : Reconfigures sel i
  · obtain ⟨c, rfl⟩ | rfl := hc
    · exact execUartConfigure_noDataEnableRises h
    · exact execUartDeinit_noDataEnableRises h
  · obtain ⟨hc, hd⟩ := not_or.mp hc
    exact fun _ _ _ hp hp' => (exec_uart_hostWrites hi (not_exists.mp hc) hd h hp hp').noDataEnableRises

/-- An event on port `sel` raises a data enable of the port in BOTTOM only. -/
theorem exec_event_noDataEnableRises (hi : eventSelector i = some sel) (hd : i = .evDispatch sel → p.dphase ≠ .bottom)
    (h : exec i s = .next s') (hp : s.ports[sel]? = some p) (hp' : s'.ports[sel]? = some p') :
    NoDataEnableRises p p' := by
  obtain rfl | rfl | ⟨b, rfl⟩ | rfl | rfl | ⟨l, rfl⟩ | rfl := eventSelector_cases hi
  case inl => exact agentStep_related h NoDataEnableRises.refl (fun x _ => ⟨_, rfl, isrRun_noDataEnableRises _ x⟩) hp hp'
  case inr.inl =>
    exact execEvDispatch_related (R := fun x y => x.dphase ≠ .bottom → NoDataEnableRises x y) h
      (fun x _ => .refl x) (fun _ _ _ hm hx => .of_intEna_eq (dispatchMicro_intEna hx hm)) hp hp' (hd rfl)
  case inr.inr.inl =>
    refine agentStep_related h NoDataEnableRises.refl (fun x _ => ⟨_, rfl, .of_intEna_eq ?_⟩) hp hp'
    simp only [lineRx]
    split <;> rfl
  all_goals
    exact agentStep_related h NoDataEnableRises.refl (fun _ _ => ⟨_, rfl, .of_intEna_eq rfl⟩) hp hp'

/-- No instruction raises a data enable of port `q` but EV_DISPATCH of the port in BOTTOM. -/
theorem exec_noDataEnableRises (hd : i = .evDispatch q → p.dphase ≠ .bottom) (h : exec i s = .next s')
    (hp : s.ports[q]? = some p) (hp' : s'.ports[q]? = some p') : NoDataEnableRises p p' := by
  have untouched (e : s'.ports[q]? = s.ports[q]?) : NoDataEnableRises p p' := by
    obtain rfl : p' = p := by simpa [hp, hp'] using e
    exact .refl p'
  obtain ⟨sel, hi⟩ | ⟨sel, hi⟩ | ⟨sel, hi⟩ := selector_cases i
  · exact untouched (by rw [(exec_rb_onlyInstance hi h).ports])
  · exact exec_uart_noDataEnableRises hi h hp hp'
  · by_cases hq : q = sel
    · subst hq
      exact exec_event_noDataEnableRises hi hd h hp hp'
    · exact untouched ((exec_event_onlyAgentPort hi h).others q hq)

/-- No step raises a data enable of port `q` but DISPATCH(q) in BOTTOM. -/
theorem step_noDataEnableRises (hd : turnIsDispatch s q → p.dphase ≠ .bottom) (h : step s = .next s')
    (hp : s.ports[q]? = some p) (hp' : s'.ports[q]? = some p') : NoDataEnableRises p p' := by
  have untouched (e : s'.ports = s.ports) : NoDataEnableRises p p' :=
    PortsRelated.of_ports_eq NoDataEnableRises.refl e hp hp'
  obtain ⟨-, ⟨-, rfl⟩ | ⟨-, -, rfl⟩ | ⟨-, -, -, rfl⟩ | ⟨c, r, -, -, -, -, rfl⟩ | ⟨c, i, -, -, -, -, -, rfl⟩ |
    ⟨c, i, -, -, -, hi, -, he⟩ | ⟨w, i, hw, hi, he⟩ | ⟨w, -, -, -, rfl⟩⟩ := step_cases h
  · exact untouched rfl
  · exact (hostContinue_hostWrites s.popTurn hp hp').noDataEnableRises
  · exact untouched rfl
  · exact untouched rfl
  · exact untouched rfl
  · have hev := eventSelector_of_decodeHost hi
    exact exec_noDataEnableRises (by rintro rfl; cases hev) he hp hp'
  · exact exec_noDataEnableRises (by rintro rfl; exact hd ⟨w, hw, hi⟩) he hp hp'
  · exact untouched rfl

/-- Settles O57: in every step but DISPATCH(q)'s in BOTTOM a data enable that is set was set before. -/
theorem dataEnableSetOnlyByBottom : Obligations.DataEnableSetOnlyByBottom := by
  unfold Obligations.DataEnableSetOnlyByBottom
  intro s s' q b p p' h hp hp' hb hoff hon
  by_contra hn
  have hset := step_noDataEnableRises (not_and.mp hn) h hp hp' b hb hon
  rw [hoff] at hset
  cases hset

end Sys2Proof.Machine
end

section
/-! PROOFS. The family of 70_reset_and_hazards.md: the reset state (R300) meets the invariant of the block, has the
values R300 gives, and enables no agent but the HOST. -/

namespace Sys2Proof.Machine

open Sys2Proof.Claims

variable {P : Params} {nports nrb q : Nat} {cts : Nat → Bool} {c : Bool} {p : Port} {rb : RingBuffer}

/-! ## The instances and the ports at reset -/

@[simp] theorem resetWith_srb_length : (State.resetWith P nports nrb cts).srb.length = nrb :=
  List.length_replicate

@[simp] theorem resetWith_ports_length : (State.resetWith P nports nrb cts).ports.length = nports := by
  simp [State.resetWith]

/-- Every instance is unallocated. -/
theorem eq_unallocated_of_mem_resetWith (h : rb ∈ (State.resetWith P nports nrb cts).srb) :
    rb = RingBuffer.unallocated := List.eq_of_mem_replicate h

/-- Port `q` is the port at reset with its own draw of CTS_IN. -/
theorem resetWith_port_iff :
    (State.resetWith P nports nrb cts).ports[q]? = some p ↔ q < nports ∧ p = Port.reset (cts q) := by
  simp [State.resetWith, List.getElem?_eq_some_iff, eq_comm (a := p)]

theorem eq_reset_of_mem_resetWith (h : p ∈ (State.resetWith P nports nrb cts).ports) : ∃ c, p = Port.reset c := by
  obtain ⟨q, hq⟩ := List.mem_iff_getElem?.mp h
  exact ⟨cts q, (resetWith_port_iff.mp hq).2⟩

theorem resetWith_running : (State.resetWith P nports nrb cts).running := ⟨rfl, rfl⟩

/-! ## The reset state is sound (10_state.md R22, R30) -/

theorem Port.reset_down : (Port.reset c).down := by simp [Port.down, Port.reset, Device.reset]

theorem Port.reset_sound : (Port.reset c).sound P := .inl ⟨rfl, rfl, Port.reset_down⟩

/-- FAULT and REFUSED are both clear, so neither has a code or a reason to record. -/
theorem State.stopSound_of_running {s : State} (h : s.running) : s.stopSound := by
  simp [State.stopSound, h.1, h.2]

theorem resetWith_sound (hP : P.wf) (h1 : 1 ≤ nports) (h64 : nports ≤ 64) (hrb : nrb ≤ 64) :
    (State.resetWith P nports nrb cts).sound := by
  refine ⟨hP, by simpa using h1, by simpa using h64, by simpa using hrb,
    fun rb h => .inl (eq_unallocated_of_mem_resetWith h), fun p h => ?_, State.hostSound_idle rfl,
    State.stopSound_of_running resetWith_running⟩
  obtain ⟨c, rfl⟩ := eq_reset_of_mem_resetWith h
  exact Port.reset_sound

/-- Settles O51: every instance is unallocated, every port is down, and nothing is recorded. -/
theorem resetIsSound : Obligations.ResetIsSound := by
  unfold Obligations.ResetIsSound
  exact ⟨resetWith_sound (by decide) (by decide) (by decide) (by decide), fun _ _ _ _ => resetWith_sound⟩

/-! ## The values at reset -/

theorem rtsOut_uninit (h : p.phase = .uninit) : rtsOut P p = false :=
  Bool.eq_false_iff.mpr fun he => ((rtsOutIsRtsHold P p).mp he).1 h

/-- Every port is UNINIT, so no event is enabled. -/
theorem resetWith_event_disabled {i : Instr} {sel : Nat} (hi : eventSelector i = some sel) (hsel : sel < nports) :
    exec i (State.resetWith P nports nrb cts) = .next (State.resetWith P nports nrb cts) :=
  (disabledAgentDoesNotStep _ sel _ resetWith_running (resetWith_port_iff.mpr ⟨hsel, rfl⟩)).1 i hi rfl

/-- Settles O52: the instances and the ports are those above, and the registers of a port at reset are its own
definition's; INT_RAW and RTS_OUT, which are computed, are those of an UNINIT port. -/
theorem resetValues : Obligations.ResetValues := by
  unfold Obligations.ResetValues
  rintro P nports nrb cts s rfl
  refine ⟨resetWith_srb_length, resetWith_ports_length, fun rb h => ?_, fun p h => ?_, fun q p h => ?_, rfl, rfl, rfl,
    fun i sel => resetWith_event_disabled⟩
  · rw [eq_unallocated_of_mem_resetWith h]
    exact ⟨rfl, rfl⟩
  · obtain ⟨c, rfl⟩ := eq_reset_of_mem_resetWith h
    simp [Port.reset, Device.reset, RingBuffer.unallocated, Stats.zero, intRaw_uninit, rtsOut_uninit]
  · rw [(resetWith_port_iff.mp h).2]
    rfl

end Sys2Proof.Machine
end
